-- ==== Sys2Proof/Word.lean ====
section
/-! DEFINITION. The word types of the block: the byte and the pixel (00_scope.md R8, R9). -/

namespace Sys2Proof

/-- A byte, 8 bits, a value 0 to 255 (R8). -/
abbrev Byte := BitVec 8

/-- A pixel: an ordered pair of bytes, `b0` the byte at the lower address and the first in a stream, `b1` the second
(R9). The block only compares pixels for equality and moves them; two pixels are equal exactly when both bytes are. -/
structure Pixel where
  b0 : Byte
  b1 : Byte
deriving DecidableEq, Repr

end Sys2Proof
end

