-- ==== Sys2Proof/Config.lean ====
section
/-! DEFINITION. The parameters of 00_scope.md R7, and the value the spec leaves free. -/

namespace Sys2Proof

/-- `BPP`: bytes per pixel, the read-only constant CFG.BPP (R7, 10_state.md R23). -/
def Config.bpp : Nat := 2

/-- `COUNT_MAX`: the largest pixel count of a packet the encoder emits (R7). -/
def Config.countMax : Nat := 127

/-- `SKIP_MAX`: the largest `pixel_skip` of one LC packet (R7). -/
def Config.skipMax : Nat := 255

/-- `LA_KEY`: the look-ahead depth of the key-frame variant (R7). -/
def Config.laKey : BitVec 2 := 2

/-- `LA_DELTA`: the look-ahead depth of the delta variant (R7). -/
def Config.laDelta : BitVec 2 := 1

/-- `W_MAX`: the largest line width, which is also how many pixels LCUR and LPREV hold (R7, 20_memory.md R60). -/
def Config.wMax : Nat := 65535

/-- `BRUN_NPK_MAX`: the largest packet count a BRUN row record can state (R7). -/
def Config.brunNpkMax : Nat := 255

/-- `LC_NPK_MAX`: the largest packet count an LC line record of the encoder may state (R7, 90_conflicts.md C7). -/
def Config.lcNpkMax : Nat := 32767

/-- The two line buffers, as names for the free value below. -/
inductive LineBuffer where
  /-- LCUR. -/
  | current
  /-- LPREV. -/
  | previous
deriving DecidableEq, Repr

/-- FREE VALUE (93_implementation_defined.md U1, U2; log 4). What a command reads in a byte of a line buffer that
nothing has written since RESET. It has no body: nothing can be proved of it. The first argument is the State's
`freeCtr`, which every command that reads a line advances, so two commands may read two different values. -/
opaque Config.unwrittenByte (draw : Nat) (buffer : LineBuffer) (address : Nat) : Byte

end Sys2Proof
end

