-- ==== Sys2Proof/Syntax.lean ====
section
/-! DEFINITION. The instructions: the eight stream items and the eight host commands of spec/opcode_table.json
(00_scope.md R6), and the grammar positions at which they are read (30_encoding.md R106 to R108). -/

namespace Sys2Proof

/-- One row of spec/opcode_table.json a constructor. A stream item carries the operands of its header bytes. The pixels
of a packet follow in IN and are memory operands: the meaning reads them with InPix, because a packet's bound check
comes after the count is known and before any payload byte is read (60_exceptions.md R303). Counts are the pixel counts
of R101, after the sign has been resolved. -/
inductive Instr where
  /-- ROWHDR (R94): `k` packets in this row. -/
  | rowhdr (k : Byte)
  /-- B.REPEAT (R92): one pixel follows, replicated `n` times, `n` in 0 to 127. -/
  | bRepeat (n : Nat)
  /-- B.COPY (R93): `n` pixels follow, `n` in 1 to 128. -/
  | bCopy (n : Nat)
  /-- LINES (R97): `m` modified lines. -/
  | lines (m : BitVec 16)
  /-- LSKIP (R98): skip `rows` rows, 1 to 32768. -/
  | lskip (rows : Nat)
  /-- PKTS (R99): `k` packets in this line. -/
  | pkts (k : BitVec 16)
  /-- L.COPY (R95): skip `s` pixels, then `n` pixels follow, `n` in 0 to 127. -/
  | lCopy (s : Byte) (n : Nat)
  /-- L.REPEAT (R96): skip `s` pixels, then one pixel follows, replicated `n` times, `n` in 1 to 128. -/
  | lRepeat (s : Byte) (n : Nat)
  /-- NOP, command code 0 (45_host_commands.md R252). -/
  | nop
  /-- ENC_KEY, command code 1 (40_rle_encoder_key.md R141). -/
  | encKey
  /-- DIFF, command code 2 (41_line_differ.md R167). -/
  | diff
  /-- ENC_DELTA, command code 3 (42_rle_encoder_delta.md R187). -/
  | encDelta
  /-- DEC_BRUN_ROW, command code 4 (43_rle_decoder_brun.md R205). -/
  | decBrunRow
  /-- DEC_BRUN_FRAME, command code 5 (R206). -/
  | decBrunFrame
  /-- DEC_LC_LINE, command code 6 (44_rle_decoder_lc.md R230). -/
  | decLcLine
  /-- DEC_LC_FRAME, command code 7 (R231). -/
  | decLcFrame
deriving DecidableEq, Repr

/-- The grammar position: which item comes next. "A decoder knows which item comes next only from the grammar position
it has reached" (R108); the positions are those of the grammars of R106 and R107. -/
inductive Position where
  /-- No decode is in progress: the next instruction is the next command the host writes to CMD.OP. -/
  | command
  /-- The head of a BRUN row record: a ROWHDR. -/
  | rowHead
  /-- Inside a BRUN row record: a B.REPEAT or a B.COPY. -/
  | brunPacket
  /-- The head of an LC payload: a LINES. -/
  | frameHead
  /-- The head of an LC line entry: an LSKIP or a PKTS, told apart by bit 15 of the word. -/
  | lineHead
  /-- Directly after an LSKIP, or the first word of DEC_LC_LINE: a PKTS whatever its bit 15 (R99). -/
  | pktsWord
  /-- Inside an LC line record: an L.COPY or an L.REPEAT. -/
  | lcPacket
deriving DecidableEq, Repr

end Sys2Proof
end

