-- ==== Sys2Proof/WellFormed.lean ====
section
/-! DEFINITION. Which instructions the encodings of 30_encoding.md R91 can state, and at which grammar position. -/

namespace Sys2Proof

/-- The operand ranges of R91 and R251. Fields of a fixed width need no check. -/
def Instr.wellFormed (i : Instr) : Bool :=
  match i with
  | .rowhdr _ => true
  | .bRepeat n => decide (n ≤ 127)
  | .bCopy n => decide (1 ≤ n) && decide (n ≤ 128)
  | .lines _ => true
  | .lskip rows => decide (1 ≤ rows) && decide (rows ≤ 32768)
  | .pkts _ => true
  | .lCopy _ n => decide (n ≤ 127)
  | .lRepeat _ n => decide (1 ≤ n) && decide (n ≤ 128)
  | .nop => true
  | .encKey => true
  | .diff => true
  | .encDelta => true
  | .decBrunRow => true
  | .decBrunFrame => true
  | .decLcLine => true
  | .decLcFrame => true

/-- The grammar of R106 and R107 with the note on PKTS of R99: at the head of a line entry a PKTS has bit 15 clear,
directly after an LSKIP it may state 0 to 65535. -/
def Position.admits (p : Position) (i : Instr) : Bool :=
  match i with
  | .rowhdr _ => decide (p = .rowHead)
  | .bRepeat _ => decide (p = .brunPacket)
  | .bCopy _ => decide (p = .brunPacket)
  | .lines _ => decide (p = .frameHead)
  | .lskip _ => decide (p = .lineHead)
  | .pkts k => decide (p = .pktsWord) || (decide (p = .lineHead) && decide (k.toNat < 32768))
  | .lCopy _ _ => decide (p = .lcPacket)
  | .lRepeat _ _ => decide (p = .lcPacket)
  | .nop => decide (p = .command)
  | .encKey => decide (p = .command)
  | .diff => decide (p = .command)
  | .encDelta => decide (p = .command)
  | .decBrunRow => decide (p = .command)
  | .decBrunFrame => decide (p = .command)
  | .decLcLine => decide (p = .command)
  | .decLcFrame => decide (p = .command)

/-- Well-formed at a position: the operands are in range and the grammar admits the item there. -/
def Instr.wellFormedAt (p : Position) (i : Instr) : Bool := i.wellFormed && p.admits i

end Sys2Proof
end

