-- ==== Sys2Proof/Decode.lean ====
section
/-! DEFINITION. Decoding and encoding of stream items and commands (30_encoding.md, 45_host_commands.md R251). -/

namespace Sys2Proof

/-- `sext8` (00_scope.md R10): the byte as a two's complement integer, -128 to 127 (PRESUMED by the spec, log 9). -/
def sext8 (b : Byte) : Int := if b.toNat < 128 then (b.toNat : Int) else (b.toNat : Int) - 256

/-- `sext16` (R10): the 16-bit word as a two's complement integer. -/
def sext16 (w : BitVec 16) : Int := if w.toNat < 32768 then (w.toNat : Int) else (w.toNat : Int) - 65536

/-- `neg8` (R10): the byte `256 - n`, for `n` in 1 to 128. -/
def neg8 (n : Nat) : Byte := BitVec.ofNat 8 (256 - n)

/-- `u16le` (R10, R103): the 16-bit word of two stream bytes, the first the low one. -/
def u16le (b0 b1 : Byte) : BitVec 16 := BitVec.ofNat 16 (b0.toNat + 256 * b1.toNat)

/-- The two stream bytes of a 16-bit word, low byte first (R70, `Out16` of 20_memory.md R68). -/
def u16bytes (w : BitVec 16) : List Byte := [BitVec.ofNat 8 w.toNat, BitVec.ofNat 8 (w.toNat / 256)]

/-- The bytes of a pixel in stream order (R9, R102). -/
def Pixel.bytes (p : Pixel) : List Byte := [p.b0, p.b1]

/-- The bytes of pixels in stream order, left to right (R93, R95). -/
def pixelBytes (ps : List Pixel) : List Byte := ps.flatMap Pixel.bytes

/-- Why bytes give no instruction. There is no illegal stream encoding (R110). -/
inductive DecodeError where
  /-- The stream ends inside the item's header bytes. -/
  | headerCut
  /-- At the command position: the byte is no 3-bit command code (R251). -/
  | notACommandCode
deriving DecidableEq, Repr

/-- The command of a 3-bit code (R251): all eight values are defined. -/
def commandOf (code : BitVec 3) : Instr :=
  match code.toNat with
  | 0 => .nop
  | 1 => .encKey
  | 2 => .diff
  | 3 => .encDelta
  | 4 => .decBrunRow
  | 5 => .decBrunFrame
  | 6 => .decLcLine
  | _ => .decLcFrame

/-- The BRUN packet of a count byte (R100, R101): a non-negative count is REPEAT, a negative one COPY. The negation is
in the integers, so the byte 0x80 gives 128. -/
def brunPacketOf (b : Byte) : Instr := if 0 ≤ sext8 b then .bRepeat (sext8 b).toNat else .bCopy (-sext8 b).toNat

/-- The LC packet of a skip byte and a count byte (R100, R101, R104): the opposite sign convention. -/
def lcPacketOf (s b : Byte) : Instr := if sext8 b < 0 then .lRepeat s (-sext8 b).toNat else .lCopy s (sext8 b).toNat

/-- The item of a word at the head of a line entry (R98, R99, R103): negative is LSKIP, else PKTS. -/
def lineHeadOf (w : BitVec 16) : Instr := if sext16 w < 0 then .lskip (-sext16 w).toNat else .pkts w

/-- Decoding at a grammar position: the instruction of the header bytes, and the bytes after them. Every byte value has
a meaning at every stream position (R108, R110); what is refused is refused by name. -/
def decode (p : Position) (bytes : List Byte) : Except DecodeError (Instr × List Byte) :=
  match p, bytes with
  | .command, b :: rest =>
    if b.toNat < 8 then .ok (commandOf (BitVec.ofNat 3 b.toNat), rest) else .error .notACommandCode
  | .rowHead, b :: rest => .ok (.rowhdr b, rest)
  | .brunPacket, b :: rest => .ok (brunPacketOf b, rest)
  | .frameHead, b0 :: b1 :: rest => .ok (.lines (u16le b0 b1), rest)
  | .lineHead, b0 :: b1 :: rest => .ok (lineHeadOf (u16le b0 b1), rest)
  | .pktsWord, b0 :: b1 :: rest => .ok (.pkts (u16le b0 b1), rest)
  | .lcPacket, s :: b :: rest => .ok (lcPacketOf s b, rest)
  | .command, [] => .error .headerCut
  | .rowHead, [] => .error .headerCut
  | .brunPacket, [] => .error .headerCut
  | .frameHead, [] => .error .headerCut
  | .frameHead, [_] => .error .headerCut
  | .lineHead, [] => .error .headerCut
  | .lineHead, [_] => .error .headerCut
  | .pktsWord, [] => .error .headerCut
  | .pktsWord, [_] => .error .headerCut
  | .lcPacket, [] => .error .headerCut
  | .lcPacket, [_] => .error .headerCut

/-- The 3-bit code of a command (R251), none for a stream item. -/
def commandCode (i : Instr) : Option (BitVec 3) :=
  match i with
  | .nop => some 0
  | .encKey => some 1
  | .diff => some 2
  | .encDelta => some 3
  | .decBrunRow => some 4
  | .decBrunFrame => some 5
  | .decLcLine => some 6
  | .decLcFrame => some 7
  | .rowhdr _ => none
  | .bRepeat _ => none
  | .bCopy _ => none
  | .lines _ => none
  | .lskip _ => none
  | .pkts _ => none
  | .lCopy _ _ => none
  | .lRepeat _ _ => none

/-- The header bytes of an instruction (R91, R105; a command is its code in one byte, R251). -/
def encode (i : Instr) : List Byte :=
  match i with
  | .rowhdr k => [k]
  | .bRepeat n => [BitVec.ofNat 8 n]
  | .bCopy n => [neg8 n]
  | .lines m => u16bytes m
  | .lskip rows => u16bytes (BitVec.ofNat 16 (65536 - rows))
  | .pkts k => u16bytes k
  | .lCopy s n => [s, BitVec.ofNat 8 n]
  | .lRepeat s n => [s, neg8 n]
  | .nop => [0]
  | .encKey => [1]
  | .diff => [2]
  | .encDelta => [3]
  | .decBrunRow => [4]
  | .decBrunFrame => [5]
  | .decLcLine => [6]
  | .decLcFrame => [7]

/-- How many payload pixels follow an instruction's header in the stream (R101, R111). -/
def Instr.payloadPixels (i : Instr) : Nat :=
  match i with
  | .bRepeat _ => 1
  | .bCopy n => n
  | .lCopy _ n => n
  | .lRepeat _ _ => 1
  | .rowhdr _ => 0
  | .lines _ => 0
  | .lskip _ => 0
  | .pkts _ => 0
  | .nop => 0
  | .encKey => 0
  | .diff => 0
  | .encDelta => 0
  | .decBrunRow => 0
  | .decBrunFrame => 0
  | .decLcLine => 0
  | .decLcFrame => 0

/-- The whole of a stream item: its header bytes, then its payload pixels (R91). -/
def encodeItem (i : Instr) (payload : List Pixel) : List Byte := encode i ++ pixelBytes payload

/-- The longest item in bytes: a B.COPY of 128 pixels (R111). -/
def longestItem : Nat := 257

/-- The `n` bytes of a number, least significant first, as spec/opcode_table.json numbers bits. -/
def bytesOf (n w : Nat) : List Byte :=
  match n with
  | 0 => []
  | n + 1 => BitVec.ofNat 8 w :: bytesOf n (w / 256)

/-- The bytes of a table word: its own bytes, then zeros up to the longest item. -/
def tableBytes (nbits w : Nat) : List Byte :=
  bytesOf ((nbits + 7) / 8) w ++ List.replicate (longestItem - (nbits + 7) / 8) 0

/-- DESIGN CHOICE (log 3). Items are told apart by grammar position only (R108), and a table word comes without one, so
one is chosen from the word's length and bits: the position at which the rows of that length with fixed bits decode. -/
def tablePosition (nbits w : Nat) : Position :=
  if nbits ≤ 8 then
    if w % 256 < 8 then .command else if w % 256 < 128 then .rowHead else .brunPacket
  else if nbits ≤ 16 then
    if w % 65536 < 32768 then .lcPacket else .lineHead
  else if nbits ≤ 24 then .brunPacket
  else .lcPacket

/-- The instruction the decoder reads from a table word, at the position `tablePosition` chooses. -/
def decodeTableWord (nbits w : Nat) : Option Instr :=
  match decode (tablePosition nbits w) (tableBytes nbits w) with
  | .ok (i, _) => some i
  | .error _ => none

end Sys2Proof
end

