-- ==== Sys2Proof/Machine/State.lean ====
section
/-! DEFINITION. The state of the block (10_state.md R20, 20_memory.md R60), its reset values (10_state.md R55,
70_reset_and_hazards.md R340), and the reasons a step can stop. -/

namespace Sys2Proof.Machine

/-- A packet (00_scope.md R14). The count of a COPY is the number of its pixels (log 14). -/
inductive Packet where
  /-- `Repeat(count, pixel)`. -/
  | repeatOf (count : Nat) (pixel : Pixel)
  /-- `Copy(count, pixels)`, `len(pixels) = count`. -/
  | copyOf (pixels : List Pixel)
deriving DecidableEq, Repr

/-- An LC packet: a pixel skip and a packet (R14). -/
structure LcPacket where
  skip : Byte
  pk : Packet
deriving DecidableEq, Repr

/-- An entry of RES.pk: a `Packet` of ENC_KEY or an `LcPacket` of ENC_DELTA (10_state.md R40). -/
inductive ResPacket where
  | brun (pk : Packet)
  | lc (lp : LcPacket)
deriving DecidableEq, Repr

/-- A sub-chunk (41_line_differ.md R161). -/
structure SubChunk where
  skip : BitVec 16
  start : BitVec 16
  length : BitVec 16
deriving DecidableEq, Repr

/-- The kind of the encoder's pending packet, E.mode (10_state.md R32). -/
inductive Mode where
  | copy
  | repeated
deriving DecidableEq, Repr

/-- CFG.* (10_state.md R21, R22). -/
structure Cfg where
  w : BitVec 16
  h : BitVec 16
deriving DecidableEq, Repr

/-- CMD.* (10_state.md R24, R25). -/
structure Cmd where
  op : BitVec 3
  arg : BitVec 16
deriving DecidableEq, Repr

/-- STATUS.* (10_state.md R26 to R30). -/
structure Status where
  fault : BitVec 3
  fip : Nat
  fx : BitVec 17
  fy : BitVec 17
  npk : BitVec 16
  nsc : BitVec 16
  changed : Bool
deriving DecidableEq, Repr

/-- E.*, the encoder's working registers (10_state.md R32 to R38); `stop` is E.end. -/
structure Enc where
  mode : Mode
  count : BitVec 7
  start : BitVec 16
  idx : BitVec 16
  la : BitVec 2
  stop : BitVec 16
  skip : BitVec 16
  first : Bool
deriving DecidableEq, Repr

/-- D.*, the differ's working registers (10_state.md R41 to R44). -/
structure Dif where
  idx : BitVec 16
  skip : BitVec 16
  len : BitVec 16
  start : BitVec 16
deriving DecidableEq, Repr

/-- X.*, the decoder's working registers (10_state.md R46 to R51), and `pos`, the grammar position the decoder has
reached (30_encoding.md R108; the model's own field, log 1). -/
structure Dec where
  ip : Nat
  x : BitVec 17
  y : BitVec 17
  npk : BitVec 16
  lines : BitVec 16
  lc : Bool
  pos : Position
deriving DecidableEq, Repr

/-- RES.* (10_state.md R40, R45). -/
structure Res where
  pk : List ResPacket
  sc : List SubChunk
deriving DecidableEq, Repr

/-- A memory: (address, byte) pairs with addresses strictly rising. An unlisted address has no value (R55, U1). -/
abbrev Memory := List Host.Cell

/-- What the host can do between commands besides starting one (45_host_commands.md R256). Reads have no side effect and
are none of these. -/
inductive HostAccess where
  /-- Write CFG.W. -/
  | writeW (v : BitVec 16)
  /-- Write CFG.H. -/
  | writeH (v : BitVec 16)
  /-- Write CFG.BPP: no effect, it is the constant 2 (10_state.md R23). -/
  | writeBpp (v : Nat)
  /-- Write CMD.ARG. -/
  | writeArg (v : BitVec 16)
  /-- Write X.ip: any value is legal. -/
  | writeIp (v : Nat)
  /-- Write pixel `i` of LCUR. -/
  | writeLcur (i : Nat) (p : Pixel)
  /-- Write pixel `i` of LPREV. -/
  | writeLprev (i : Nat) (p : Pixel)
  /-- Write the pixel at physical row `r`, column `x` of FB. -/
  | writeFb (r x : Nat) (p : Pixel)
  /-- Replace IN. -/
  | replaceIn (bytes : List Byte)
  /-- Extend IN. -/
  | extendIn (bytes : List Byte)
  /-- Shorten IN to at most `n` bytes. -/
  | truncateIn (n : Nat)
  /-- Clear OUT, after reading it. -/
  | clearOut
  /-- Raise RESET. -/
  | reset
deriving DecidableEq, Repr

/-- One action of the host's program (R256, R257). -/
inductive HostAction where
  /-- Write CMD.OP: starts the command with that code (10_state.md R24). -/
  | writeOp (code : BitVec 3)
  /-- Any other access. -/
  | access (a : HostAccess)
deriving DecidableEq, Repr

/-- The state of the block (10_state.md R20). `host` and `freeCtr` are the model's own fields: the host's actions still
to come (log 2), and the counter behind the free value of a never-written pixel (log 5). -/
structure State where
  cfg : Cfg
  cmd : Cmd
  status : Status
  enc : Enc
  dif : Dif
  dec : Dec
  res : Res
  lcur : Memory
  lprev : Memory
  fb : Memory
  inp : List Byte
  out : List Byte
  host : List HostAction
  freeCtr : Nat
deriving DecidableEq, Repr

/-- Why the machine stops. The five faults of the spec are none of these: they are next states (60_exceptions.md R310). -/
inductive Fault where
  /-- Raised by a host write to a pixel that the space does not have (20_memory.md R60). Safe: the model stops where
  the spec gives no location (log 10). -/
  | noSuchPixel
  /-- Raised by a packet that places a pixel while X.y >= CFG.H, where X.r has no value (10_state.md R48). Safe: no run
  from reset reaches it, because every row and line start checks X.y first (log 11). -/
  | rowUndefined
deriving DecidableEq, Repr

/-- Why an instruction has no meaning here. -/
inductive Refusal where
  /-- Raised by an arm of `exec` for an instruction without a meaning yet. No arm does. Safe. -/
  | notModelled (mnemonic : String)
deriving DecidableEq, Repr

/-- The state after RESET (10_state.md R55, 70_reset_and_hazards.md R340). Nothing is fetched at reset; LCUR, LPREV and
FB hold no value. The model's own fields: no decode in progress, no host action to come, counter 0. -/
def State.reset : State where
  cfg := { w := 0, h := 0 }
  cmd := { op := 0, arg := 0 }
  status := { fault := 0, fip := 0, fx := 0, fy := 0, npk := 0, nsc := 0, changed := false }
  enc := { mode := .copy, count := 0, start := 0, idx := 0, la := Config.laKey, stop := 0, skip := 0, first := true }
  dif := { idx := 0, skip := 0, len := 0, start := 0 }
  dec := { ip := 0, x := 0, y := 0, npk := 0, lines := 0, lc := false, pos := .command }
  res := { pk := [], sc := [] }
  lcur := []
  lprev := []
  fb := []
  inp := []
  out := []
  host := []
  freeCtr := 0

end Sys2Proof.Machine
end

