-- ==== Sys2Proof/Machine/Ops.lean ====
section
/-! DEFINITION. The named operations over memories, registers and streams (00_scope.md R13, 20_memory.md), taking a
fault (60_exceptions.md R310), and the start of a command (45_host_commands.md R253). -/

namespace Sys2Proof.Machine

/-! ### Memories -/

/-- The canonical form of a memory: addresses strictly rising. An unlisted address has no value, so no entry can equal
what an unlisted address reads as. -/
def Memory.wf (m : Memory) : Bool :=
  match m with
  | [] => true
  | [_] => true
  | (a, _) :: (b, y) :: rest => decide (a < b) && Memory.wf ((b, y) :: rest)

/-- The byte at an address, none where nothing has been written since RESET (U1). -/
def Memory.read (m : Memory) (a : Nat) : Option Byte :=
  match m with
  | [] => none
  | (k, v) :: rest => if k = a then some v else Memory.read rest a

/-- Write one byte, keeping the canonical form. -/
def Memory.write (m : Memory) (a : Nat) (b : Byte) : Memory :=
  match m with
  | [] => [(a, b)]
  | (k, v) :: rest =>
    if a < k then (a, b) :: (k, v) :: rest
    else if a = k then (a, b) :: rest
    else (k, v) :: Memory.write rest a b

/-- `MemRead(space:a, n)` (20_memory.md R64): the bytes at `a .. a+n-1`. -/
def memRead (m : Memory) (a n : Nat) : List (Option Byte) :=
  match n with
  | 0 => []
  | n + 1 => m.read a :: memRead m (a + 1) n

/-- `MemWrite(space:a, n, v)` (R64): writes the bytes at `a .. a+n-1`. -/
def memWrite (m : Memory) (a : Nat) (bytes : List Byte) : Memory :=
  match bytes with
  | [] => m
  | b :: rest => memWrite (m.write a b) (a + 1) rest

/-- Write a pixel: `b0` at `a`, `b1` at `a + 1` (R64, R70). -/
def writePixel (m : Memory) (a : Nat) (p : Pixel) : Memory := memWrite m a p.bytes

/-- The pixel whose bytes lie at `a` and `a + 1`, none if either has no value. -/
def readPixel (m : Memory) (a : Nat) : Option Pixel :=
  match m.read a, m.read (a + 1) with
  | some b0, some b1 => some ⟨b0, b1⟩
  | _, _ => none

/-- The byte address of pixel `i` of a line buffer: a line is a contiguous block of 2-byte pixels (R61). -/
def lineAddr (i : Nat) : Nat := Config.bpp * i

/-- The byte address of the pixel at physical row `r`, column `x` of FB (R64), under the row pitch `w`. -/
def fbAddr (w r x : Nat) : Nat := Config.bpp * (r * w + x)

/-- Pixel `i` of a line buffer as a command reads it (R61). A byte nothing has written is a free value (U2, log 4). -/
def linePixel (draw : Nat) (buffer : LineBuffer) (m : Memory) (i : Nat) : Pixel :=
  { b0 := (m.read (lineAddr i)).getD (Config.unwrittenByte draw buffer (lineAddr i))
    b1 := (m.read (lineAddr i + 1)).getD (Config.unwrittenByte draw buffer (lineAddr i + 1)) }

/-- `LCUR[i]` (R61). -/
def State.lcurPixel (s : State) (i : Nat) : Pixel := linePixel s.freeCtr .current s.lcur i

/-- `LPREV[i]` (R61). -/
def State.lprevPixel (s : State) (i : Nat) : Pixel := linePixel s.freeCtr .previous s.lprev i

/-- `FB[r][x]` (R63), none if the pixel has no value. -/
def State.fbPixel (s : State) (r x : Nat) : Option Pixel := readPixel s.fb (fbAddr s.cfg.w.toNat r x)

/-- FB with other contents. -/
def State.setFb (s : State) (m : Memory) : State := { s with fb := m }

/-- `FB[r][x] <- p` (R63). -/
def State.fbWrite (s : State) (r x : Nat) (p : Pixel) : State :=
  s.setFb (writePixel s.fb (fbAddr s.cfg.w.toNat r x) p)

/-! ### Registers. Counters are computed as integers and narrowed to the register's width last (00_scope.md R8). -/

/-- `CMD.OP <- code`. -/
def State.setOp (s : State) (code : BitVec 3) : State := { s with cmd := { s.cmd with op := code } }

/-- `X.ip <- n`. -/
def State.setIp (s : State) (n : Nat) : State := { s with dec := { s.dec with ip := n } }

/-- `X.x <- n`. -/
def State.setX (s : State) (n : Nat) : State := { s with dec := { s.dec with x := BitVec.ofNat 17 n } }

/-- `X.y <- n`. -/
def State.setY (s : State) (n : Nat) : State := { s with dec := { s.dec with y := BitVec.ofNat 17 n } }

/-- `X.npk <- n`. -/
def State.setNpk (s : State) (n : Nat) : State := { s with dec := { s.dec with npk := BitVec.ofNat 16 n } }

/-- `X.lines <- n`. -/
def State.setLines (s : State) (n : Nat) : State := { s with dec := { s.dec with lines := BitVec.ofNat 16 n } }

/-- `X.lc <- b` (10_state.md R51). -/
def State.setLc (s : State) (b : Bool) : State := { s with dec := { s.dec with lc := b } }

/-- Move the decoder to a grammar position. -/
def State.setPos (s : State) (p : Position) : State := { s with dec := { s.dec with pos := p } }

/-- Draw a fresh free value: the counter moves on (log 5). -/
def State.drawFree (s : State) : State := { s with freeCtr := s.freeCtr + 1 }

/-- `Out8` for each byte in order (20_memory.md R68): OUT is only appended to. -/
def State.appendOut (s : State) (bytes : List Byte) : State := { s with out := s.out ++ bytes }

/-- `emit(pk)` (10_state.md R40): appends to RES.pk and adds 1 to STATUS.NPK. -/
def State.emit (s : State) (pk : ResPacket) : State :=
  { s with
    res := { s.res with pk := s.res.pk ++ [pk] }
    status := { s.status with npk := BitVec.ofNat 16 (s.status.npk.toNat + 1) } }

/-- `emit` for each packet in order. -/
def State.emitAll (s : State) (pks : List ResPacket) : State :=
  match pks with
  | [] => s
  | pk :: rest => (s.emit pk).emitAll rest

/-- `RES.pk <- []; STATUS.NPK <- 0`, the start of an encode command (R40). -/
def State.clearPackets (s : State) : State :=
  { s with res := { s.res with pk := [] }, status := { s.status with npk := 0 } }

/-- The physical row `X.r = CFG.H - 1 - X.y`, which has a value only when `X.y < CFG.H` (10_state.md R48). -/
def State.physRow (s : State) : Option Nat :=
  if s.dec.y.toNat < s.cfg.h.toNat then some (s.cfg.h.toNat - 1 - s.dec.y.toNat) else none

/-! ### Faults -/

/-- The faults of 60_exceptions.md R301. -/
inductive FaultName where
  | truncatedStream
  | rowOverrun
  | lineOverrun
  | packetCountOverflow
  | badConfig
deriving DecidableEq, Repr

/-- The value STATUS.FAULT takes (R301). -/
def FaultName.code (f : FaultName) : BitVec 3 :=
  match f with
  | .truncatedStream => 1
  | .rowOverrun => 2
  | .lineOverrun => 3
  | .packetCountOverflow => 4
  | .badConfig => 5

/-- Taking a fault, `raise F` (R310): the code is recorded; a decode command records X.ip, X.x and X.y, any other
command 0, 0, 0; the command ends. Nothing else changes. There is no return from it (R313): RESET is the only exit. -/
def raise (decoding : Bool) (f : FaultName) (s : State) : State :=
  { s with
    status := { s.status with
      fault := f.code
      fip := if decoding then s.dec.ip else 0
      fx := if decoding then s.dec.x else 0
      fy := if decoding then s.dec.y else 0 }
    dec := { s.dec with pos := .command } }

/-- The RESET event (70_reset_and_hazards.md R340, R341), the only thing that clears a fault. It resets the block, not
the host: the host's further actions stay, and free values drawn before it are not drawn again (log 5). -/
def resetEvent (s : State) : State := { State.reset with host := s.host, freeCtr := s.freeCtr + 1 }

/-! ### Procedures -/

/-- How a procedure of a command goes on. -/
inductive Flow where
  /-- The procedure goes on from this state. -/
  | go (s : State)
  /-- The command has ended in this state: a `raise`, or a refusal. -/
  | ended (s : State)
  /-- The machine has stopped. -/
  | stuck (r : Fault)
deriving DecidableEq, Repr

/-- Go on with `k` unless the command has ended. -/
def Flow.andThen (f : Flow) (k : State → Flow) : Flow :=
  match f with
  | .go s => k s
  | .ended s => .ended s
  | .stuck r => .stuck r

/-- The outcome of a step whose instruction is this procedure. -/
def Flow.outcome (f : Flow) : Host.Outcome State Fault Refusal :=
  match f with
  | .go s => .next s
  | .ended s => .next s
  | .stuck r => .fault r

/-- Raise a fault of a decode command: the command ends (R310). -/
def raiseDecode (f : FaultName) (s : State) : Flow := .ended (raise true f s)

/-- Raise a fault of ENC_KEY, DIFF or ENC_DELTA: the command ends (R310). -/
def raiseEncode (f : FaultName) (s : State) : Flow := .ended (raise false f s)

/-- Whether a command code is a decode command's: bit 2 (45_host_commands.md R251). -/
def isDecodeCode (code : BitVec 3) : Bool := code.getLsbD 2

/-- Whether a decode command's code is the frame form: bit 0 (R251). -/
def isFrameCode (code : BitVec 3) : Bool := code.getLsbD 0

/-- The start of every command other than NOP (R253 steps 1 to 3), then its own initialisation and procedure: CMD.OP
takes the code; while STATUS.FAULT is not 0 the command is refused with no other effect (60_exceptions.md R312); a zero
CFG.W, or for a decode command a zero CFG.H, raises BadConfig (R306). -/
def startCommand (code : BitVec 3) (body : State → Flow) (s : State) : Flow :=
  let s := s.setOp code
  if s.status.fault ≠ 0 then .ended s
  else if s.cfg.w = 0 ∨ (isDecodeCode code ∧ s.cfg.h = 0) then .ended (raise (isDecodeCode code) .badConfig s)
  else body s

end Sys2Proof.Machine
end

