-- ==== Sys2Proof/Machine/Flags.lean ====
section
/-! DEFINITION. The one-bit conditions the units compute and test (10_state.md R52). There is no condition-code
register. -/

namespace Sys2Proof.Machine

/-- A sub-chunk is open exactly when D.len > 0 (10_state.md R43). -/
def subChunkOpen (d : Dif) : Bool := decide (0 < d.len.toNat)

/-- STATUS.CHANGED: the line has at least one changed pixel, STATUS.NSC > 0 (10_state.md R30). -/
def changedFlag (nsc : BitVec 16) : Bool := decide (0 < nsc.toNat)

/-- The condition of the switch to REPEAT (40_rle_encoder_key.md R131, R132): at least `E.la` pixels are pending, and the
last `E.la` of them all equal the new pixel. -/
def tailMatches (L : Nat → Pixel) (e : Enc) : Bool :=
  decide (e.la.toNat ≤ e.count.toNat) &&
    (List.range e.la.toNat).all fun k => decide (L (e.idx.toNat - (k + 1)) = L e.idx.toNat)

/-- The bound check of a packet of `n` pixels (60_exceptions.md R303): it would place pixels beyond column W - 1. -/
def overrunsRow (n : Nat) (s : State) : Bool := decide (s.cfg.w.toNat < s.dec.x.toNat + n)

/-- The row check (60_exceptions.md R304): X.y is not a row of the frame. -/
def overrunsFrame (s : State) : Bool := decide (s.cfg.h.toNat ≤ s.dec.y.toNat)

end Sys2Proof.Machine
end

