-- ==== Sys2Proof/Machine/Differ.lean ====
section
/-! DEFINITION. The line differ (41_line_differ.md). -/

namespace Sys2Proof.Machine

/-- The record of the open sub-chunk (R163, R165). -/
def openRecord (d : Dif) : List SubChunk :=
  if subChunkOpen d then [{ skip := d.skip, start := d.start, length := d.len }] else []

/-- One step on the pixel pair at D.idx (R162): rule R163 if it is unchanged, rule R164 if it is changed. -/
def difStep (C P : Nat → Pixel) (d : Dif) : Dif × List SubChunk :=
  let next := BitVec.ofNat 16 (d.idx.toNat + 1)
  if C d.idx.toNat = P d.idx.toNat then
    let gap := if subChunkOpen d then 0 else d.skip.toNat
    ({ d with idx := next, skip := BitVec.ofNat 16 (gap + 1), len := 0 }, openRecord d)
  else
    ({ d with
        idx := next
        start := if subChunkOpen d then d.start else d.idx
        len := BitVec.ofNat 16 (d.len.toNat + 1) }, [])

/-- `n` steps and the end of the line (R162, R165): the registers left and every record, in order. -/
def difSteps (C P : Nat → Pixel) (n : Nat) (d : Dif) : Dif × List SubChunk :=
  match n with
  | 0 => (d, openRecord d)
  | n + 1 =>
    let now := difStep C P d
    let later := difSteps C P n now.1
    (later.1, now.2 ++ later.2)

/-- `DIFFER(C, P, W)` (R160, R162): all four registers start at 0. -/
def differ (C P : Nat → Pixel) (w : Nat) : Dif × List SubChunk :=
  difSteps C P w { idx := 0, skip := 0, len := 0, start := 0 }

end Sys2Proof.Machine
end

