-- ==== Sys2Proof/Machine/Encoder.lean ====
section
/-! DEFINITION. The run encoder ENCODE_RUN (40_rle_encoder_key.md), its use per sub-chunk by the delta variant
(42_rle_encoder_delta.md), and the two serialisers. -/

namespace Sys2Proof.Machine

/-- The slice `L[a .. a+n-1]` (00_scope.md R11). -/
def slice (L : Nat → Pixel) (a n : Nat) : List Pixel := (List.range n).map fun k => L (a + k)

/-- The pixels a packet stands for, `expand` (R14). -/
def Packet.expand (pk : Packet) : List Pixel :=
  match pk with
  | .repeatOf n p => List.replicate n p
  | .copyOf ps => ps

/-- `npix(pk)`: the packet's count (R14). -/
def Packet.npix (pk : Packet) : Nat :=
  match pk with
  | .repeatOf n _ => n
  | .copyOf ps => ps.length

/-- `expand` of a list of packets is the concatenation (R14). -/
def expandAll (pks : List Packet) : List Pixel := pks.flatMap Packet.expand

/-- The start of a run (40_rle_encoder_key.md R131, 10_state.md R56). -/
def startRun (e : Enc) (s0 n : Nat) (la : BitVec 2) : Enc :=
  { e with
    mode := .copy
    count := 0
    start := BitVec.ofNat 16 s0
    idx := BitVec.ofNat 16 s0
    stop := BitVec.ofNat 16 (s0 + n)
    la := la }

/-- Rule R132, switch to REPEAT: the registers after it, and the COPY emitted for what stands before the tail. -/
def stepSwitch (L : Nat → Pixel) (e : Enc) : Enc × List Packet :=
  let head := e.count.toNat - e.la.toNat
  ({ e with
      mode := .repeated
      start := BitVec.ofNat 16 (e.idx.toNat - e.la.toNat)
      count := BitVec.ofNat 7 (e.la.toNat + 1)
      idx := BitVec.ofNat 16 (e.idx.toNat + 1) },
    if 1 ≤ head then [.copyOf (slice L e.start.toNat head)] else [])

/-- A flush: the fresh pending packet holds the new pixel alone (R133, R135, R136). -/
def freshPacket (m : Mode) (e : Enc) : Enc :=
  { e with mode := m, start := e.idx, count := 1, idx := BitVec.ofNat 16 (e.idx.toNat + 1) }

/-- The pending packet takes the new pixel (R134, R135). -/
def extendPacket (e : Enc) : Enc :=
  { e with count := BitVec.ofNat 7 (e.count.toNat + 1), idx := BitVec.ofNat 16 (e.idx.toNat + 1) }

/-- One step of the run encoder on the pixel `L[E.idx]`, chosen by the table of R131 from top to bottom: the registers
after it and the packets emitted. -/
def encStep (L : Nat → Pixel) (e : Enc) : Enc × List Packet :=
  match e.mode with
  | .copy =>
    if tailMatches L e then stepSwitch L e
    else if e.count.toNat = Config.countMax then
      (freshPacket .copy e, [.copyOf (slice L e.start.toNat Config.countMax)])
    else (extendPacket e, [])
  | .repeated =>
    if L e.idx.toNat = L e.start.toNat then
      if e.count.toNat = Config.countMax then
        (freshPacket .repeated e, [.repeatOf Config.countMax (L e.start.toNat)])
      else (extendPacket e, [])
    else (freshPacket .copy e, [.repeatOf e.count.toNat (L e.start.toNat)])

/-- The flush at the end of a run (R137). An empty run emits nothing. -/
def flushRun (L : Nat → Pixel) (e : Enc) : List Packet :=
  if 1 ≤ e.count.toNat then
    match e.mode with
    | .copy => [.copyOf (slice L e.start.toNat e.count.toNat)]
    | .repeated => [.repeatOf e.count.toNat (L e.start.toNat)]
  else []

/-- `n` steps and the flush (R131): the registers at the end of the run and every packet emitted, in order. -/
def runSteps (L : Nat → Pixel) (n : Nat) (e : Enc) : Enc × List Packet :=
  match n with
  | 0 => (e, flushRun L e)
  | n + 1 =>
    let now := encStep L e
    let later := runSteps L n now.1
    (later.1, now.2 ++ later.2)

/-- `ENCODE_RUN(L, s0, n, LA)` (R130), with the registers it leaves. -/
def encodeRun (L : Nat → Pixel) (e : Enc) (s0 n : Nat) (la : BitVec 2) : Enc × List Packet :=
  runSteps L n (startRun e s0 n la)

/-- `ser_brun(pk)` (40_rle_encoder_key.md R142). -/
def serBrun (pk : Packet) : List Byte :=
  match pk with
  | .repeatOf n p => BitVec.ofNat 8 n :: p.bytes
  | .copyOf ps => BitVec.ofNat 8 (256 - ps.length) :: pixelBytes ps

/-- `ser_lc(lp)` (42_rle_encoder_delta.md R185): the opposite count sign (R186). -/
def serLc (lp : LcPacket) : List Byte :=
  match lp.pk with
  | .copyOf ps => lp.skip :: BitVec.ofNat 8 ps.length :: pixelBytes ps
  | .repeatOf n p => lp.skip :: BitVec.ofNat 8 (256 - n) :: p.bytes

/-- The BRUN row record of a list of packets: ROWHDR, then the packets (R141, 30_encoding.md R106). -/
def brunRecord (pks : List Packet) : List Byte := BitVec.ofNat 8 pks.length :: pks.flatMap serBrun

/-- The LC line record of a list of packets: PKTS, then the packets (R187, 30_encoding.md R107). -/
def lcRecord (lps : List LcPacket) : List Byte := u16bytes (BitVec.ofNat 16 lps.length) ++ lps.flatMap serLc

/-- The pure-skip packet `(255, Copy(0, []))` (R183). -/
def pureSkip : LcPacket := { skip := BitVec.ofNat 8 Config.skipMax, pk := .copyOf [] }

/-- How many pure-skip packets a pixel skip is split into: a skip of `255*q + t`, `1 <= t <= 255`, gives `q` (R183). -/
def skipSplits (skip : Nat) : Nat := (skip - 1) / Config.skipMax

/-- Pixel-skip attachment (R182): the first packet of a sub-chunk carries E.skip, the others 0, and E.first is cleared. -/
def attachSkips (e : Enc) (pks : List Packet) : Enc × List LcPacket :=
  match pks with
  | [] => (e, [])
  | pk :: rest =>
    let later := attachSkips { e with first := false } rest
    (later.1, { skip := if e.first then BitVec.ofNat 8 e.skip.toNat else 0, pk := pk } :: later.2)

/-- The packets of one sub-chunk (R181 to R183), with the registers they leave: the encoder is initialised anew, the
skip is split, the run is encoded with look-ahead 1, and the skip that is left is attached. -/
def encodeSubChunk (L : Nat → Pixel) (e : Enc) (sc : SubChunk) : Enc × List LcPacket :=
  let q := skipSplits sc.skip.toNat
  let e1 := { e with skip := BitVec.ofNat 16 (sc.skip.toNat - Config.skipMax * q), first := true }
  let run := encodeRun L e1 sc.start.toNat sc.length.toNat Config.laDelta
  let tagged := attachSkips run.1 run.2
  (tagged.1, List.replicate q pureSkip ++ tagged.2)

/-- `DELTA_LINE` over the sub-chunks of the line (R184), with the registers it leaves. -/
def deltaLine (L : Nat → Pixel) (e : Enc) (scs : List SubChunk) : Enc × List LcPacket :=
  match scs with
  | [] => (e, [])
  | sc :: rest =>
    let now := encodeSubChunk L e sc
    let later := deltaLine L now.1 rest
    (later.1, now.2 ++ later.2)

end Sys2Proof.Machine
end

