-- ==== Sys2Proof/Machine/EncodeCommands.lean ====
section
/-! DEFINITION. The commands NOP, ENC_KEY, DIFF and ENC_DELTA. -/

namespace Sys2Proof.Machine

/-- NOP (45_host_commands.md R252): nothing but CMD.OP, which reads back 0. Never refused. -/
def execNop (s : State) : Host.Outcome State Fault Refusal := .next (s.setOp 0)

/-- The procedure of ENC_KEY after the checks (40_rle_encoder_key.md R141): the line is encoded with look-ahead 2, and the
row record goes to OUT only if its packet count fits the u8. -/
def encKeyProc (s : State) : Flow :=
  let s := s.drawFree.clearPackets
  let run := encodeRun s.lcurPixel s.enc 0 s.cfg.w.toNat Config.laKey
  let s := { s with enc := run.1 }.emitAll (run.2.map ResPacket.brun)
  if Config.brunNpkMax < s.status.npk.toNat then raiseEncode .packetCountOverflow s
  else .go (s.appendOut (brunRecord run.2))

/-- ENC_KEY (R141). -/
def execEncKey (s : State) : Host.Outcome State Fault Refusal := (startCommand 1 encKeyProc s).outcome

/-- The differ's part of DIFF and ENC_DELTA (41_line_differ.md R167): RES.sc, STATUS.NSC, STATUS.CHANGED, D.*. -/
def diffLines (s : State) : State :=
  let run := differ s.lcurPixel s.lprevPixel s.cfg.w.toNat
  { s with
    dif := run.1
    res := { s.res with sc := run.2 }
    status := { s.status with
      nsc := BitVec.ofNat 16 run.2.length
      changed := changedFlag (BitVec.ofNat 16 run.2.length) } }

/-- DIFF (R167). -/
def execDiff (s : State) : Host.Outcome State Fault Refusal :=
  (startCommand 2 (fun s => .go (diffLines s.drawFree)) s).outcome

/-- The procedure of ENC_DELTA after the checks (42_rle_encoder_delta.md R187): an unchanged line appends nothing, and
the line record goes to OUT only if its packet count leaves bit 15 of PKTS clear. -/
def encDeltaProc (s : State) : Flow :=
  let s := (diffLines s.drawFree).clearPackets
  let line := deltaLine s.lcurPixel { s.enc with la := Config.laDelta } s.res.sc
  let s := { s with enc := line.1 }.emitAll (line.2.map ResPacket.lc)
  if s.status.nsc = 0 then .go s
  else if Config.lcNpkMax < s.status.npk.toNat then raiseEncode .packetCountOverflow s
  else .go (s.appendOut (lcRecord line.2))

/-- ENC_DELTA (R187). -/
def execEncDelta (s : State) : Host.Outcome State Fault Refusal := (startCommand 3 encDeltaProc s).outcome

end Sys2Proof.Machine
end

