-- ==== Sys2Proof/Machine/Operands.lean ====
section
/-! DEFINITION. The operands a decode command reads from IN (20_memory.md R66, R67; 30_encoding.md section 3), each
byte through In8. A read goes on with `k`, or ends the command with TruncatedStream. -/

namespace Sys2Proof.Machine

/-- `In8()` (R66): at the end of IN it raises TruncatedStream and reads nothing; otherwise the byte at X.ip, and X.ip
advances by 1. -/
def in8 (s : State) (k : Byte → State → Flow) : Flow :=
  match s.inp[s.dec.ip]? with
  | none => raiseDecode .truncatedStream s
  | some b => k b (s.setIp (s.dec.ip + 1))

/-- `In16()` (R67): two byte reads, the low byte first. If the second faults, X.ip has advanced by 1. -/
def in16 (s : State) (k : BitVec 16 → State → Flow) : Flow :=
  in8 s fun b0 s => in8 s fun b1 s => k (u16le b0 b1) s

/-- `InPix()` (R67, R102): two byte reads, `b0` first. -/
def inPix (s : State) (k : Pixel → State → Flow) : Flow :=
  in8 s fun b0 s => in8 s fun b1 s => k ⟨b0, b1⟩ s

/-- The head of an LC packet's operands, `pixelSkip` (R104): added to X.x before anything is placed. -/
def addSkip (skip : Byte) (s : State) : State := s.setX (s.dec.x.toNat + skip.toNat)

end Sys2Proof.Machine
end

