-- ==== Sys2Proof/Machine/BrunDecoder.lean ====
section
/-! DEFINITION. The decoder's BRUN row mode (43_rle_decoder_brun.md): the stream items ROWHDR, B.REPEAT and B.COPY, the
row procedure, and the commands DEC_BRUN_ROW and DEC_BRUN_FRAME. The placing of pixels is shared with the LC mode. -/

namespace Sys2Proof.Machine

/-- `FB[X.r][col] <- p` (R200). X.r has no value when X.y >= H (10_state.md R48, log 11). -/
def placePixel (p : Pixel) (col : Nat) (s : State) : Flow :=
  match s.physRow with
  | none => .stuck .rowUndefined
  | some r => .go (s.fbWrite r col p)

/-- `n` times the pixel `p` from column `col` on (R202). -/
def placeRun (n : Nat) (p : Pixel) (col : Nat) (s : State) : Flow :=
  match n with
  | 0 => .go s
  | n + 1 => (placePixel p col s).andThen fun s => placeRun n p (col + 1) s

/-- `n` pixels read from IN and written one by one from column `col` on (R203): what was read whole before the stream
ends stays written. -/
def placeCopy (n : Nat) (col : Nat) (s : State) : Flow :=
  match n with
  | 0 => .go s
  | n + 1 => inPix s fun q s => (placePixel q col s).andThen fun s => placeCopy n (col + 1) s

/-- The body of a REPEAT of `n` pixels (R202, 44_rle_decoder_lc.md R227): the bound check, the pixel, the writes. -/
def repeatBody (n : Nat) (s : State) : Flow :=
  if overrunsRow n s then raiseDecode .rowOverrun s
  else inPix s fun p s =>
    (placeRun n p s.dec.x.toNat s).andThen fun s => .go (s.setX (s.dec.x.toNat + n))

/-- The body of a COPY of `n` pixels (R203, 44_rle_decoder_lc.md R225): the bound check, then pixel by pixel. X.x is
updated only when the packet completes. -/
def copyBody (n : Nat) (s : State) : Flow :=
  if overrunsRow n s then raiseDecode .rowOverrun s
  else (placeCopy n s.dec.x.toNat s).andThen fun s => .go (s.setX (s.dec.x.toNat + n))

/-- ROWHDR (R201), its byte read: the next `k` items are packets of this row. -/
def rowhdrProc (k : Byte) (s : State) : Flow := .go ((s.setNpk k.toNat).setX 0)

/-- ROWHDR (R201), as an instruction. -/
def execRowhdr (k : Byte) (s : State) : Host.Outcome State Fault Refusal := (rowhdrProc k s).outcome

/-- B.REPEAT (R202), its count byte read. -/
def bRepeatProc (n : Nat) (s : State) : Flow := repeatBody n s

/-- B.REPEAT (R202), as an instruction. -/
def execBRepeat (n : Nat) (s : State) : Host.Outcome State Fault Refusal := (bRepeatProc n s).outcome

/-- B.COPY (R203), its count byte read. -/
def bCopyProc (n : Nat) (s : State) : Flow := copyBody n s

/-- B.COPY (R203), as an instruction. -/
def execBCopy (n : Nat) (s : State) : Host.Outcome State Fault Refusal := (bCopyProc n s).outcome

/-- One packet of a row (R204): the count byte, then rule R202 or R203 by its sign. -/
def brunPacket (s : State) : Flow :=
  in8 s fun b s => if 0 ≤ sext8 b then bRepeatProc (sext8 b).toNat s else bCopyProc (-sext8 b).toNat s

/-- `while X.npk > 0` of R204: `n` packets, X.npk going down with each. -/
def brunPackets (n : Nat) (s : State) : Flow :=
  match n with
  | 0 => .go s
  | n + 1 => (brunPacket s).andThen fun s => brunPackets n (s.setNpk (s.dec.npk.toNat - 1))

/-- `BRUN_ROW(y)` (R204): the row check comes before any byte of the row is read. -/
def brunRow (y : Nat) (s : State) : Flow :=
  let s := s.setY y
  if overrunsFrame s then raiseDecode .lineOverrun s
  else in8 s fun k s => (rowhdrProc k s).andThen fun s => brunPackets s.dec.npk.toNat s

/-- `for y from y to y + n - 1: BRUN_ROW(y)` (R206). -/
def brunRows (n y : Nat) (s : State) : Flow :=
  match n with
  | 0 => .go s
  | n + 1 => (brunRow y s).andThen fun s => brunRows n (y + 1) s

/-- What DEC_BRUN_ROW and DEC_LC_LINE load at their start, before their procedure (45_host_commands.md R253 step 4): X.lc from
the code, X.y from CMD.ARG, and X.x <- 0, as their row of 10_state.md R56 lists them (log 7). -/
def startLine (lc : Bool) (s : State) : State := ((s.setLc lc).setY s.cmd.arg.toNat).setX 0

/-- DEC_BRUN_ROW (R205). -/
def execDecBrunRow (s : State) : Host.Outcome State Fault Refusal :=
  (startCommand 4 (fun s => brunRow s.cmd.arg.toNat (startLine false s)) s).outcome

/-- What DEC_BRUN_FRAME and DEC_LC_FRAME load at their start (10_state.md R56, log 8). -/
def startFrame (lc : Bool) (s : State) : State := (s.setLc lc).setY 0

/-- DEC_BRUN_FRAME (R206). -/
def execDecBrunFrame (s : State) : Host.Outcome State Fault Refusal :=
  (startCommand 5 (fun s => brunRows s.cfg.h.toNat 0 (startFrame false s)) s).outcome

end Sys2Proof.Machine
end

