-- ==== Sys2Proof/Machine/LcDecoder.lean ====
section
/-! DEFINITION. The decoder's LC delta mode (44_rle_decoder_lc.md): the stream items LINES, LSKIP, PKTS, L.COPY and
L.REPEAT, the line and frame procedures, and the commands DEC_LC_LINE and DEC_LC_FRAME. -/

namespace Sys2Proof.Machine

/-- LINES (R221), its word read. -/
def linesProc (m : BitVec 16) (s : State) : Flow := .go ((s.setLines m.toNat).setY 0)

/-- LINES (R221), as an instruction. -/
def execLines (m : BitVec 16) (s : State) : Host.Outcome State Fault Refusal := (linesProc m s).outcome

/-- LSKIP (R222), its word read: the rows skipped are not touched. -/
def lskipProc (rows : Nat) (s : State) : Flow := .go (s.setY (s.dec.y.toNat + rows))

/-- LSKIP (R222), as an instruction. -/
def execLskip (rows : Nat) (s : State) : Host.Outcome State Fault Refusal := (lskipProc rows s).outcome

/-- PKTS (R223), its word read, and the line start it leads to (R226): the row check, X.x and X.npk. -/
def pktsProc (k : BitVec 16) (s : State) : Flow :=
  if overrunsFrame s then raiseDecode .lineOverrun s
  else .go ((s.setX 0).setNpk k.toNat)

/-- PKTS (R223, R226), as an instruction. -/
def execPkts (k : BitVec 16) (s : State) : Host.Outcome State Fault Refusal := (pktsProc k s).outcome

/-- L.COPY (R224, R225), both header bytes read: the skip, then the body of a COPY. -/
def lCopyProc (skip : Byte) (n : Nat) (s : State) : Flow := copyBody n (addSkip skip s)

/-- L.COPY (R224, R225), as an instruction. -/
def execLCopy (skip : Byte) (n : Nat) (s : State) : Host.Outcome State Fault Refusal := (lCopyProc skip n s).outcome

/-- L.REPEAT (R224, R227), both header bytes read: the skip, then the body of a REPEAT. -/
def lRepeatProc (skip : Byte) (n : Nat) (s : State) : Flow := repeatBody n (addSkip skip s)

/-- L.REPEAT (R224, R227), as an instruction. -/
def execLRepeat (skip : Byte) (n : Nat) (s : State) : Host.Outcome State Fault Refusal :=
  (lRepeatProc skip n s).outcome

/-- One packet of a line (R224): the skip byte, which moves X.x at once, then the count byte, then R227 or R225 by its
sign. -/
def lcPacket (s : State) : Flow :=
  in8 s fun skip s =>
    in8 (addSkip skip s) fun b s =>
      if sext8 b < 0 then repeatBody (-sext8 b).toNat s else copyBody (sext8 b).toNat s

/-- `while X.npk > 0` of R228. -/
def lcPackets (n : Nat) (s : State) : Flow :=
  match n with
  | 0 => .go s
  | n + 1 => (lcPacket s).andThen fun s => lcPackets n (s.setNpk (s.dec.npk.toNat - 1))

/-- `LC_LINE(k)` (R228): the line start, the packets, then the next row. -/
def lcLine (k : BitVec 16) (s : State) : Flow :=
  (pktsProc k s).andThen fun s =>
    (lcPackets s.dec.npk.toNat s).andThen fun s => .go (s.setY (s.dec.y.toNat + 1))

/-- One line entry (R229): the head word is an LSKIP followed by a PKTS, or the PKTS itself. -/
def lcEntry (s : State) : Flow :=
  in16 s fun w s =>
    if sext16 w < 0 then
      (lskipProc (-sext16 w).toNat s).andThen fun s => in16 s fun k s => lcLine k s
    else lcLine w s

/-- `while X.lines > 0` of R229. -/
def lcEntries (n : Nat) (s : State) : Flow :=
  match n with
  | 0 => .go s
  | n + 1 => (lcEntry s).andThen fun s => lcEntries n (s.setLines (s.dec.lines.toNat - 1))

/-- `LC_FRAME` (R229). -/
def lcFrame (s : State) : Flow :=
  in16 s fun m s => (linesProc m s).andThen fun s => lcEntries s.dec.lines.toNat s

/-- DEC_LC_LINE (R230): PKTS is read, unsigned, before the row check. -/
def execDecLcLine (s : State) : Host.Outcome State Fault Refusal :=
  (startCommand 6 (fun s => in16 (startLine true s) fun k s => lcLine k s) s).outcome

/-- DEC_LC_FRAME (R231). -/
def execDecLcFrame (s : State) : Host.Outcome State Fault Refusal :=
  (startCommand 7 (fun s => lcFrame (startFrame true s)) s).outcome

end Sys2Proof.Machine
end

