-- ==== Sys2Proof/Machine/Dispatch.lean ====
section
/-! DEFINITION. One arm per instruction, each one call of its meaning. -/

namespace Sys2Proof.Machine

def exec (i : Instr) (s : State) : Host.Outcome State Fault Refusal :=
  match i with
  -- stream items, BRUN dialect
  | .rowhdr k => Sys2Proof.Machine.execRowhdr k s
  | .bRepeat n => Sys2Proof.Machine.execBRepeat n s
  | .bCopy n => Sys2Proof.Machine.execBCopy n s
  -- stream items, LC dialect
  | .lines m => Sys2Proof.Machine.execLines m s
  | .lskip rows => Sys2Proof.Machine.execLskip rows s
  | .pkts k => Sys2Proof.Machine.execPkts k s
  | .lCopy skip n => Sys2Proof.Machine.execLCopy skip n s
  | .lRepeat skip n => Sys2Proof.Machine.execLRepeat skip n s
  -- host commands
  | .nop => Sys2Proof.Machine.execNop s
  | .encKey => Sys2Proof.Machine.execEncKey s
  | .diff => Sys2Proof.Machine.execDiff s
  | .encDelta => Sys2Proof.Machine.execEncDelta s
  | .decBrunRow => Sys2Proof.Machine.execDecBrunRow s
  | .decBrunFrame => Sys2Proof.Machine.execDecBrunFrame s
  | .decLcLine => Sys2Proof.Machine.execDecLcLine s
  | .decLcFrame => Sys2Proof.Machine.execDecLcFrame s

end Sys2Proof.Machine
end

