-- ==== Sys2Proof/Machine/HostPort.lean ====
section
/-! DEFINITION. The host's register and buffer accesses (45_host_commands.md R256). -/

namespace Sys2Proof.Machine

/-- What an access does. None can fault by itself (R256); a write to a pixel that the space does not have is no access of
R256 and stops the model (log 10). -/
def hostAccess (a : HostAccess) (s : State) : Host.Outcome State Fault Refusal :=
  match a with
  | .writeW v => .next { s with cfg := { s.cfg with w := v } }
  | .writeH v => .next { s with cfg := { s.cfg with h := v } }
  | .writeBpp _ => .next s
  | .writeArg v => .next { s with cmd := { s.cmd with arg := v } }
  | .writeIp v => .next (s.setIp v)
  | .writeLcur i p =>
    if i < Config.wMax then .next { s with lcur := writePixel s.lcur (lineAddr i) p } else .fault .noSuchPixel
  | .writeLprev i p =>
    if i < Config.wMax then .next { s with lprev := writePixel s.lprev (lineAddr i) p } else .fault .noSuchPixel
  | .writeFb r x p =>
    if r < s.cfg.h.toNat ∧ x < s.cfg.w.toNat then .next (s.fbWrite r x p) else .fault .noSuchPixel
  | .replaceIn bytes => .next { s with inp := bytes }
  | .extendIn bytes => .next { s with inp := s.inp ++ bytes }
  | .truncateIn n => .next { s with inp := s.inp.take n }
  | .clearOut => .next { s with out := [] }
  | .reset => .next (resetEvent s)

/-- The registers the host can read (10_state.md section 2, R46). E.*, D.* and the rest of X.* are not host-accessible
(R256). -/
inductive HostReg where
  | cfgW
  | cfgH
  | cfgBpp
  | cmdOp
  | cmdArg
  | statusFault
  | statusFip
  | statusFx
  | statusFy
  | statusNpk
  | statusNsc
  | statusChanged
  | xIp
deriving DecidableEq, Repr

/-- What a host read answers; it has no side effect (R256). -/
def hostRead (r : HostReg) (s : State) : Nat :=
  match r with
  | .cfgW => s.cfg.w.toNat
  | .cfgH => s.cfg.h.toNat
  | .cfgBpp => Config.bpp
  | .cmdOp => s.cmd.op.toNat
  | .cmdArg => s.cmd.arg.toNat
  | .statusFault => s.status.fault.toNat
  | .statusFip => s.status.fip
  | .statusFx => s.status.fx.toNat
  | .statusFy => s.status.fy.toNat
  | .statusNpk => s.status.npk.toNat
  | .statusNsc => s.status.nsc.toNat
  | .statusChanged => s.status.changed.toNat
  | .xIp => s.dec.ip

end Sys2Proof.Machine
end

