-- ==== Sys2Proof/Machine/Sequencer.lean ====
section
/-! DEFINITION. The decoder's small-step machine (00_scope.md R16): where a decode begins, and which item comes next
after each item (the grammars of 30_encoding.md R106 and R107; the loops of 43_rle_decoder_brun.md R204 and R206 and of
44_rle_decoder_lc.md R228 and R229). It iterates to the big step of the commands (log 1). -/

namespace Sys2Proof.Machine

/-- After the last packet of a BRUN row: the frame command goes on with the next row while one is left (R206), the row
command ends (R205). -/
def rowEnd (s : State) : State :=
  if isFrameCode s.cmd.op && decide (s.dec.y.toNat + 1 < s.cfg.h.toNat) then
    (s.setY (s.dec.y.toNat + 1)).setPos .rowHead
  else s.setPos .command

/-- After the last packet of an LC line: X.y moves on (R228), and the frame command goes on while modified lines are
left (R229). -/
def lineEnd (s : State) : State :=
  let s := s.setY (s.dec.y.toNat + 1)
  if isFrameCode s.cmd.op then
    let s := s.setLines (s.dec.lines.toNat - 1)
    if s.dec.lines.toNat = 0 then s.setPos .command else s.setPos .lineHead
  else s.setPos .command

/-- `while X.npk > 0` (R204, R228): the next packet, or the end of the row or line. -/
def nextPacket (packet : Position) (atEnd : State → State) (s : State) : State :=
  if s.dec.npk.toNat = 0 then atEnd s else s.setPos packet

/-- X.npk goes down by one after a packet (R204, R228). -/
def packetDone (s : State) : State := s.setNpk (s.dec.npk.toNat - 1)

/-- Where the decoder stands after an item. -/
def advance (i : Instr) (s : State) : State :=
  match i with
  | .rowhdr _ => nextPacket .brunPacket rowEnd s
  | .bRepeat _ => nextPacket .brunPacket rowEnd (packetDone s)
  | .bCopy _ => nextPacket .brunPacket rowEnd (packetDone s)
  | .lines _ => if s.dec.lines.toNat = 0 then s.setPos .command else s.setPos .lineHead
  | .lskip _ => s.setPos .pktsWord
  | .pkts _ => nextPacket .lcPacket lineEnd s
  | .lCopy _ _ => nextPacket .lcPacket lineEnd (packetDone s)
  | .lRepeat _ _ => nextPacket .lcPacket lineEnd (packetDone s)
  | .nop => s
  | .encKey => s
  | .diff => s
  | .encDelta => s
  | .decBrunRow => s
  | .decBrunFrame => s
  | .decLcLine => s
  | .decLcFrame => s

/-- The sequencing around an item: nothing more if the item ended the command by a `raise` (60_exceptions.md R310). -/
def afterItem (i : Instr) (s : State) : State := if s.dec.pos = .command then s else advance i s

/-- An outcome with its next state taken further. -/
def mapNext (f : State → State) (o : Host.Outcome State Fault Refusal) : Host.Outcome State Fault Refusal :=
  match o with
  | .next s => .next (f s)
  | .fault r => .fault r
  | .refused r => .refused r

/-- A decode command up to its first stream item: the checks, the initialisation, and the position it begins at. No other
command begins a decode. -/
def beginDecode (i : Instr) (s : State) : Flow :=
  match i with
  | .decBrunRow =>
    startCommand 4 (fun s =>
      let s := startLine false s
      if overrunsFrame s then raiseDecode .lineOverrun s else .go (s.setPos .rowHead)) s
  | .decBrunFrame => startCommand 5 (fun s => .go ((startFrame false s).setPos .rowHead)) s
  | .decLcLine => startCommand 6 (fun s => .go ((startLine true s).setPos .pktsWord)) s
  | .decLcFrame => startCommand 7 (fun s => .go ((startFrame true s).setPos .frameHead)) s
  | .rowhdr _ => .go s
  | .bRepeat _ => .go s
  | .bCopy _ => .go s
  | .lines _ => .go s
  | .lskip _ => .go s
  | .pkts _ => .go s
  | .lCopy _ _ => .go s
  | .lRepeat _ _ => .go s
  | .nop => .go s
  | .encKey => .go s
  | .diff => .go s
  | .encDelta => .go s

end Sys2Proof.Machine
end

