-- ==== Sys2Proof/Machine/Fetch.lean ====
section
/-! DEFINITION. What a step fetches: the next stream item of a decode in progress, or the host's next action. -/

namespace Sys2Proof.Machine

/-- What a step finds to do. -/
inductive Fetched where
  /-- Between commands, with no host action left: the block is idle and keeps all its state (60_exceptions.md R321). -/
  | idle
  /-- The host's next action, another access than a command, and the state without it. -/
  | access (a : HostAccess) (s : State)
  /-- The host starts this command, from the state without that action. -/
  | command (i : Instr) (s : State)
  /-- A stream item, from the state with X.ip past its header bytes (10_state.md R46). -/
  | item (i : Instr) (s : State)
  /-- The stream ends inside the item's header: TruncatedStream has been raised. -/
  | cut (f : Flow)
deriving DecidableEq, Repr

/-- The header reads of the item at a position, for a stream that ends inside it (60_exceptions.md R302): each byte
through In8, and in an LC packet the skip is added before the count byte is read (44_rle_decoder_lc.md R224). -/
def readCutHeader (s : State) : Flow :=
  match s.dec.pos with
  | .command => .go s
  | .rowHead => in8 s fun _ s => .go s
  | .brunPacket => in8 s fun _ s => .go s
  | .frameHead => in16 s fun _ s => .go s
  | .lineHead => in16 s fun _ s => .go s
  | .pktsWord => in16 s fun _ s => .go s
  | .lcPacket => in8 s fun skip s => in8 (addSkip skip s) fun _ s => .go s

/-- The item at X.ip, read at the position the decoder has reached (30_encoding.md R108). -/
def fetchItem (s : State) : Fetched :=
  match decode s.dec.pos (s.inp.drop s.dec.ip) with
  | .ok (i, rest) => .item i (s.setIp (s.inp.length - rest.length))
  | .error _ => .cut (readCutHeader s)

/-- What the next step does. The host acts only while no decode is in progress (45_host_commands.md R250). -/
def fetch (s : State) : Fetched :=
  match s.dec.pos with
  | .command =>
    match s.host with
    | [] => .idle
    | .writeOp code :: rest => .command (commandOf code) { s with host := rest }
    | .access a :: rest => .access a { s with host := rest }
  | .rowHead => fetchItem s
  | .brunPacket => fetchItem s
  | .frameHead => fetchItem s
  | .lineHead => fetchItem s
  | .pktsWord => fetchItem s
  | .lcPacket => fetchItem s

/-- IN with an item stored at X.ip (padded up to X.ip if IN is shorter). -/
def storeAt (inp : List Byte) (ip : Nat) (bytes : List Byte) : List Byte :=
  inp.take ip ++ List.replicate (ip - inp.length) 0 ++ bytes ++ inp.drop (ip + bytes.length)

/-- A table word placed where the next step fetches it (log 3): a command is the host's next action, an item lies in IN
at X.ip with the decoder at the position its row is read at. -/
def placeTableWord (s : State) (nbits w : Nat) : State :=
  match tablePosition nbits w with
  | .command => { s.setPos .command with host := .writeOp (BitVec.ofNat 3 (w % 256)) :: s.host }
  | .rowHead => { s.setPos .rowHead with inp := storeAt s.inp s.dec.ip (tableBytes nbits w) }
  | .brunPacket => { s.setPos .brunPacket with inp := storeAt s.inp s.dec.ip (tableBytes nbits w) }
  | .frameHead => { s.setPos .frameHead with inp := storeAt s.inp s.dec.ip (tableBytes nbits w) }
  | .lineHead => { s.setPos .lineHead with inp := storeAt s.inp s.dec.ip (tableBytes nbits w) }
  | .pktsWord => { s.setPos .pktsWord with inp := storeAt s.inp s.dec.ip (tableBytes nbits w) }
  | .lcPacket => { s.setPos .lcPacket with inp := storeAt s.inp s.dec.ip (tableBytes nbits w) }

end Sys2Proof.Machine
end

