-- ==== Sys2Proof/Machine/Step.lean ====
section
/-! DEFINITION. One step of the block. -/

namespace Sys2Proof.Machine

/-- One step: a stream item of the decode in progress, or the host's next action (a command runs whole, 00_scope.md R16),
or nothing while the block is idle. -/
def step (s : State) : Host.Outcome State Fault Refusal :=
  match fetch s with
  | .idle => .next s
  | .access a s' => hostAccess a s'
  | .command i s' => exec i s'
  | .item i s' => mapNext (afterItem i) (exec i s')
  | .cut f => f.outcome

/-- The state with a table word placed where the next step fetches it (log 3). -/
def State.withFetchWord (s : State) (nbits w : Nat) : State := placeTableWord s nbits w

end Sys2Proof.Machine
end

