-- ==== Sys2Proof/Safety.lean ====
section
/-! DEFINITION. The terms claims are written in: sound states, safe steps, legal payloads and what they paint. Nothing
here is used by the machine. -/

namespace Sys2Proof.Machine

/-! ### Sound states -/

/-- Every memory is in its canonical form. -/
def State.memoriesCanonical (s : State) : Bool := s.lcur.wf && s.lprev.wf && s.fb.wf

/-- The count registers agree with the result lists (10_state.md R28 to R30, R40, R45). -/
def State.countsAgree (s : State) : Prop :=
  s.status.npk.toNat = s.res.pk.length ∧ s.status.nsc.toNat = s.res.sc.length ∧
    s.status.changed = decide (0 < s.res.sc.length)

/-- STATUS.FAULT holds a code the block writes (60_exceptions.md R301: 6 and 7 are never written). -/
def State.faultLegal (s : State) : Prop := s.status.fault.toNat ≤ 5

/-- A decode in progress is sound: no fault is recorded, CMD.OP is a decode command whose checks have passed, X.lc is its
dialect (45_host_commands.md R251), and the loop counters, X.x and X.y are as the position demands
(43_rle_decoder_brun.md R204, 44_rle_decoder_lc.md R226, R228, R229). Between commands it demands nothing. -/
def State.decodeSound (s : State) : Prop :=
  s.dec.pos ≠ .command →
    s.status.fault = 0 ∧ isDecodeCode s.cmd.op = true ∧ s.cfg.w.toNat ≠ 0 ∧ s.cfg.h.toNat ≠ 0 ∧
    s.dec.lc = s.cmd.op.getLsbD 1 ∧
    (match s.dec.pos with
      | .command => True
      | .rowHead => s.dec.lc = false ∧ s.dec.y.toNat < s.cfg.h.toNat
      | .brunPacket =>
        s.dec.lc = false ∧ s.dec.y.toNat < s.cfg.h.toNat ∧ s.dec.x.toNat ≤ s.cfg.w.toNat ∧ 0 < s.dec.npk.toNat
      | .frameHead => s.dec.lc = true ∧ isFrameCode s.cmd.op = true
      | .lineHead =>
        s.dec.lc = true ∧ isFrameCode s.cmd.op = true ∧ 0 < s.dec.lines.toNat ∧ s.dec.y.toNat ≤ s.cfg.h.toNat
      | .pktsWord => s.dec.lc = true ∧ (isFrameCode s.cmd.op = true → 0 < s.dec.lines.toNat)
      | .lcPacket =>
        s.dec.lc = true ∧ s.dec.y.toNat < s.cfg.h.toNat ∧ s.dec.x.toNat ≤ s.cfg.w.toNat ∧ 0 < s.dec.npk.toNat ∧
          (isFrameCode s.cmd.op = true → 0 < s.dec.lines.toNat))

/-! ### Safe steps -/

/-- The machine goes on. -/
def Proceeds (o : Host.Outcome State Fault Refusal) : Prop := ∃ t, o = .next t

/-- The machine goes on and no fault of the block is recorded. -/
def ProceedsClean (o : Host.Outcome State Fault Refusal) : Prop := ∃ t, o = .next t ∧ t.status.fault = 0

/-! ### Which fault a command can raise -/

/-- The table of 60_exceptions.md R308, on the codes of R301. A stream item has the faults of the procedure that runs it
and stands outside the table. -/
def mayRaise (i : Instr) (f : FaultName) : Bool :=
  match i, f with
  | .nop, _ => false
  | .encKey, .packetCountOverflow => true
  | .encDelta, .packetCountOverflow => true
  | _, .packetCountOverflow => false
  | .encKey, .badConfig => true
  | .diff, .badConfig => true
  | .encDelta, .badConfig => true
  | .decBrunRow, _ => true
  | .decBrunFrame, f => decide (f ≠ .lineOverrun)
  | .decLcLine, _ => true
  | .decLcFrame, _ => true
  | _, _ => false

/-! ### Legal payloads and what they paint -/

/-- Pixels written one after the other from a byte address on. -/
def writePixels (m : Memory) (a : Nat) (ps : List Pixel) : Memory :=
  match ps with
  | [] => m
  | p :: rest => writePixels (writePixel m a p) (a + Config.bpp) rest

/-- A packet that a BRUN row record can state (30_encoding.md R91): REPEAT 0 to 127, COPY 1 to 128. -/
def Packet.brunLegal (pk : Packet) : Bool :=
  match pk with
  | .repeatOf n _ => decide (n ≤ 127)
  | .copyOf ps => decide (1 ≤ ps.length) && decide (ps.length ≤ 128)

/-- A packet that an LC line record can state (R91): COPY 0 to 127, REPEAT 1 to 128. -/
def LcPacket.lcLegal (lp : LcPacket) : Bool :=
  match lp.pk with
  | .copyOf ps => decide (ps.length ≤ 127)
  | .repeatOf n _ => decide (1 ≤ n) && decide (n ≤ 128)

/-- A legal row record's packets for a row of width `w`: at most 255, each legal, together at most the row. -/
def legalRow (w : Nat) (pks : List Packet) : Prop :=
  pks.length ≤ Config.brunNpkMax ∧ (∀ pk ∈ pks, pk.brunLegal = true) ∧ (expandAll pks).length ≤ w

/-- How many columns a line's packets cover, skips included. -/
def lcExtent (lps : List LcPacket) : Nat :=
  match lps with
  | [] => 0
  | lp :: rest => lp.skip.toNat + lp.pk.npix + lcExtent rest

/-- A legal line record's packets for a line of width `w`, in a record that may state up to `limit` packets. -/
def legalLine (limit w : Nat) (lps : List LcPacket) : Prop :=
  lps.length ≤ limit ∧ (∀ lp ∈ lps, lp.lcLegal = true) ∧ lcExtent lps ≤ w

/-- FB after the packets of a line, from column `x` on, on the row that begins at byte address `base`: each skip leaves
its pixels alone, each packet paints its pixels (42_rle_encoder_delta.md R188 item 3). -/
def paintLine (m : Memory) (base x : Nat) (lps : List LcPacket) : Memory :=
  match lps with
  | [] => m
  | lp :: rest =>
    paintLine (writePixels m (base + Config.bpp * (x + lp.skip.toNat)) lp.pk.expand) base
      (x + lp.skip.toNat + lp.pk.npix) rest

/-- FB after the row records of file-order rows `y`, `y + 1`, … (20_memory.md R74: row `y` is physical row `h - 1 - y`). -/
def paintRows (w h : Nat) (m : Memory) (y : Nat) (rows : List (List Packet)) : Memory :=
  match rows with
  | [] => m
  | pks :: rest => paintRows w h (writePixels m (fbAddr w (h - 1 - y) 0) (expandAll pks)) (y + 1) rest

/-- A line entry of an LC payload (30_encoding.md R107): how many rows its LSKIP skips (0: there is none), and the
packets of its line. -/
structure LineEntry where
  skipRows : Nat
  packets : List LcPacket
deriving DecidableEq, Repr

/-- The bytes of a line entry. -/
def LineEntry.bytes (e : LineEntry) : List Byte :=
  (if e.skipRows = 0 then [] else encode (.lskip e.skipRows)) ++ lcRecord e.packets

/-- The bytes of an LC payload: LINES, then the line entries (R107). -/
def lcPayload (es : List LineEntry) : List Byte := encode (.lines (BitVec.ofNat 16 es.length)) ++ es.flatMap LineEntry.bytes

/-- The largest packet count a line entry can state: bit 15 is clear unless an LSKIP precedes (R99). -/
def LineEntry.limit (e : LineEntry) : Nat := if e.skipRows = 0 then Config.lcNpkMax else 65535

/-- Legal line entries for a frame of `h` rows of width `w`, the first of them counted from file-order row `y`. -/
def legalEntries (w h y : Nat) (es : List LineEntry) : Prop :=
  match es with
  | [] => True
  | e :: rest =>
    e.skipRows ≤ 32768 ∧ y + e.skipRows < h ∧ legalLine e.limit w e.packets ∧ legalEntries w h (y + e.skipRows + 1) rest

/-- FB after line entries, the first of them counted from file-order row `y` (44_rle_decoder_lc.md R228, R229). -/
def paintEntries (w h : Nat) (m : Memory) (y : Nat) (es : List LineEntry) : Memory :=
  match es with
  | [] => m
  | e :: rest =>
    paintEntries w h (paintLine m (fbAddr w (h - 1 - (y + e.skipRows)) 0) 0 e.packets) (y + e.skipRows + 1) rest

/-- How many rows line entries move X.y on. -/
def entryRows (es : List LineEntry) : Nat :=
  match es with
  | [] => 0
  | e :: rest => e.skipRows + 1 + entryRows rest

/-- Where X.x stands after line entries that began with it at `x`: at the extent of the last line. -/
def lastExtent (x : Nat) (es : List LineEntry) : Nat :=
  match es with
  | [] => x
  | e :: rest => lastExtent (lcExtent e.packets) rest

/-! ### The encoder's outputs, as the frame layer puts them together -/

/-- The packets of ENC_KEY for a line of `w` pixels. -/
def keyPackets (L : Nat → Pixel) (w : Nat) : List Packet := (encodeRun L State.reset.enc 0 w Config.laKey).2

/-- The packets of ENC_DELTA for a line `C` of `w` pixels against `P`. -/
def deltaPackets (C P : Nat → Pixel) (w : Nat) : List LcPacket :=
  (deltaLine C State.reset.enc (differ C P w).2).2

/-- The BRUN payload of a frame (46_context_frame_container.md R275): `F r x` is the pixel at physical row `r`, column
`x`; the rows are visited bottom-up. `n` rows are left, the next one is file-order row `y`. -/
def keyPayloadFrom (w h : Nat) (F : Nat → Nat → Pixel) (n y : Nat) : List Byte :=
  match n with
  | 0 => []
  | n + 1 => brunRecord (keyPackets (F (h - 1 - y)) w) ++ keyPayloadFrom w h F n (y + 1)

/-- The line entries of a delta frame (R274): unchanged rows are counted into the skip of the next modified row. -/
def deltaEntriesFrom (w h : Nat) (Fprev Fcur : Nat → Nat → Pixel) (n y lineSkip : Nat) : List LineEntry :=
  match n with
  | 0 => []
  | n + 1 =>
    if (differ (Fcur (h - 1 - y)) (Fprev (h - 1 - y)) w).2 = [] then
      deltaEntriesFrom w h Fprev Fcur n (y + 1) (lineSkip + 1)
    else
      { skipRows := lineSkip, packets := deltaPackets (Fcur (h - 1 - y)) (Fprev (h - 1 - y)) w } ::
        deltaEntriesFrom w h Fprev Fcur n (y + 1) 0

end Sys2Proof.Machine
end

