-- ==== Sys2Proof/Certificates/Slice0/Obligations.lean ====
section
/-! DEFINITION. The statements for the provers. Each docstring names the rule of spec/ or the log entry it rests on. -/

open Sys2Proof Sys2Proof.Machine

/-! ### Reset, refusal, the host -/

/-- 70_reset_and_hazards.md R340, 10_state.md R55. The RESET event, raised by the host between commands, puts every
register, list and stream to its reset value, and LCUR, LPREV and FB hold no value. After power-up (State.reset) the block
is idle: a step changes nothing. -/
def Obligations.ResetPutsEveryRegisterBack : Prop :=
  (∀ (s : State) (rest : List HostAction), s.dec.pos = .command → s.host = .access .reset :: rest →
    ∃ t, step s = .next t ∧
      t.cfg.w = 0 ∧ t.cfg.h = 0 ∧ hostRead .cfgBpp t = 2 ∧ t.cmd.op = 0 ∧ t.cmd.arg = 0 ∧
      t.status.fault = 0 ∧ t.status.fip = 0 ∧ t.status.fx = 0 ∧ t.status.fy = 0 ∧
      t.status.npk = 0 ∧ t.status.nsc = 0 ∧ t.status.changed = false ∧
      t.enc.mode = .copy ∧ t.enc.count = 0 ∧ t.enc.start = 0 ∧ t.enc.idx = 0 ∧ t.enc.stop = 0 ∧ t.enc.skip = 0 ∧
      t.enc.la = 2 ∧ t.enc.first = true ∧
      t.dif.idx = 0 ∧ t.dif.skip = 0 ∧ t.dif.len = 0 ∧ t.dif.start = 0 ∧
      t.dec.ip = 0 ∧ t.dec.x = 0 ∧ t.dec.y = 0 ∧ t.dec.npk = 0 ∧ t.dec.lines = 0 ∧ t.dec.lc = false ∧
      t.res.pk = [] ∧ t.res.sc = [] ∧ t.out = [] ∧ t.inp = [] ∧
      (∀ a, t.lcur.read a = none ∧ t.lprev.read a = none ∧ t.fb.read a = none)) ∧
  step State.reset = .next State.reset

/-- 70_reset_and_hazards.md R341. Whatever the state, a step that takes a non-zero STATUS.FAULT to 0 is the host's RESET,
and that keeps nothing of the block: what is left is the reset state (but for the model's own fields). -/
def Obligations.OnlyResetClearsFault : Prop :=
  ∀ (s t : State), step s = .next t → s.status.fault ≠ 0 → t.status.fault = 0 →
    s.dec.pos = .command ∧ (∃ rest, s.host = .access .reset :: rest) ∧
      { t with host := [], freeCtr := 0 } = State.reset

/-- 60_exceptions.md R312. While STATUS.FAULT is not 0, every command but NOP changes CMD.OP and nothing else; the other
host accesses stay allowed. -/
def Obligations.FaultRefusesEveryCommandButNop : Prop :=
  ∀ (s : State), s.status.fault ≠ 0 →
    (∀ (i : Instr) (c : BitVec 3), commandCode i = some c → i ≠ .nop →
      exec i s = .next { s with cmd := { s.cmd with op := c } }) ∧
    (∀ (a : HostAccess), Proceeds (hostAccess a s) ↔
      Proceeds (hostAccess a { s with status := { s.status with fault := 0 } }))

/-- 45_host_commands.md R252. NOP, command code 0, changes CMD.OP, which reads back 0, and nothing else, also while a
fault is recorded, when it is the only command that is not refused; after RESET it leaves the reset state. -/
def Obligations.NopChangesOnlyCmdOp : Prop :=
  (∀ (s : State), ∃ t, exec .nop s = .next t ∧ t = { s with cmd := { s.cmd with op := 0 } } ∧ hostRead .cmdOp t = 0) ∧
  (∀ (s : State) (i : Instr) (c : BitVec 3), s.status.fault ≠ 0 → commandCode i = some c → c ≠ 0 →
    exec i s = .next { s with cmd := { s.cmd with op := c } }) ∧
  commandCode .nop = some 0 ∧ exec .nop State.reset = .next State.reset

/-- 60_exceptions.md R306, R310. A zero CFG.W (any command but NOP) or a zero CFG.H (a decode command) raises BadConfig at
the start; nothing has been read or written, and a decode command records X.ip, X.x, X.y as they stood, any other 0, 0, 0. -/
def Obligations.ZeroGeometryRaisesBadConfig : Prop :=
  ∀ (s : State) (i : Instr) (c : BitVec 3), commandCode i = some c → i ≠ .nop → s.dec.pos = .command →
    s.status.fault = 0 → (s.cfg.w = 0 ∨ (isDecodeCode c = true ∧ s.cfg.h = 0)) →
    exec i s = .next { s with
      cmd := { s.cmd with op := c }
      status := { s.status with
        fault := 5
        fip := if isDecodeCode c then s.dec.ip else 0
        fx := if isDecodeCode c then s.dec.x else 0
        fy := if isDecodeCode c then s.dec.y else 0 } }

/-- 45_host_commands.md R256, 10_state.md R23. What the host's register and stream accesses do: each writes its own
register or stream and nothing else, and a write to CFG.BPP has no effect. -/
def Obligations.HostAccessesWriteTheirOwnPlace : Prop :=
  ∀ (s : State),
    (∀ v, hostAccess (.writeW v) s = .next { s with cfg := { s.cfg with w := v } }) ∧
    (∀ v, hostAccess (.writeH v) s = .next { s with cfg := { s.cfg with h := v } }) ∧
    (∀ v, hostAccess (.writeBpp v) s = .next s ∧ hostRead .cfgBpp s = 2) ∧
    (∀ v, hostAccess (.writeArg v) s = .next { s with cmd := { s.cmd with arg := v } }) ∧
    (∀ v, hostAccess (.writeIp v) s = .next { s with dec := { s.dec with ip := v } }) ∧
    (∀ v, hostAccess (.replaceIn v) s = .next { s with inp := v }) ∧
    (∀ v, hostAccess (.extendIn v) s = .next { s with inp := s.inp ++ v }) ∧
    (∀ v, hostAccess (.truncateIn v) s = .next { s with inp := s.inp.take v }) ∧
    hostAccess .clearOut s = .next { s with out := [] }

/-- 20_memory.md R61, R63; 45_host_commands.md R256. A pixel the host writes into LCUR, LPREV or FB is the pixel the
block reads there afterwards, every other pixel of the space reads as before, and nothing outside the space changes. -/
def Obligations.HostPixelWritesReadBack : Prop :=
  ∀ (s : State) (p : Pixel),
    (∀ i, i < 65535 → ∃ t, hostAccess (.writeLcur i p) s = .next t ∧ t.lcurPixel i = p ∧
      (∀ k, k ≠ i → t.lcurPixel k = s.lcurPixel k) ∧ { t with lcur := s.lcur } = s) ∧
    (∀ i, i < 65535 → ∃ t, hostAccess (.writeLprev i p) s = .next t ∧ t.lprevPixel i = p ∧
      (∀ k, k ≠ i → t.lprevPixel k = s.lprevPixel k) ∧ { t with lprev := s.lprev } = s) ∧
    (∀ r x, r < s.cfg.h.toNat → x < s.cfg.w.toNat → ∃ t, hostAccess (.writeFb r x p) s = .next t ∧
      t.fbPixel r x = some p ∧
      (∀ r' x', x' < s.cfg.w.toNat → ¬ (r' = r ∧ x' = x) → t.fbPixel r' x' = s.fbPixel r' x') ∧
      { t with fb := s.fb } = s)

/-! ### Memories and streams -/

/-- 20_memory.md R64. The byte view of FB: pixel (r, x) occupies the two bytes at 2*(r*W + x), `b0` first; MemRead returns
the bytes it names and MemWrite writes them; changing CFG.W re-reads the same bytes under the new pitch. -/
def Obligations.FrameBufferByteView : Prop :=
  (∀ (m : Memory) (a : Nat) (bytes : List Byte), memRead (memWrite m a bytes) a bytes.length = bytes.map some ∧
    (∀ k, k < a ∨ a + bytes.length ≤ k → (memWrite m a bytes).read k = m.read k)) ∧
  (∀ (m : Memory) (a n k : Nat), k < n → (memRead m a n)[k]? = some (m.read (a + k))) ∧
  (∀ (s : State) (r x : Nat) (p : Pixel),
    (s.fbWrite r x p).fb.read (2 * (r * s.cfg.w.toNat + x)) = some p.b0 ∧
    (s.fbWrite r x p).fb.read (2 * (r * s.cfg.w.toNat + x) + 1) = some p.b1 ∧
    (∀ k, k < 2 * (r * s.cfg.w.toNat + x) ∨ 2 * (r * s.cfg.w.toNat + x) + 2 ≤ k →
      (s.fbWrite r x p).fb.read k = s.fb.read k)) ∧
  (∀ (s : State) (r x : Nat) (p : Pixel), s.fbPixel r x = some p ↔
    memRead s.fb (2 * (r * s.cfg.w.toNat + x)) 2 = [some p.b0, some p.b1]) ∧
  (∀ (s t : State) (v : BitVec 16) (r x : Nat), hostAccess (.writeW v) s = .next t →
    t.fb = s.fb ∧ t.fbPixel r x = readPixel s.fb (2 * (r * v.toNat + x)))

/-- The model's own invariant (log 4): every step keeps the canonical form of LCUR, LPREV and FB. -/
def Obligations.StepsKeepMemoriesCanonical : Prop :=
  ∀ (s t : State), s.memoriesCanonical = true → step s = .next t → t.memoriesCanonical = true

/-- The invariants stated in this file hold after RESET. -/
def Obligations.ResetStateIsSound : Prop :=
  State.reset.memoriesCanonical = true ∧ State.reset.decodeSound ∧ State.reset.countsAgree ∧ State.reset.faultLegal

/-- 20_memory.md R66, R67. In8 raises TruncatedStream at the end of IN, reading nothing and leaving X.ip; otherwise it
reads the byte at X.ip and advances X.ip by 1. In16 and InPix are two byte reads: if only the first succeeds, X.ip has
advanced by 1 and the partial value is discarded. -/
def Obligations.StreamReadsAreByteByByte : Prop :=
  ∀ (s : State),
    (∀ k, s.inp.length ≤ s.dec.ip → in8 s k = .ended (raise true .truncatedStream s)) ∧
    (∀ k (h : s.dec.ip < s.inp.length),
      in8 s k = k s.inp[s.dec.ip] { s with dec := { s.dec with ip := s.dec.ip + 1 } }) ∧
    (∀ k b0 b1 rest, s.inp.drop s.dec.ip = b0 :: b1 :: rest →
      in16 s k = k (BitVec.ofNat 16 (b0.toNat + 256 * b1.toNat)) { s with dec := { s.dec with ip := s.dec.ip + 2 } }) ∧
    (∀ k b0 b1 rest, s.inp.drop s.dec.ip = b0 :: b1 :: rest →
      inPix s k = k ⟨b0, b1⟩ { s with dec := { s.dec with ip := s.dec.ip + 2 } }) ∧
    (∀ k b0, s.inp.drop s.dec.ip = [b0] →
      in16 s k = .ended (raise true .truncatedStream { s with dec := { s.dec with ip := s.dec.ip + 1 } })) ∧
    (∀ k b0, s.inp.drop s.dec.ip = [b0] →
      inPix s k = .ended (raise true .truncatedStream { s with dec := { s.dec with ip := s.dec.ip + 1 } })) ∧
    (∀ k, s.inp.length ≤ s.dec.ip →
      in16 s k = .ended (raise true .truncatedStream s)) ∧
    (∀ k, s.inp.length ≤ s.dec.ip →
      inPix s k = .ended (raise true .truncatedStream s))

/-! ### Encoding -/

/-- 30_encoding.md R91, R100, R101. The two dialects read a count byte with opposite signs, to the same count; the byte
0x80 gives 128. That a byte from 0x80 on stands for `byte - 256` is two's complement, which the spec marks as general
knowledge (93_implementation_defined.md G1, log 9, PRESUMED). -/
def Obligations.SignConventionsAreOpposite : Prop :=
  ∀ (b skip : Byte) (rest : List Byte),
    (b.toNat < 128 →
      decode .brunPacket (b :: rest) = .ok (.bRepeat b.toNat, rest) ∧
      decode .lcPacket (skip :: b :: rest) = .ok (.lCopy skip b.toNat, rest)) ∧
    (128 ≤ b.toNat →
      decode .brunPacket (b :: rest) = .ok (.bCopy (256 - b.toNat), rest) ∧
      decode .lcPacket (skip :: b :: rest) = .ok (.lRepeat skip (256 - b.toNat), rest))

/-- Decoding the encoding of a well-formed instruction, at a position that admits it, gives the instruction back, with
every operand at every value, and leaves the bytes after it (30_encoding.md R91, R105). -/
def Obligations.DecodeInvertsEncode : Prop :=
  ∀ (p : Position) (i : Instr) (rest : List Byte), i.wellFormedAt p = true → decode p (encode i ++ rest) = .ok (i, rest)

/-- Every header has one meaning at its position, and no bit of it is dropped: what decodes is a well-formed instruction
whose encoding is the bytes read. What does not decode is a header cut short, or at the command position a byte that is
no 3-bit code: no stream encoding is illegal (30_encoding.md R108, R110). -/
def Obligations.EncodeInvertsDecode : Prop :=
  (∀ (p : Position) (bytes rest : List Byte) (i : Instr), decode p bytes = .ok (i, rest) →
    bytes = encode i ++ rest ∧ i.wellFormedAt p = true) ∧
  (∀ (p : Position) (bytes : List Byte), p ≠ .command → 2 ≤ bytes.length → ∃ i rest, decode p bytes = .ok (i, rest)) ∧
  (∀ (bytes : List Byte) (b : Byte), decode .command (b :: bytes) = .error .notACommandCode ↔ 8 ≤ b.toNat)

/-- Words written out from 30_encoding.md R91 and 45_host_commands.md R251 decode to their instructions. -/
def Obligations.WrittenOutWordsDecode : Prop :=
  decode .rowHead [0x03] = .ok (.rowhdr 3, []) ∧
  decode .brunPacket [0x03, 0xBB, 0x00] = .ok (.bRepeat 3, [0xBB, 0x00]) ∧
  decode .brunPacket [0xFC] = .ok (.bCopy 4, []) ∧
  decode .frameHead [0x01, 0x02] = .ok (.lines 513, []) ∧
  decode .lineHead [0xFE, 0xFF] = .ok (.lskip 2, []) ∧
  decode .lineHead [0x01, 0x00] = .ok (.pkts 1, []) ∧
  decode .pktsWord [0xFF, 0xFF] = .ok (.pkts 65535, []) ∧
  decode .lcPacket [0xFF, 0x00] = .ok (.lCopy 255 0, []) ∧
  decode .lcPacket [0x01, 0xFD] = .ok (.lRepeat 1 3, []) ∧
  decode .command [0x04] = .ok (.decBrunRow, [])

/-- A table word placed by `withFetchWord` is what the next step fetches, as `decodeTableWord` reads it (log 3): a command
from the state without it, an item from the state with X.ip past its header. -/
def Obligations.PlacedTableWordIsFetched : Prop :=
  ∀ (s : State) (nbits w : Nat) (i : Instr), 0 < nbits → decodeTableWord nbits w = some i →
    (tablePosition nbits w = .command → fetch (s.withFetchWord nbits w) = .command i (s.setPos .command)) ∧
    (tablePosition nbits w ≠ .command → fetch (s.withFetchWord nbits w) =
      .item i ((s.withFetchWord nbits w).setIp (s.dec.ip + (encode i).length)))

/-! ### One step -/

/-- While a decode is in progress, a step runs the item that the bytes at X.ip decode to at the position reached: exec of
it, from the state with X.ip past its header, and then the sequencing of the item loop. -/
def Obligations.StepRunsTheDecodedItem : Prop :=
  ∀ (s : State) (i : Instr) (rest : List Byte), s.dec.pos ≠ .command →
    decode s.dec.pos (s.inp.drop s.dec.ip) = .ok (i, rest) →
    step s = mapNext (afterItem i) (exec i { s with dec := { s.dec with ip := s.dec.ip + (encode i).length } })

/-- Between commands a step takes the host's next action (45_host_commands.md R250): a write of CMD.OP runs exec of the
command with that code, any other access is done; with no action left the state stays as it is (60_exceptions.md R321). -/
def Obligations.StepTakesTheHostsNextAction : Prop :=
  ∀ (s : State), s.dec.pos = .command →
    (∀ code rest, s.host = .writeOp code :: rest →
      ∃ i, commandCode i = some code ∧ step s = exec i { s with host := rest }) ∧
    (∀ a rest, s.host = .access a :: rest → step s = hostAccess a { s with host := rest }) ∧
    (s.host = [] → step s = .next s)

/-- 60_exceptions.md R302. A stream that ends inside an item's header: TruncatedStream, X.ip at the end of IN (or where
the host put it beyond), FIP and FY as X.ip and X.y stand; in an LC packet whose skip byte was there, X.x and FX include
the skip (44_rle_decoder_lc.md R224). FB is unchanged and the decode has ended. -/
def Obligations.CutHeaderRaisesTruncatedStream : Prop :=
  ∀ (s : State) (e : DecodeError), s.dec.pos ≠ .command → decode s.dec.pos (s.inp.drop s.dec.ip) = .error e →
    (s.dec.pos = .lcPacket → s.dec.x.toNat ≤ s.cfg.w.toNat) →
    ∃ t, step s = .next t ∧ t.status.fault = 1 ∧ t.dec.ip = max s.dec.ip s.inp.length ∧
      t.status.fip = t.dec.ip ∧ t.status.fx = t.dec.x ∧ t.status.fy = s.dec.y ∧
      t.dec.x.toNat = s.dec.x.toNat +
        (match s.dec.pos, s.inp.drop s.dec.ip with
          | .lcPacket, skip :: _ => skip.toNat
          | _, _ => 0) ∧
      { t with status := s.status, dec := s.dec } = s ∧ t.dec.pos = .command ∧ t.dec.y = s.dec.y ∧
      t.dec.npk = s.dec.npk ∧ t.dec.lines = s.dec.lines ∧ t.dec.lc = s.dec.lc

/-! ### The stream items -/

/-- 43_rle_decoder_brun.md R201. ROWHDR, its byte read: X.npk takes the count, X.x restarts; with no byte left the read
raises TruncatedStream. -/
def Obligations.RowhdrLoadsPacketCount : Prop :=
  (∀ (s : State) (k : Byte), exec (.rowhdr k) s =
    .next { s with dec := { s.dec with npk := BitVec.ofNat 16 k.toNat, x := 0 } }) ∧
  (∀ (s : State), s.dec.pos = .rowHead → s.inp.length ≤ s.dec.ip →
    step s = .next (raise true .truncatedStream s))

/-- 44_rle_decoder_lc.md R221. LINES, its word read: X.lines takes the count, X.y restarts; a count of 0 ends the frame
at once with FB untouched; a missing byte raises TruncatedStream. -/
def Obligations.LinesLoadsLineCount : Prop :=
  (∀ (s : State) (m : BitVec 16), exec (.lines m) s = .next { s with dec := { s.dec with lines := m, y := 0 } }) ∧
  (∀ (s : State) (rest : List Byte), s.dec.pos = .frameHead → s.inp.drop s.dec.ip = 0 :: 0 :: rest →
    ∃ t, step s = .next t ∧ t.dec.pos = .command ∧ t.status = s.status ∧ t.fb = s.fb) ∧
  (∀ (s : State), s.dec.pos = .frameHead → s.inp.length ≤ s.dec.ip + 1 →
    ∃ t, step s = .next t ∧ t.status.fault = 1 ∧ t.fb = s.fb)

/-- 44_rle_decoder_lc.md R222. LSKIP moves X.y on by its rows and touches nothing else; the word after it is read as PKTS
whatever its value. -/
def Obligations.LskipMovesTheRow : Prop :=
  ∀ (s : State) (rows : Nat), 1 ≤ rows → rows ≤ 32768 → s.dec.y.toNat ≤ 65535 →
    ∃ t, exec (.lskip rows) s = .next t ∧ t.dec.y.toNat = s.dec.y.toNat + rows ∧
      { t with dec := { t.dec with y := s.dec.y } } = s ∧
      (s.dec.pos = .lineHead → (afterItem (.lskip rows) t).dec.pos = .pktsWord ∧
        ∀ b0 b1 bytes, decode .pktsWord (b0 :: b1 :: bytes) = .ok (.pkts (u16le b0 b1), bytes))

/-- 44_rle_decoder_lc.md R226. The line start: LineOverrun if X.y >= H, with no packet byte read; otherwise X.x restarts
and X.npk takes the count. The check is made for a count of 0 too. -/
def Obligations.PktsStartsTheLine : Prop :=
  ∀ (s : State) (k : BitVec 16),
    (s.cfg.h.toNat ≤ s.dec.y.toNat → exec (.pkts k) s = .next (raise true .lineOverrun s)) ∧
    (s.dec.y.toNat < s.cfg.h.toNat → exec (.pkts k) s = .next { s with dec := { s.dec with x := 0, npk := k } })

/-- 43_rle_decoder_brun.md R202. B.REPEAT, its count byte read, when it fits the row and its pixel is there: the pixel is
read and written to `n` columns of row H - 1 - X.y from X.x on, X.ip moves past it, X.x moves by `n`; nothing else
changes. With n = 0 nothing is written. -/
def Obligations.BrunRepeatPaintsTheRun : Prop :=
  ∀ (s : State) (n : Nat) (p : Pixel) (rest : List Byte),
    s.dec.y.toNat < s.cfg.h.toNat → s.dec.x.toNat + n ≤ s.cfg.w.toNat → s.inp.drop s.dec.ip = p.b0 :: p.b1 :: rest →
    exec (.bRepeat n) s = .next { s with
      fb := writePixels s.fb (2 * ((s.cfg.h.toNat - 1 - s.dec.y.toNat) * s.cfg.w.toNat + s.dec.x.toNat))
        (List.replicate n p)
      dec := { s.dec with ip := s.dec.ip + 2, x := BitVec.ofNat 17 (s.dec.x.toNat + n) } }

/-- 43_rle_decoder_brun.md R203. B.COPY, its count byte read, when it fits the row and its pixels are there. -/
def Obligations.BrunCopyPaintsThePixels : Prop :=
  ∀ (s : State) (ps : List Pixel) (rest : List Byte),
    s.dec.y.toNat < s.cfg.h.toNat → s.dec.x.toNat + ps.length ≤ s.cfg.w.toNat →
    s.inp.drop s.dec.ip = pixelBytes ps ++ rest →
    exec (.bCopy ps.length) s = .next { s with
      fb := writePixels s.fb (2 * ((s.cfg.h.toNat - 1 - s.dec.y.toNat) * s.cfg.w.toNat + s.dec.x.toNat)) ps
      dec := { s.dec with ip := s.dec.ip + 2 * ps.length, x := BitVec.ofNat 17 (s.dec.x.toNat + ps.length) } }

/-- 44_rle_decoder_lc.md R224, R225. L.COPY, both header bytes read: X.x first moves by the skip, whose pixels are not
touched; then as a COPY. With no pixels it is a pure skip. -/
def Obligations.LcCopySkipsThenPaints : Prop :=
  ∀ (s : State) (skip : Byte) (ps : List Pixel) (rest : List Byte),
    s.dec.y.toNat < s.cfg.h.toNat → s.dec.x.toNat + skip.toNat + ps.length ≤ s.cfg.w.toNat →
    s.inp.drop s.dec.ip = pixelBytes ps ++ rest →
    exec (.lCopy skip ps.length) s = .next { s with
      fb := writePixels s.fb
        (2 * ((s.cfg.h.toNat - 1 - s.dec.y.toNat) * s.cfg.w.toNat + (s.dec.x.toNat + skip.toNat))) ps
      dec := { s.dec with
        ip := s.dec.ip + 2 * ps.length
        x := BitVec.ofNat 17 (s.dec.x.toNat + skip.toNat + ps.length) } }

/-- 44_rle_decoder_lc.md R224, R227. L.REPEAT, both header bytes read: the skip, then as a REPEAT. -/
def Obligations.LcRepeatSkipsThenPaints : Prop :=
  ∀ (s : State) (skip : Byte) (n : Nat) (p : Pixel) (rest : List Byte),
    s.dec.y.toNat < s.cfg.h.toNat → s.dec.x.toNat + skip.toNat + n ≤ s.cfg.w.toNat →
    s.inp.drop s.dec.ip = p.b0 :: p.b1 :: rest →
    exec (.lRepeat skip n) s = .next { s with
      fb := writePixels s.fb
        (2 * ((s.cfg.h.toNat - 1 - s.dec.y.toNat) * s.cfg.w.toNat + (s.dec.x.toNat + skip.toNat))) (List.replicate n p)
      dec := { s.dec with ip := s.dec.ip + 2, x := BitVec.ofNat 17 (s.dec.x.toNat + skip.toNat + n) } }

/-- What painting means at the pixels of FB (20_memory.md R63, R64): `n` pixels written from column `x` of row `r` on,
inside the row, are the pixels of those columns; every byte outside them is as before. -/
def Obligations.PaintedPixelsReadBack : Prop :=
  ∀ (s : State) (r x : Nat) (ps : List Pixel), x + ps.length ≤ s.cfg.w.toNat →
    (∀ k (h : k < ps.length),
      State.fbPixel { s with fb := writePixels s.fb (2 * (r * s.cfg.w.toNat + x)) ps } r (x + k) = some ps[k]) ∧
    (∀ r' x', x' < s.cfg.w.toNat → (r' ≠ r ∨ x' < x ∨ x + ps.length ≤ x') →
      State.fbPixel { s with fb := writePixels s.fb (2 * (r * s.cfg.w.toNat + x)) ps } r' x' = s.fbPixel r' x') ∧
    (∀ a, a < 2 * (r * s.cfg.w.toNat + x) ∨ 2 * (r * s.cfg.w.toNat + x + ps.length) ≤ a →
      (writePixels s.fb (2 * (r * s.cfg.w.toNat + x)) ps).read a = s.fb.read a)

/-- 60_exceptions.md R303. A packet that would place pixels beyond column W - 1 raises RowOverrun before any payload byte
is read and before any pixel is written, also with n = 0 after a skip beyond W; FIP, FX (with the skip), FY as they stand. -/
def Obligations.OverrunningPacketRaisesRowOverrun : Prop :=
  ∀ (s : State) (n : Nat), s.dec.x.toNat ≤ s.cfg.w.toNat →
    (s.cfg.w.toNat < s.dec.x.toNat + n →
      exec (.bRepeat n) s = .next (raise true .rowOverrun s) ∧ exec (.bCopy n) s = .next (raise true .rowOverrun s)) ∧
    (∀ skip : Byte, s.cfg.w.toNat < s.dec.x.toNat + skip.toNat + n →
      exec (.lCopy skip n) s = .next (raise true .rowOverrun
        { s with dec := { s.dec with x := BitVec.ofNat 17 (s.dec.x.toNat + skip.toNat) } }) ∧
      exec (.lRepeat skip n) s = .next (raise true .rowOverrun
        { s with dec := { s.dec with x := BitVec.ofNat 17 (s.dec.x.toNat + skip.toNat) } }))

/-- 43_rle_decoder_brun.md R203, 44_rle_decoder_lc.md R225, 60_exceptions.md R302. A payload cut short by the end of the
stream. A COPY: the whole pixels read stay written, a half-read pixel is discarded, X.x keeps its value from before the
packet (in LC, with the skip). A REPEAT: nothing has been written. X.ip is at the end of IN. -/
def Obligations.CutPayloadKeepsWholePixels : Prop :=
  ∀ (s : State) (n : Nat) (ps : List Pixel) (tail : List Byte), s.dec.y.toNat < s.cfg.h.toNat →
    tail.length ≤ 1 → s.inp.drop s.dec.ip = pixelBytes ps ++ tail →
    (ps.length < n → s.dec.x.toNat + n ≤ s.cfg.w.toNat →
      exec (.bCopy n) s = .next (raise true .truncatedStream { s with
        fb := writePixels s.fb (2 * ((s.cfg.h.toNat - 1 - s.dec.y.toNat) * s.cfg.w.toNat + s.dec.x.toNat)) ps
        dec := { s.dec with ip := s.dec.ip + 2 * ps.length + tail.length } })) ∧
    (∀ skip : Byte, ps.length < n → s.dec.x.toNat + skip.toNat + n ≤ s.cfg.w.toNat →
      exec (.lCopy skip n) s = .next (raise true .truncatedStream { s with
        fb := writePixels s.fb
          (2 * ((s.cfg.h.toNat - 1 - s.dec.y.toNat) * s.cfg.w.toNat + (s.dec.x.toNat + skip.toNat))) ps
        dec := { s.dec with
          ip := s.dec.ip + 2 * ps.length + tail.length
          x := BitVec.ofNat 17 (s.dec.x.toNat + skip.toNat) } })) ∧
    (ps = [] → s.dec.x.toNat + n ≤ s.cfg.w.toNat →
      exec (.bRepeat n) s = .next (raise true .truncatedStream
        { s with dec := { s.dec with ip := s.dec.ip + tail.length } })) ∧
    (∀ skip : Byte, ps = [] → s.dec.x.toNat + skip.toNat + n ≤ s.cfg.w.toNat →
      exec (.lRepeat skip n) s = .next (raise true .truncatedStream { s with dec := { s.dec with
        ip := s.dec.ip + tail.length
        x := BitVec.ofNat 17 (s.dec.x.toNat + skip.toNat) } }))

/-! ### All commands -/

/-- 45_host_commands.md R254. Every command, from every state, ends in a next state: it completes, is refused or raises;
it never stops the machine. -/
def Obligations.EveryCommandEndsInANextState : Prop :=
  ∀ (i : Instr) (c : BitVec 3) (s : State), commandCode i = some c → Proceeds (exec i s)

/-- 45_host_commands.md R258, 20_memory.md R69. The units share no working register: an encode or diff command changes no
X.*, FB or IN; a decode command changes no E.*, D.*, RES.*, STATUS.NPK, NSC or CHANGED, LCUR, LPREV or OUT. No command
writes CFG.*, CMD.ARG, the line buffers or IN, and DIFF writes neither RES.pk, STATUS.NPK nor OUT. -/
def Obligations.UnitsShareNoWorkingRegister : Prop :=
  ∀ (i : Instr) (c : BitVec 3) (s t : State), commandCode i = some c → s.dec.pos = .command → exec i s = .next t →
    (t.cfg = s.cfg ∧ t.cmd.arg = s.cmd.arg ∧ t.cmd.op = c ∧ t.lcur = s.lcur ∧ t.lprev = s.lprev ∧ t.inp = s.inp ∧
      t.host = s.host) ∧
    (isDecodeCode c = false → t.dec = s.dec ∧ t.fb = s.fb) ∧
    (isDecodeCode c = true → t.enc = s.enc ∧ t.dif = s.dif ∧ t.res = s.res ∧ t.status.npk = s.status.npk ∧
      t.status.nsc = s.status.nsc ∧ t.status.changed = s.status.changed ∧ t.out = s.out ∧ t.freeCtr = s.freeCtr) ∧
    (i = .diff → t.res.pk = s.res.pk ∧ t.status.npk = s.status.npk ∧ t.out = s.out ∧ t.enc = s.enc) ∧
    (i = .encKey → t.res.sc = s.res.sc ∧ t.status.nsc = s.status.nsc ∧ t.status.changed = s.status.changed ∧
      t.dif = s.dif)

/-- 20_memory.md R69, 44_rle_decoder_lc.md R232: no instruction reads FB. With other contents `m` of FB every instruction
takes the same outcome and the same next state but for FB; and at every address of FB either both runs keep the byte they
had, or both hold the same byte, so nothing written depends on what FB held. -/
def Obligations.NoInstructionReadsTheFrameBuffer : Prop :=
  ∀ (i : Instr) (s : State) (m : Memory),
    match exec i s, exec i { s with fb := m } with
    | .next t, .next t' => { t' with fb := t.fb } = t ∧
      ∀ a, (t.fb.read a = s.fb.read a ∧ t'.fb.read a = m.read a) ∨ (∃ b, t.fb.read a = some b ∧ t'.fb.read a = some b)
    | .fault r, .fault r' => r = r'
    | .refused r, .refused r' => r = r'
    | _, _ => False

/-- 20_memory.md R63, R66; 10_state.md R46. No instruction writes outside the W*H pixels of the frame: every byte of FB
from 2*W*H on is as before. None moves X.ip back, none moves it beyond the end of IN, and none writes IN. -/
def Obligations.InstructionsStayInsideFrameAndStream : Prop :=
  ∀ (i : Instr) (s t : State), exec i s = .next t →
    (∀ a, 2 * (s.cfg.w.toNat * s.cfg.h.toNat) ≤ a → t.fb.read a = s.fb.read a) ∧
    s.dec.ip ≤ t.dec.ip ∧ (t.dec.ip = s.dec.ip ∨ t.dec.ip ≤ s.inp.length) ∧ t.inp = s.inp

/-- 60_exceptions.md R304, R307. A row or line command whose row is not in the frame: DEC_BRUN_ROW raises LineOverrun
before it reads any byte, also from an empty IN; DEC_LC_LINE reads PKTS first, so it raises TruncatedStream if the word is
not there and LineOverrun just past it if it is. FIP and FY are X.ip and CMD.ARG, and FB is untouched. X.x, and FX with it, is
0 whatever it was before: both commands load it at their start (45_host_commands.md R253, 10_state.md R56). That R304's "the
value left by the previous line" speaks of DEC_LC_FRAME is DEDUCED (log 7). -/
def Obligations.RowOutsideTheFrameRaisesLineOverrun : Prop :=
  ∀ (s : State), s.status.fault = 0 → s.cfg.w ≠ 0 → s.cfg.h ≠ 0 → s.cfg.h.toNat ≤ s.cmd.arg.toNat →
    exec .decBrunRow s = .next (raise true .lineOverrun { s with
      cmd := { s.cmd with op := 4 }
      dec := { s.dec with
        x := 0
        y := BitVec.ofNat 17 s.cmd.arg.toNat
        lc := false } }) ∧
    (∀ b0 b1 rest, s.inp.drop s.dec.ip = b0 :: b1 :: rest →
      exec .decLcLine s = .next (raise true .lineOverrun { s with
        cmd := { s.cmd with op := 6 }
        dec := { s.dec with
          ip := s.dec.ip + 2
          x := 0
          y := BitVec.ofNat 17 s.cmd.arg.toNat
          lc := true } })) ∧
    (s.inp.length ≤ s.dec.ip + 1 →
      exec .decLcLine s = .next (raise true .truncatedStream { s with
        cmd := { s.cmd with op := 6 }
        dec := { s.dec with
          ip := max s.dec.ip s.inp.length
          x := 0
          y := BitVec.ofNat 17 s.cmd.arg.toNat
          lc := true } }))

/-- 60_exceptions.md R310, R311. When a command faults, a decode command's record is where it stopped (X.ip, X.x, X.y of
the state left), any other command's is 0, 0, 0; OUT is as before, so it never holds a partial record. -/
def Obligations.FaultRecordsWhereItStopped : Prop :=
  ∀ (i : Instr) (c : BitVec 3) (s t : State), commandCode i = some c → s.status.fault = 0 → exec i s = .next t →
    t.status.fault ≠ 0 →
    t.out = s.out ∧
    (isDecodeCode c = true → t.status.fip = t.dec.ip ∧ t.status.fx = t.dec.x ∧ t.status.fy = t.dec.y) ∧
    (isDecodeCode c = false → t.status.fip = 0 ∧ t.status.fx = 0 ∧ t.status.fy = 0)

/-- 60_exceptions.md R308: a command that starts with no fault recorded ends with none or with one of its own row of the
table. -/
def Obligations.CommandsRaiseOnlyTheirFaults : Prop :=
  ∀ (i : Instr) (c : BitVec 3) (s t : State), commandCode i = some c → s.status.fault = 0 → exec i s = .next t →
    t.status.fault = 0 ∨ ∃ f, mayRaise i f = true ∧ t.status.fault = f.code

/-- 60_exceptions.md R305, its bounds: ENC_KEY never overflows its packet count on a row of at most 511 pixels, and
ENC_DELTA never on a line of at most 49151; a row of 512 and a line of 49152 that do overflow exist, with 256 and 32768
packets counted and OUT untouched. -/
def Obligations.PacketCountOverflowNeedsAWideLine : Prop :=
  (∀ (s : State), s.status.fault = 0 → s.cfg.w ≠ 0 → s.cfg.w.toNat ≤ 511 → ProceedsClean (exec .encKey s)) ∧
  (∀ (s : State), s.status.fault = 0 → s.cfg.w ≠ 0 → s.cfg.w.toNat ≤ 49151 → ProceedsClean (exec .encDelta s)) ∧
  (∃ s t : State, s.status.fault = 0 ∧ s.cfg.w = 512 ∧ exec .encKey s = .next t ∧ t.status.fault = 4 ∧
    t.status.npk = 256 ∧ t.out = s.out) ∧
  (∃ s t : State, s.status.fault = 0 ∧ s.cfg.w = 49152 ∧ exec .encDelta s = .next t ∧ t.status.fault = 4 ∧
    t.status.npk = 32768 ∧ t.out = s.out)

/-! ### The encode commands -/

/-- 40_rle_encoder_key.md R141. ENC_KEY: RES.pk and STATUS.NPK are the packets of the line and their number; the row
record is appended to OUT if the number fits a byte, otherwise PacketCountOverflow and OUT untouched. Pixels that
nothing has written are the free value of draw `freeCtr + 1` (log 4, log 5), whatever that is. That E.* keep what the run
leaves in them, E.skip and E.first as they were, is log 15 (DEDUCED). -/
def Obligations.EncKeyEncodesTheLine : Prop :=
  ∀ (s : State) (run : Enc × List Packet), s.status.fault = 0 → s.cfg.w ≠ 0 →
    encodeRun (linePixel (s.freeCtr + 1) .current s.lcur) s.enc 0 s.cfg.w.toNat 2 = run →
    (run.2.length ≤ 255 → exec .encKey s = .next { s with
      cmd := { s.cmd with op := 1 }
      enc := run.1
      res := { s.res with pk := run.2.map .brun }
      status := { s.status with npk := BitVec.ofNat 16 run.2.length }
      out := s.out ++ (BitVec.ofNat 8 run.2.length :: run.2.flatMap serBrun)
      freeCtr := s.freeCtr + 1 }) ∧
    (255 < run.2.length → exec .encKey s = .next (raise false .packetCountOverflow { s with
      cmd := { s.cmd with op := 1 }
      enc := run.1
      res := { s.res with pk := run.2.map .brun }
      status := { s.status with npk := BitVec.ofNat 16 run.2.length }
      freeCtr := s.freeCtr + 1 }))

/-- 41_line_differ.md R167. DIFF: RES.sc, STATUS.NSC and STATUS.CHANGED report the sub-chunks of the two lines, and nothing
else changes but D.* and the model's counter. That D.* keep what the walk of R162 to R165 leaves in them is log 15 (DEDUCED);
pixels that nothing has written are the free value of draw `freeCtr + 1` (log 4, log 5). -/
def Obligations.DiffReportsTheSubChunks : Prop :=
  ∀ (s : State) (run : Dif × List SubChunk), s.status.fault = 0 → s.cfg.w ≠ 0 →
    differ (linePixel (s.freeCtr + 1) .current s.lcur) (linePixel (s.freeCtr + 1) .previous s.lprev) s.cfg.w.toNat = run →
    exec .diff s = .next { s with
      cmd := { s.cmd with op := 2 }
      dif := run.1
      res := { s.res with sc := run.2 }
      status := { s.status with nsc := BitVec.ofNat 16 run.2.length, changed := decide (0 < run.2.length) }
      freeCtr := s.freeCtr + 1 }

/-- 42_rle_encoder_delta.md R187. ENC_DELTA: the differ's results, then the LC packets of the line; an unchanged line
appends nothing; the line record is appended if its packet count leaves bit 15 of PKTS clear, otherwise
PacketCountOverflow and OUT untouched. The values left in E.* and D.* (E.la = 1 also for an unchanged line, E.skip not
cleared after attachment) rest on 10_state.md R56, R182 and R162 to R165 as log 15 reads them (DEDUCED); pixels that nothing
has written are the free value of draw `freeCtr + 1` (log 4, log 5). -/
def Obligations.EncDeltaEncodesTheChanges : Prop :=
  ∀ (s : State) (d : Dif × List SubChunk) (line : Enc × List LcPacket), s.status.fault = 0 → s.cfg.w ≠ 0 →
    differ (linePixel (s.freeCtr + 1) .current s.lcur) (linePixel (s.freeCtr + 1) .previous s.lprev) s.cfg.w.toNat = d →
    deltaLine (linePixel (s.freeCtr + 1) .current s.lcur) { s.enc with la := 1 } d.2 = line →
    ∃ u : State, u = { s with
      cmd := { s.cmd with op := 3 }
      enc := line.1
      dif := d.1
      res := { pk := line.2.map .lc, sc := d.2 }
      status := { s.status with
        npk := BitVec.ofNat 16 line.2.length
        nsc := BitVec.ofNat 16 d.2.length
        changed := decide (0 < d.2.length) }
      freeCtr := s.freeCtr + 1 } ∧
    (d.2 = [] → exec .encDelta s = .next u ∧ line.2 = []) ∧
    (d.2 ≠ [] → line.2.length ≤ 32767 → exec .encDelta s = .next { u with
      out := s.out ++ (u16bytes (BitVec.ofNat 16 line.2.length) ++ line.2.flatMap serLc) }) ∧
    (32767 < line.2.length → exec .encDelta s = .next (raise false .packetCountOverflow u))

/-! ### The decode commands on every legal payload -/

/-- 43_rle_decoder_brun.md R205. DEC_BRUN_ROW on any legal row record in IN at X.ip: the record's pixels are painted from
column 0 of physical row H - 1 - CMD.ARG on, a short row leaves the rest, X.ip ends just past the record, and nothing else
changes. -/
def Obligations.DecBrunRowPaintsEveryLegalRow : Prop :=
  ∀ (s : State) (pks : List Packet) (rest : List Byte), s.status.fault = 0 → s.cmd.arg.toNat < s.cfg.h.toNat →
    s.cfg.w ≠ 0 → legalRow s.cfg.w.toNat pks → s.inp.drop s.dec.ip = brunRecord pks ++ rest →
    exec .decBrunRow s = .next { s with
      cmd := { s.cmd with op := 4 }
      fb := writePixels s.fb (fbAddr s.cfg.w.toNat (s.cfg.h.toNat - 1 - s.cmd.arg.toNat) 0) (expandAll pks)
      dec := { s.dec with
        ip := s.dec.ip + (brunRecord pks).length
        x := BitVec.ofNat 17 (expandAll pks).length
        y := BitVec.ofNat 17 s.cmd.arg.toNat
        npk := 0
        lc := false } }

/-- 43_rle_decoder_brun.md R206. DEC_BRUN_FRAME on any payload of H legal row records: the first record lands in the bottom
row of the image, the last in the top row. -/
def Obligations.DecBrunFramePaintsEveryLegalFrame : Prop :=
  ∀ (s : State) (rows : List (List Packet)) (rest : List Byte), s.status.fault = 0 → s.cfg.w ≠ 0 → s.cfg.h ≠ 0 →
    rows.length = s.cfg.h.toNat → (∀ pks ∈ rows, legalRow s.cfg.w.toNat pks) →
    s.inp.drop s.dec.ip = rows.flatMap brunRecord ++ rest →
    exec .decBrunFrame s = .next { s with
      cmd := { s.cmd with op := 5 }
      fb := paintRows s.cfg.w.toNat s.cfg.h.toNat s.fb 0 rows
      dec := { s.dec with
        ip := s.dec.ip + (rows.flatMap brunRecord).length
        x := BitVec.ofNat 17 (expandAll (rows.getLast?.getD [])).length
        y := BitVec.ofNat 17 (s.cfg.h.toNat - 1)
        npk := 0
        lc := false } }

/-- 44_rle_decoder_lc.md R230. DEC_LC_LINE on any legal line record: each packet's pixels are painted after its skip into
physical row H - 1 - CMD.ARG, every other pixel keeps its value, X.ip ends just past the record, X.y is one further. -/
def Obligations.DecLcLinePaintsEveryLegalLine : Prop :=
  ∀ (s : State) (lps : List LcPacket) (rest : List Byte), s.status.fault = 0 → s.cmd.arg.toNat < s.cfg.h.toNat →
    s.cfg.w ≠ 0 → legalLine 65535 s.cfg.w.toNat lps → s.inp.drop s.dec.ip = lcRecord lps ++ rest →
    exec .decLcLine s = .next { s with
      cmd := { s.cmd with op := 6 }
      fb := paintLine s.fb (fbAddr s.cfg.w.toNat (s.cfg.h.toNat - 1 - s.cmd.arg.toNat) 0) 0 lps
      dec := { s.dec with
        ip := s.dec.ip + (lcRecord lps).length
        x := BitVec.ofNat 17 (lcExtent lps)
        y := BitVec.ofNat 17 (s.cmd.arg.toNat + 1)
        npk := 0
        lc := true } }

/-- 44_rle_decoder_lc.md R229, R231. DEC_LC_FRAME on any legal LC payload: each line entry lands in the row its skips lead
to, rows never named keep the previous frame, and the frame is done when the line count is reached. That a payload of no
lines leaves X.x as it stood is the reading of 10_state.md R56 in log 8. -/
def Obligations.DecLcFramePaintsEveryLegalFrame : Prop :=
  ∀ (s : State) (es : List LineEntry) (rest : List Byte), s.status.fault = 0 → s.cfg.w ≠ 0 → s.cfg.h ≠ 0 →
    legalEntries s.cfg.w.toNat s.cfg.h.toNat 0 es → s.inp.drop s.dec.ip = lcPayload es ++ rest →
    exec .decLcFrame s = .next { s with
      cmd := { s.cmd with op := 7 }
      fb := paintEntries s.cfg.w.toNat s.cfg.h.toNat s.fb 0 es
      dec := { s.dec with
        ip := s.dec.ip + (lcPayload es).length
        x := BitVec.ofNat 17 (lastExtent s.dec.x.toNat es)
        y := BitVec.ofNat 17 (entryRows es)
        npk := if es = [] then s.dec.npk else 0
        lines := 0
        lc := true } }

/-! ### The run encoder -/

/-- 40_rle_encoder_key.md R132 to R137. The steps of the run encoder and its flush, each under its own condition. -/
def Obligations.RunEncoderStepsByItsTable : Prop :=
  ∀ (L : Nat → Pixel) (e : Enc),
    (e.mode = .copy → e.la.toNat ≤ e.count.toNat →
      (∀ k, 1 ≤ k → k ≤ e.la.toNat → L (e.idx.toNat - k) = L e.idx.toNat) →
      encStep L e =
        ({ e with
            mode := .repeated
            start := BitVec.ofNat 16 (e.idx.toNat - e.la.toNat)
            count := BitVec.ofNat 7 (e.la.toNat + 1)
            idx := BitVec.ofNat 16 (e.idx.toNat + 1) },
          if 1 ≤ e.count.toNat - e.la.toNat then
            [.copyOf (slice L e.start.toNat (e.count.toNat - e.la.toNat))] else [])) ∧
    (e.mode = .copy → (e.count.toNat < e.la.toNat ∨ ∃ k, 1 ≤ k ∧ k ≤ e.la.toNat ∧ L (e.idx.toNat - k) ≠ L e.idx.toNat) →
      (e.count = 127 → encStep L e =
        ({ e with start := e.idx, count := 1, idx := BitVec.ofNat 16 (e.idx.toNat + 1) },
          [.copyOf (slice L e.start.toNat 127)])) ∧
      (e.count ≠ 127 → encStep L e =
        ({ e with count := BitVec.ofNat 7 (e.count.toNat + 1), idx := BitVec.ofNat 16 (e.idx.toNat + 1) }, []))) ∧
    (e.mode = .repeated → L e.idx.toNat = L e.start.toNat →
      (e.count = 127 → encStep L e =
        ({ e with start := e.idx, count := 1, idx := BitVec.ofNat 16 (e.idx.toNat + 1) },
          [.repeatOf 127 (L e.start.toNat)])) ∧
      (e.count ≠ 127 → encStep L e =
        ({ e with count := BitVec.ofNat 7 (e.count.toNat + 1), idx := BitVec.ofNat 16 (e.idx.toNat + 1) }, []))) ∧
    (e.mode = .repeated → L e.idx.toNat ≠ L e.start.toNat → encStep L e =
      ({ e with mode := .copy, start := e.idx, count := 1, idx := BitVec.ofNat 16 (e.idx.toNat + 1) },
        [.repeatOf e.count.toNat (L e.start.toNat)])) ∧
    (1 ≤ e.count.toNat → flushRun L e = match e.mode with
      | .copy => [.copyOf (slice L e.start.toNat e.count.toNat)]
      | .repeated => [.repeatOf e.count.toNat (L e.start.toNat)]) ∧
    (e.count = 0 → flushRun L e = [])

/-- 40_rle_encoder_key.md R143 items 1, 2 and 6. The packets' pixels, one after the other, are the run; every packet has 1
to 127 pixels; there are at most as many packets as pixels, and none only for an empty run. -/
def Obligations.RunPacketsPartitionTheRun : Prop :=
  ∀ (L : Nat → Pixel) (e : Enc) (s0 n : Nat) (la : BitVec 2), (la = 1 ∨ la = 2) → s0 + n ≤ 65535 →
    expandAll (encodeRun L e s0 n la).2 = slice L s0 n ∧
    (∀ pk ∈ (encodeRun L e s0 n la).2, 1 ≤ pk.npix ∧ pk.npix ≤ 127) ∧
    (encodeRun L e s0 n la).2.length ≤ n ∧ ((encodeRun L e s0 n la).2 = [] ↔ n = 0)

/-- R143 item 3. The packets are a function of the run's pixel values alone: not of where the run starts, of pixels
outside it, or of what earlier commands left in the registers. -/
def Obligations.RunPacketsDependOnTheRunAlone : Prop :=
  ∀ (L M : Nat → Pixel) (e f : Enc) (s0 u0 n : Nat) (la : BitVec 2), (la = 1 ∨ la = 2) → s0 + n ≤ 65535 →
    u0 + n ≤ 65535 → (∀ k, k < n → L (s0 + k) = M (u0 + k)) →
    (encodeRun L e s0 n la).2 = (encodeRun M f u0 n la).2

/-- R143 item 4. A REPEAT shorter than 127 is never followed by a REPEAT of the same pixel, and a REPEAT of 1 stands only
directly after a REPEAT of 127 of the same pixel. -/
def Obligations.NoTwoRepeatsCouldMerge : Prop :=
  ∀ (L : Nat → Pixel) (e : Enc) (s0 n : Nat) (la : BitVec 2), (la = 1 ∨ la = 2) → s0 + n ≤ 65535 →
    (∀ pre post k j p, (encodeRun L e s0 n la).2 = pre ++ .repeatOf k p :: .repeatOf j p :: post → k = 127) ∧
    (∀ pre post p, (encodeRun L e s0 n la).2 = pre ++ .repeatOf 1 p :: post →
      ∃ pre', pre = pre' ++ [.repeatOf 127 p])

/-! ### The line differ and the delta variant -/

/-- 41_line_differ.md R168. The sub-chunks of two lines: left to right and disjoint, changed inside, unchanged between and
after, maximal, none exactly for equal lines, at most half the pixels rounded up. `ends k` is the end of the sub-chunk
before number `k`. -/
def Obligations.SubChunksAreTheMaximalChangedRuns : Prop :=
  ∀ (C P : Nat → Pixel) (w : Nat) (out : List SubChunk) (ends : Nat → Nat), w ≤ 65535 → (differ C P w).2 = out →
    ends 0 = 0 → (∀ k (h : k < out.length), ends (k + 1) = out[k].start.toNat + out[k].length.toNat) →
    (∀ k (h : k < out.length), out[k].start.toNat = ends k + out[k].skip.toNat) ∧
    (∀ k (h : k < out.length), ∀ i, out[k].start.toNat ≤ i → i < ends (k + 1) → C i ≠ P i) ∧
    (∀ k (h : k < out.length), ∀ i, ends k ≤ i → i < out[k].start.toNat → C i = P i) ∧
    (∀ i, ends out.length ≤ i → i < w → C i = P i) ∧
    (∀ k (h : k < out.length), (1 ≤ k → 1 ≤ out[k].skip.toNat) ∧ 1 ≤ out[k].length.toNat) ∧
    (out = [] ↔ ∀ i, i < w → C i = P i) ∧
    out.length ≤ (w + 1) / 2

/-- 42_rle_encoder_delta.md R188 items 2, 4, 5 and 6 (item 1, the skip bound, is the width of the skip field), whatever
earlier commands left in the encoder's registers `e`. Every packet has 1 to 127 pixels, or is exactly the pure skip; a pure
skip is followed by another packet, and the last packet of a line carries pixels; there are packets exactly when the lines
differ; every pixel a packet covers is a changed one. The packets do not depend on `e` (10_state.md R54, R56): they are
`deltaPackets`, the packets from the registers after RESET, of which the frame statements speak. -/
def Obligations.DeltaPacketsAreBoundedAndCoverChanges : Prop :=
  ∀ (C P : Nat → Pixel) (e : Enc) (w : Nat) (out : List LcPacket), w ≤ 65535 →
    (deltaLine C e (differ C P w).2).2 = out →
    out = deltaPackets C P w ∧
    (∀ lp ∈ out, (1 ≤ lp.pk.npix ∧ lp.pk.npix ≤ 127) ∨ lp = pureSkip) ∧
    (∀ lp, out.getLast? = some lp → lp ≠ pureSkip ∧ 1 ≤ lp.pk.npix) ∧
    (out = [] ↔ ∀ i, i < w → C i = P i) ∧
    (∀ pre lp post, out = pre ++ lp :: post → ∀ k, k < lp.pk.npix →
      C (lcExtent pre + lp.skip.toNat + k) ≠ P (lcExtent pre + lp.skip.toNat + k)) ∧
    lcExtent out ≤ w

/-- 42_rle_encoder_delta.md R188 item 3, whatever earlier commands left in the encoder's registers `e`. Replaying the packets
of a line on a row that holds the previous line turns it into the current line, and writes no byte outside the row. -/
def Obligations.DeltaPacketsReplayToTheCurrentLine : Prop :=
  ∀ (C P : Nat → Pixel) (e : Enc) (w base : Nat) (m : Memory), w ≤ 65535 →
    (∀ x, x < w → readPixel m (base + 2 * x) = some (P x)) →
    (∀ x, x < w →
      readPixel (paintLine m base 0 (deltaLine C e (differ C P w).2).2) (base + 2 * x) = some (C x)) ∧
    (∀ a, a < base ∨ base + 2 * w ≤ a →
      (paintLine m base 0 (deltaLine C e (differ C P w).2).2).read a = m.read a)

/-! ### Round trips -/

/-- 43_rle_decoder_brun.md R207 items 1 and 3. DEC_BRUN_ROW on the record ENC_KEY appended for a line writes exactly that
line into the addressed row, changes no other byte of FB, consumes exactly the record and ends with X.x = W. For a line
with pixels that nothing has written, whose result the spec leaves open (70_reset_and_hazards.md R355), the line is the one
the command read: all its reads of such a byte agree, which is the model's choice (log 4, log 5). -/
def Obligations.KeyRowRoundTrip : Prop :=
  ∀ (s t d : State) (rest : List Byte), s.status.fault = 0 → s.cfg.w ≠ 0 → exec .encKey s = .next t →
    t.status.fault = 0 → d.status.fault = 0 → d.cfg.w = s.cfg.w → d.cmd.arg.toNat < d.cfg.h.toNat →
    d.inp.drop d.dec.ip = t.out.drop s.out.length ++ rest →
    ∃ u, exec .decBrunRow d = .next u ∧ u.status.fault = 0 ∧
      (∀ x, x < s.cfg.w.toNat → u.fbPixel (d.cfg.h.toNat - 1 - d.cmd.arg.toNat) x = some (s.drawFree.lcurPixel x)) ∧
      (∀ a, a < 2 * ((d.cfg.h.toNat - 1 - d.cmd.arg.toNat) * s.cfg.w.toNat) ∨
        2 * ((d.cfg.h.toNat - 1 - d.cmd.arg.toNat) * s.cfg.w.toNat + s.cfg.w.toNat) ≤ a → u.fb.read a = d.fb.read a) ∧
      u.dec.ip + s.out.length = d.dec.ip + t.out.length ∧ u.dec.x.toNat = s.cfg.w.toNat

/-- 44_rle_decoder_lc.md R233 item 1. DEC_LC_LINE on the record ENC_DELTA appended for a changed line, on a row that holds
the previous line, leaves the row holding the current line, changes no byte outside the row, and consumes exactly the
record. For lines with pixels that nothing has written, whose result the spec leaves open (70_reset_and_hazards.md R355),
the lines are the ones the command read: all its reads of such a byte agree, which is the model's choice (log 4, log 5). -/
def Obligations.DeltaLineRoundTrip : Prop :=
  ∀ (s t d : State) (rest : List Byte), s.status.fault = 0 → s.cfg.w ≠ 0 → exec .encDelta s = .next t →
    t.status.fault = 0 → (∃ x, x < s.cfg.w.toNat ∧ s.drawFree.lcurPixel x ≠ s.drawFree.lprevPixel x) →
    d.status.fault = 0 → d.cfg.w = s.cfg.w → d.cmd.arg.toNat < d.cfg.h.toNat →
    (∀ x, x < s.cfg.w.toNat → d.fbPixel (d.cfg.h.toNat - 1 - d.cmd.arg.toNat) x = some (s.drawFree.lprevPixel x)) →
    d.inp.drop d.dec.ip = t.out.drop s.out.length ++ rest →
    ∃ u, exec .decLcLine d = .next u ∧ u.status.fault = 0 ∧
      (∀ x, x < s.cfg.w.toNat → u.fbPixel (d.cfg.h.toNat - 1 - d.cmd.arg.toNat) x = some (s.drawFree.lcurPixel x)) ∧
      (∀ a, a < 2 * ((d.cfg.h.toNat - 1 - d.cmd.arg.toNat) * s.cfg.w.toNat) ∨
        2 * ((d.cfg.h.toNat - 1 - d.cmd.arg.toNat) * s.cfg.w.toNat + s.cfg.w.toNat) ≤ a → u.fb.read a = d.fb.read a) ∧
      u.dec.ip + s.out.length = d.dec.ip + t.out.length

/-- 43_rle_decoder_brun.md R207 items 2 and 4. DEC_BRUN_FRAME on the records ENC_KEY makes of the rows of a frame, bottom
row first, leaves FB holding the frame, whatever it held before. -/
def Obligations.KeyFrameRoundTrip : Prop :=
  ∀ (d : State) (F : Nat → Nat → Pixel) (rest : List Byte), d.status.fault = 0 → d.cfg.w ≠ 0 → d.cfg.h ≠ 0 →
    (∀ r, r < d.cfg.h.toNat → (keyPackets (F r) d.cfg.w.toNat).length ≤ 255) →
    d.inp.drop d.dec.ip = keyPayloadFrom d.cfg.w.toNat d.cfg.h.toNat F d.cfg.h.toNat 0 ++ rest →
    ∃ u, exec .decBrunFrame d = .next u ∧ u.status.fault = 0 ∧
      (∀ r x, r < d.cfg.h.toNat → x < d.cfg.w.toNat → u.fbPixel r x = some (F r x)) ∧
      u.dec.ip = d.dec.ip + (keyPayloadFrom d.cfg.w.toNat d.cfg.h.toNat F d.cfg.h.toNat 0).length

/-- 44_rle_decoder_lc.md R233 items 3 and 4. DEC_LC_FRAME on the LC payload the frame layer builds from two frames
(46_context_frame_container.md R274), with FB holding the first, leaves FB holding the second; for two equal frames the
payload is `00 00`. A frame of more than 32769 rows could need a skip that no LSKIP states (R274). -/
def Obligations.DeltaFrameRoundTrip : Prop :=
  ∀ (d : State) (Fprev Fcur : Nat → Nat → Pixel) (es : List LineEntry) (rest : List Byte), d.status.fault = 0 →
    d.cfg.w ≠ 0 → d.cfg.h ≠ 0 → d.cfg.h.toNat ≤ 32769 →
    (∀ r, r < d.cfg.h.toNat → (deltaPackets (Fcur r) (Fprev r) d.cfg.w.toNat).length ≤ 32767) →
    deltaEntriesFrom d.cfg.w.toNat d.cfg.h.toNat Fprev Fcur d.cfg.h.toNat 0 0 = es →
    (∀ r x, r < d.cfg.h.toNat → x < d.cfg.w.toNat → d.fbPixel r x = some (Fprev r x)) →
    d.inp.drop d.dec.ip = lcPayload es ++ rest →
    (∃ u, exec .decLcFrame d = .next u ∧ u.status.fault = 0 ∧
      (∀ r x, r < d.cfg.h.toNat → x < d.cfg.w.toNat → u.fbPixel r x = some (Fcur r x)) ∧
      u.dec.ip = d.dec.ip + (lcPayload es).length) ∧
    ((∀ r x, r < d.cfg.h.toNat → x < d.cfg.w.toNat → Fcur r x = Fprev r x) → lcPayload es = [0, 0])

/-! ### The small step and the big step; invariants -/

/-- 00_scope.md R16 ("The two agree"). From where a decode command begins, single steps, one stream item each, reach exactly
the state the command's big step gives. -/
def Obligations.SmallStepsReachTheBigStep : Prop :=
  ∀ (i : Instr) (c : BitVec 3) (s t b : State), commandCode i = some c → isDecodeCode c = true →
    s.dec.pos = .command → s.host = [] → exec i s = .next t → (beginDecode i s).outcome = .next b →
    ∃ n, Host.Core.run Sys2Proof.core n b = .next t

/-- The soundness of a decode in progress (43_rle_decoder_brun.md R204, 44_rle_decoder_lc.md R226, R228, R229), and the
legality of the fault code (60_exceptions.md R301), are kept by every step; and a decode begins in a sound state: where a
decode command goes on from the position it begins at (log 1), its checks have passed and the invariant holds. -/
def Obligations.StepsKeepDecodeSound : Prop :=
  (∀ (s t : State), s.decodeSound → s.faultLegal → step s = .next t → t.decodeSound ∧ t.faultLegal) ∧
  (∀ (i : Instr) (c : BitVec 3) (s b : State), commandCode i = some c → isDecodeCode c = true → s.dec.pos = .command →
    (beginDecode i s).outcome = .next b → b.decodeSound ∧ (s.faultLegal → b.faultLegal))

/-- 10_state.md R28, R29, R30. STATUS.NPK and STATUS.NSC are the lengths of RES.pk and RES.sc, and STATUS.CHANGED says
whether RES.sc is not empty: every step keeps that. -/
def Obligations.StepsKeepCountsAgreeing : Prop :=
  ∀ (s t : State), s.countsAgree → step s = .next t → t.countsAgree

/-- The model's choices (log 10, log 11). From a sound state a step never refuses, and it stops only on a host write to a
pixel that the space does not have; so X.r has a value whenever a packet places pixels (10_state.md R48). Where it has
none (X.y >= CFG.H, in no sound state), a packet of at least one pixel that fits the row stops the machine by name. -/
def Obligations.SoundStepsStopOnlyOnAMissingPixel : Prop :=
  (∀ (s : State), s.decodeSound →
    (∀ r, step s = .fault r → r = .noSuchPixel ∧ s.dec.pos = .command ∧
      ∃ a rest, s.host = .access a :: rest ∧ hostAccess a { s with host := rest } = .fault r) ∧
    (∀ r, step s ≠ .refused r)) ∧
  (∀ (s : State) (n : Nat) (p : Pixel) (rest : List Byte), 1 ≤ n → s.cfg.h.toNat ≤ s.dec.y.toNat →
    s.dec.x.toNat + n ≤ s.cfg.w.toNat → s.inp.drop s.dec.ip = p.b0 :: p.b1 :: rest →
    exec (.bRepeat n) s = .fault .rowUndefined ∧ exec (.bCopy n) s = .fault .rowUndefined ∧
    exec (.lCopy 0 n) s = .fault .rowUndefined ∧ exec (.lRepeat 0 n) s = .fault .rowUndefined)
end

