-- ==== Sys2Proof/Laws/State.lean ====
section
/-! SUPPORT. One lemma per field per named update of State, each true by rfl, so that no later proof unfolds a record
update. -/

namespace Sys2Proof.Machine


/-! ### setIp -/

@[simp] theorem State.setIp_cfg (s : State) (n : Nat) : (s.setIp n).cfg = s.cfg := rfl
@[simp] theorem State.setIp_cmd (s : State) (n : Nat) : (s.setIp n).cmd = s.cmd := rfl
@[simp] theorem State.setIp_status (s : State) (n : Nat) : (s.setIp n).status = s.status := rfl
@[simp] theorem State.setIp_enc (s : State) (n : Nat) : (s.setIp n).enc = s.enc := rfl
@[simp] theorem State.setIp_dif (s : State) (n : Nat) : (s.setIp n).dif = s.dif := rfl
@[simp] theorem State.setIp_res (s : State) (n : Nat) : (s.setIp n).res = s.res := rfl
@[simp] theorem State.setIp_lcur (s : State) (n : Nat) : (s.setIp n).lcur = s.lcur := rfl
@[simp] theorem State.setIp_lprev (s : State) (n : Nat) : (s.setIp n).lprev = s.lprev := rfl
@[simp] theorem State.setIp_fb (s : State) (n : Nat) : (s.setIp n).fb = s.fb := rfl
@[simp] theorem State.setIp_inp (s : State) (n : Nat) : (s.setIp n).inp = s.inp := rfl
@[simp] theorem State.setIp_out (s : State) (n : Nat) : (s.setIp n).out = s.out := rfl
@[simp] theorem State.setIp_host (s : State) (n : Nat) : (s.setIp n).host = s.host := rfl
@[simp] theorem State.setIp_freeCtr (s : State) (n : Nat) : (s.setIp n).freeCtr = s.freeCtr := rfl
@[simp] theorem State.setIp_dec_ip (s : State) (n : Nat) : (s.setIp n).dec.ip = n := rfl
@[simp] theorem State.setIp_dec_x (s : State) (n : Nat) : (s.setIp n).dec.x = s.dec.x := rfl
@[simp] theorem State.setIp_dec_y (s : State) (n : Nat) : (s.setIp n).dec.y = s.dec.y := rfl
@[simp] theorem State.setIp_dec_npk (s : State) (n : Nat) : (s.setIp n).dec.npk = s.dec.npk := rfl
@[simp] theorem State.setIp_dec_lines (s : State) (n : Nat) : (s.setIp n).dec.lines = s.dec.lines := rfl
@[simp] theorem State.setIp_dec_lc (s : State) (n : Nat) : (s.setIp n).dec.lc = s.dec.lc := rfl
@[simp] theorem State.setIp_dec_pos (s : State) (n : Nat) : (s.setIp n).dec.pos = s.dec.pos := rfl

/-! ### setX -/

@[simp] theorem State.setX_cfg (s : State) (n : Nat) : (s.setX n).cfg = s.cfg := rfl
@[simp] theorem State.setX_cmd (s : State) (n : Nat) : (s.setX n).cmd = s.cmd := rfl
@[simp] theorem State.setX_status (s : State) (n : Nat) : (s.setX n).status = s.status := rfl
@[simp] theorem State.setX_enc (s : State) (n : Nat) : (s.setX n).enc = s.enc := rfl
@[simp] theorem State.setX_dif (s : State) (n : Nat) : (s.setX n).dif = s.dif := rfl
@[simp] theorem State.setX_res (s : State) (n : Nat) : (s.setX n).res = s.res := rfl
@[simp] theorem State.setX_lcur (s : State) (n : Nat) : (s.setX n).lcur = s.lcur := rfl
@[simp] theorem State.setX_lprev (s : State) (n : Nat) : (s.setX n).lprev = s.lprev := rfl
@[simp] theorem State.setX_fb (s : State) (n : Nat) : (s.setX n).fb = s.fb := rfl
@[simp] theorem State.setX_inp (s : State) (n : Nat) : (s.setX n).inp = s.inp := rfl
@[simp] theorem State.setX_out (s : State) (n : Nat) : (s.setX n).out = s.out := rfl
@[simp] theorem State.setX_host (s : State) (n : Nat) : (s.setX n).host = s.host := rfl
@[simp] theorem State.setX_freeCtr (s : State) (n : Nat) : (s.setX n).freeCtr = s.freeCtr := rfl
@[simp] theorem State.setX_dec_ip (s : State) (n : Nat) : (s.setX n).dec.ip = s.dec.ip := rfl
@[simp] theorem State.setX_dec_x (s : State) (n : Nat) : (s.setX n).dec.x = BitVec.ofNat 17 n := rfl
@[simp] theorem State.setX_dec_y (s : State) (n : Nat) : (s.setX n).dec.y = s.dec.y := rfl
@[simp] theorem State.setX_dec_npk (s : State) (n : Nat) : (s.setX n).dec.npk = s.dec.npk := rfl
@[simp] theorem State.setX_dec_lines (s : State) (n : Nat) : (s.setX n).dec.lines = s.dec.lines := rfl
@[simp] theorem State.setX_dec_lc (s : State) (n : Nat) : (s.setX n).dec.lc = s.dec.lc := rfl
@[simp] theorem State.setX_dec_pos (s : State) (n : Nat) : (s.setX n).dec.pos = s.dec.pos := rfl

/-! ### setY -/

@[simp] theorem State.setY_cfg (s : State) (n : Nat) : (s.setY n).cfg = s.cfg := rfl
@[simp] theorem State.setY_cmd (s : State) (n : Nat) : (s.setY n).cmd = s.cmd := rfl
@[simp] theorem State.setY_status (s : State) (n : Nat) : (s.setY n).status = s.status := rfl
@[simp] theorem State.setY_enc (s : State) (n : Nat) : (s.setY n).enc = s.enc := rfl
@[simp] theorem State.setY_dif (s : State) (n : Nat) : (s.setY n).dif = s.dif := rfl
@[simp] theorem State.setY_res (s : State) (n : Nat) : (s.setY n).res = s.res := rfl
@[simp] theorem State.setY_lcur (s : State) (n : Nat) : (s.setY n).lcur = s.lcur := rfl
@[simp] theorem State.setY_lprev (s : State) (n : Nat) : (s.setY n).lprev = s.lprev := rfl
@[simp] theorem State.setY_fb (s : State) (n : Nat) : (s.setY n).fb = s.fb := rfl
@[simp] theorem State.setY_inp (s : State) (n : Nat) : (s.setY n).inp = s.inp := rfl
@[simp] theorem State.setY_out (s : State) (n : Nat) : (s.setY n).out = s.out := rfl
@[simp] theorem State.setY_host (s : State) (n : Nat) : (s.setY n).host = s.host := rfl
@[simp] theorem State.setY_freeCtr (s : State) (n : Nat) : (s.setY n).freeCtr = s.freeCtr := rfl
@[simp] theorem State.setY_dec_ip (s : State) (n : Nat) : (s.setY n).dec.ip = s.dec.ip := rfl
@[simp] theorem State.setY_dec_x (s : State) (n : Nat) : (s.setY n).dec.x = s.dec.x := rfl
@[simp] theorem State.setY_dec_y (s : State) (n : Nat) : (s.setY n).dec.y = BitVec.ofNat 17 n := rfl
@[simp] theorem State.setY_dec_npk (s : State) (n : Nat) : (s.setY n).dec.npk = s.dec.npk := rfl
@[simp] theorem State.setY_dec_lines (s : State) (n : Nat) : (s.setY n).dec.lines = s.dec.lines := rfl
@[simp] theorem State.setY_dec_lc (s : State) (n : Nat) : (s.setY n).dec.lc = s.dec.lc := rfl
@[simp] theorem State.setY_dec_pos (s : State) (n : Nat) : (s.setY n).dec.pos = s.dec.pos := rfl

/-! ### setNpk -/

@[simp] theorem State.setNpk_cfg (s : State) (n : Nat) : (s.setNpk n).cfg = s.cfg := rfl
@[simp] theorem State.setNpk_cmd (s : State) (n : Nat) : (s.setNpk n).cmd = s.cmd := rfl
@[simp] theorem State.setNpk_status (s : State) (n : Nat) : (s.setNpk n).status = s.status := rfl
@[simp] theorem State.setNpk_enc (s : State) (n : Nat) : (s.setNpk n).enc = s.enc := rfl
@[simp] theorem State.setNpk_dif (s : State) (n : Nat) : (s.setNpk n).dif = s.dif := rfl
@[simp] theorem State.setNpk_res (s : State) (n : Nat) : (s.setNpk n).res = s.res := rfl
@[simp] theorem State.setNpk_lcur (s : State) (n : Nat) : (s.setNpk n).lcur = s.lcur := rfl
@[simp] theorem State.setNpk_lprev (s : State) (n : Nat) : (s.setNpk n).lprev = s.lprev := rfl
@[simp] theorem State.setNpk_fb (s : State) (n : Nat) : (s.setNpk n).fb = s.fb := rfl
@[simp] theorem State.setNpk_inp (s : State) (n : Nat) : (s.setNpk n).inp = s.inp := rfl
@[simp] theorem State.setNpk_out (s : State) (n : Nat) : (s.setNpk n).out = s.out := rfl
@[simp] theorem State.setNpk_host (s : State) (n : Nat) : (s.setNpk n).host = s.host := rfl
@[simp] theorem State.setNpk_freeCtr (s : State) (n : Nat) : (s.setNpk n).freeCtr = s.freeCtr := rfl
@[simp] theorem State.setNpk_dec_ip (s : State) (n : Nat) : (s.setNpk n).dec.ip = s.dec.ip := rfl
@[simp] theorem State.setNpk_dec_x (s : State) (n : Nat) : (s.setNpk n).dec.x = s.dec.x := rfl
@[simp] theorem State.setNpk_dec_y (s : State) (n : Nat) : (s.setNpk n).dec.y = s.dec.y := rfl
@[simp] theorem State.setNpk_dec_npk (s : State) (n : Nat) : (s.setNpk n).dec.npk = BitVec.ofNat 16 n := rfl
@[simp] theorem State.setNpk_dec_lines (s : State) (n : Nat) : (s.setNpk n).dec.lines = s.dec.lines := rfl
@[simp] theorem State.setNpk_dec_lc (s : State) (n : Nat) : (s.setNpk n).dec.lc = s.dec.lc := rfl
@[simp] theorem State.setNpk_dec_pos (s : State) (n : Nat) : (s.setNpk n).dec.pos = s.dec.pos := rfl

/-! ### setLines -/

@[simp] theorem State.setLines_cfg (s : State) (n : Nat) : (s.setLines n).cfg = s.cfg := rfl
@[simp] theorem State.setLines_cmd (s : State) (n : Nat) : (s.setLines n).cmd = s.cmd := rfl
@[simp] theorem State.setLines_status (s : State) (n : Nat) : (s.setLines n).status = s.status := rfl
@[simp] theorem State.setLines_enc (s : State) (n : Nat) : (s.setLines n).enc = s.enc := rfl
@[simp] theorem State.setLines_dif (s : State) (n : Nat) : (s.setLines n).dif = s.dif := rfl
@[simp] theorem State.setLines_res (s : State) (n : Nat) : (s.setLines n).res = s.res := rfl
@[simp] theorem State.setLines_lcur (s : State) (n : Nat) : (s.setLines n).lcur = s.lcur := rfl
@[simp] theorem State.setLines_lprev (s : State) (n : Nat) : (s.setLines n).lprev = s.lprev := rfl
@[simp] theorem State.setLines_fb (s : State) (n : Nat) : (s.setLines n).fb = s.fb := rfl
@[simp] theorem State.setLines_inp (s : State) (n : Nat) : (s.setLines n).inp = s.inp := rfl
@[simp] theorem State.setLines_out (s : State) (n : Nat) : (s.setLines n).out = s.out := rfl
@[simp] theorem State.setLines_host (s : State) (n : Nat) : (s.setLines n).host = s.host := rfl
@[simp] theorem State.setLines_freeCtr (s : State) (n : Nat) : (s.setLines n).freeCtr = s.freeCtr := rfl
@[simp] theorem State.setLines_dec_ip (s : State) (n : Nat) : (s.setLines n).dec.ip = s.dec.ip := rfl
@[simp] theorem State.setLines_dec_x (s : State) (n : Nat) : (s.setLines n).dec.x = s.dec.x := rfl
@[simp] theorem State.setLines_dec_y (s : State) (n : Nat) : (s.setLines n).dec.y = s.dec.y := rfl
@[simp] theorem State.setLines_dec_npk (s : State) (n : Nat) : (s.setLines n).dec.npk = s.dec.npk := rfl
@[simp] theorem State.setLines_dec_lines (s : State) (n : Nat) : (s.setLines n).dec.lines = BitVec.ofNat 16 n := rfl
@[simp] theorem State.setLines_dec_lc (s : State) (n : Nat) : (s.setLines n).dec.lc = s.dec.lc := rfl
@[simp] theorem State.setLines_dec_pos (s : State) (n : Nat) : (s.setLines n).dec.pos = s.dec.pos := rfl

/-! ### setLc -/

@[simp] theorem State.setLc_cfg (s : State) (b : Bool) : (s.setLc b).cfg = s.cfg := rfl
@[simp] theorem State.setLc_cmd (s : State) (b : Bool) : (s.setLc b).cmd = s.cmd := rfl
@[simp] theorem State.setLc_status (s : State) (b : Bool) : (s.setLc b).status = s.status := rfl
@[simp] theorem State.setLc_enc (s : State) (b : Bool) : (s.setLc b).enc = s.enc := rfl
@[simp] theorem State.setLc_dif (s : State) (b : Bool) : (s.setLc b).dif = s.dif := rfl
@[simp] theorem State.setLc_res (s : State) (b : Bool) : (s.setLc b).res = s.res := rfl
@[simp] theorem State.setLc_lcur (s : State) (b : Bool) : (s.setLc b).lcur = s.lcur := rfl
@[simp] theorem State.setLc_lprev (s : State) (b : Bool) : (s.setLc b).lprev = s.lprev := rfl
@[simp] theorem State.setLc_fb (s : State) (b : Bool) : (s.setLc b).fb = s.fb := rfl
@[simp] theorem State.setLc_inp (s : State) (b : Bool) : (s.setLc b).inp = s.inp := rfl
@[simp] theorem State.setLc_out (s : State) (b : Bool) : (s.setLc b).out = s.out := rfl
@[simp] theorem State.setLc_host (s : State) (b : Bool) : (s.setLc b).host = s.host := rfl
@[simp] theorem State.setLc_freeCtr (s : State) (b : Bool) : (s.setLc b).freeCtr = s.freeCtr := rfl
@[simp] theorem State.setLc_dec_ip (s : State) (b : Bool) : (s.setLc b).dec.ip = s.dec.ip := rfl
@[simp] theorem State.setLc_dec_x (s : State) (b : Bool) : (s.setLc b).dec.x = s.dec.x := rfl
@[simp] theorem State.setLc_dec_y (s : State) (b : Bool) : (s.setLc b).dec.y = s.dec.y := rfl
@[simp] theorem State.setLc_dec_npk (s : State) (b : Bool) : (s.setLc b).dec.npk = s.dec.npk := rfl
@[simp] theorem State.setLc_dec_lines (s : State) (b : Bool) : (s.setLc b).dec.lines = s.dec.lines := rfl
@[simp] theorem State.setLc_dec_lc (s : State) (b : Bool) : (s.setLc b).dec.lc = b := rfl
@[simp] theorem State.setLc_dec_pos (s : State) (b : Bool) : (s.setLc b).dec.pos = s.dec.pos := rfl

/-! ### setPos -/

@[simp] theorem State.setPos_cfg (s : State) (p : Position) : (s.setPos p).cfg = s.cfg := rfl
@[simp] theorem State.setPos_cmd (s : State) (p : Position) : (s.setPos p).cmd = s.cmd := rfl
@[simp] theorem State.setPos_status (s : State) (p : Position) : (s.setPos p).status = s.status := rfl
@[simp] theorem State.setPos_enc (s : State) (p : Position) : (s.setPos p).enc = s.enc := rfl
@[simp] theorem State.setPos_dif (s : State) (p : Position) : (s.setPos p).dif = s.dif := rfl
@[simp] theorem State.setPos_res (s : State) (p : Position) : (s.setPos p).res = s.res := rfl
@[simp] theorem State.setPos_lcur (s : State) (p : Position) : (s.setPos p).lcur = s.lcur := rfl
@[simp] theorem State.setPos_lprev (s : State) (p : Position) : (s.setPos p).lprev = s.lprev := rfl
@[simp] theorem State.setPos_fb (s : State) (p : Position) : (s.setPos p).fb = s.fb := rfl
@[simp] theorem State.setPos_inp (s : State) (p : Position) : (s.setPos p).inp = s.inp := rfl
@[simp] theorem State.setPos_out (s : State) (p : Position) : (s.setPos p).out = s.out := rfl
@[simp] theorem State.setPos_host (s : State) (p : Position) : (s.setPos p).host = s.host := rfl
@[simp] theorem State.setPos_freeCtr (s : State) (p : Position) : (s.setPos p).freeCtr = s.freeCtr := rfl
@[simp] theorem State.setPos_dec_ip (s : State) (p : Position) : (s.setPos p).dec.ip = s.dec.ip := rfl
@[simp] theorem State.setPos_dec_x (s : State) (p : Position) : (s.setPos p).dec.x = s.dec.x := rfl
@[simp] theorem State.setPos_dec_y (s : State) (p : Position) : (s.setPos p).dec.y = s.dec.y := rfl
@[simp] theorem State.setPos_dec_npk (s : State) (p : Position) : (s.setPos p).dec.npk = s.dec.npk := rfl
@[simp] theorem State.setPos_dec_lines (s : State) (p : Position) : (s.setPos p).dec.lines = s.dec.lines := rfl
@[simp] theorem State.setPos_dec_lc (s : State) (p : Position) : (s.setPos p).dec.lc = s.dec.lc := rfl
@[simp] theorem State.setPos_dec_pos (s : State) (p : Position) : (s.setPos p).dec.pos = p := rfl

/-! ### State.setOp -/

@[simp] theorem State.setOp_cfg (s : State) (c : BitVec 3) : (s.setOp c).cfg = s.cfg := rfl
@[simp] theorem State.setOp_cmd_op (s : State) (c : BitVec 3) :
    (s.setOp c).cmd.op = c := rfl
@[simp] theorem State.setOp_cmd_arg (s : State) (c : BitVec 3) :
    (s.setOp c).cmd.arg = s.cmd.arg := rfl
@[simp] theorem State.setOp_status (s : State) (c : BitVec 3) : (s.setOp c).status = s.status := rfl
@[simp] theorem State.setOp_enc (s : State) (c : BitVec 3) : (s.setOp c).enc = s.enc := rfl
@[simp] theorem State.setOp_dif (s : State) (c : BitVec 3) : (s.setOp c).dif = s.dif := rfl
@[simp] theorem State.setOp_dec (s : State) (c : BitVec 3) : (s.setOp c).dec = s.dec := rfl
@[simp] theorem State.setOp_res (s : State) (c : BitVec 3) : (s.setOp c).res = s.res := rfl
@[simp] theorem State.setOp_lcur (s : State) (c : BitVec 3) : (s.setOp c).lcur = s.lcur := rfl
@[simp] theorem State.setOp_lprev (s : State) (c : BitVec 3) : (s.setOp c).lprev = s.lprev := rfl
@[simp] theorem State.setOp_fb (s : State) (c : BitVec 3) : (s.setOp c).fb = s.fb := rfl
@[simp] theorem State.setOp_inp (s : State) (c : BitVec 3) : (s.setOp c).inp = s.inp := rfl
@[simp] theorem State.setOp_out (s : State) (c : BitVec 3) : (s.setOp c).out = s.out := rfl
@[simp] theorem State.setOp_host (s : State) (c : BitVec 3) : (s.setOp c).host = s.host := rfl
@[simp] theorem State.setOp_freeCtr (s : State) (c : BitVec 3) : (s.setOp c).freeCtr = s.freeCtr := rfl

/-! ### State.drawFree -/

@[simp] theorem State.drawFree_cfg (s : State) : (s.drawFree).cfg = s.cfg := rfl
@[simp] theorem State.drawFree_cmd (s : State) : (s.drawFree).cmd = s.cmd := rfl
@[simp] theorem State.drawFree_status (s : State) : (s.drawFree).status = s.status := rfl
@[simp] theorem State.drawFree_enc (s : State) : (s.drawFree).enc = s.enc := rfl
@[simp] theorem State.drawFree_dif (s : State) : (s.drawFree).dif = s.dif := rfl
@[simp] theorem State.drawFree_dec (s : State) : (s.drawFree).dec = s.dec := rfl
@[simp] theorem State.drawFree_res (s : State) : (s.drawFree).res = s.res := rfl
@[simp] theorem State.drawFree_lcur (s : State) : (s.drawFree).lcur = s.lcur := rfl
@[simp] theorem State.drawFree_lprev (s : State) : (s.drawFree).lprev = s.lprev := rfl
@[simp] theorem State.drawFree_fb (s : State) : (s.drawFree).fb = s.fb := rfl
@[simp] theorem State.drawFree_inp (s : State) : (s.drawFree).inp = s.inp := rfl
@[simp] theorem State.drawFree_out (s : State) : (s.drawFree).out = s.out := rfl
@[simp] theorem State.drawFree_host (s : State) : (s.drawFree).host = s.host := rfl
@[simp] theorem State.drawFree_freeCtr (s : State) :
    (s.drawFree).freeCtr = s.freeCtr + 1 := rfl

/-! ### State.appendOut -/

@[simp] theorem State.appendOut_cfg (s : State) (b : List Byte) : (s.appendOut b).cfg = s.cfg := rfl
@[simp] theorem State.appendOut_cmd (s : State) (b : List Byte) : (s.appendOut b).cmd = s.cmd := rfl
@[simp] theorem State.appendOut_status (s : State) (b : List Byte) : (s.appendOut b).status = s.status := rfl
@[simp] theorem State.appendOut_enc (s : State) (b : List Byte) : (s.appendOut b).enc = s.enc := rfl
@[simp] theorem State.appendOut_dif (s : State) (b : List Byte) : (s.appendOut b).dif = s.dif := rfl
@[simp] theorem State.appendOut_dec (s : State) (b : List Byte) : (s.appendOut b).dec = s.dec := rfl
@[simp] theorem State.appendOut_res (s : State) (b : List Byte) : (s.appendOut b).res = s.res := rfl
@[simp] theorem State.appendOut_lcur (s : State) (b : List Byte) : (s.appendOut b).lcur = s.lcur := rfl
@[simp] theorem State.appendOut_lprev (s : State) (b : List Byte) : (s.appendOut b).lprev = s.lprev := rfl
@[simp] theorem State.appendOut_fb (s : State) (b : List Byte) : (s.appendOut b).fb = s.fb := rfl
@[simp] theorem State.appendOut_inp (s : State) (b : List Byte) : (s.appendOut b).inp = s.inp := rfl
@[simp] theorem State.appendOut_out (s : State) (b : List Byte) :
    (s.appendOut b).out = s.out ++ b := rfl
@[simp] theorem State.appendOut_host (s : State) (b : List Byte) : (s.appendOut b).host = s.host := rfl
@[simp] theorem State.appendOut_freeCtr (s : State) (b : List Byte) : (s.appendOut b).freeCtr = s.freeCtr := rfl

/-! ### State.fbWrite -/

@[simp] theorem State.fbWrite_cfg (s : State) (r x : Nat) (p : Pixel) : (s.fbWrite r x p).cfg = s.cfg := rfl
@[simp] theorem State.fbWrite_cmd (s : State) (r x : Nat) (p : Pixel) : (s.fbWrite r x p).cmd = s.cmd := rfl
@[simp] theorem State.fbWrite_status (s : State) (r x : Nat) (p : Pixel) : (s.fbWrite r x p).status = s.status := rfl
@[simp] theorem State.fbWrite_enc (s : State) (r x : Nat) (p : Pixel) : (s.fbWrite r x p).enc = s.enc := rfl
@[simp] theorem State.fbWrite_dif (s : State) (r x : Nat) (p : Pixel) : (s.fbWrite r x p).dif = s.dif := rfl
@[simp] theorem State.fbWrite_dec (s : State) (r x : Nat) (p : Pixel) : (s.fbWrite r x p).dec = s.dec := rfl
@[simp] theorem State.fbWrite_res (s : State) (r x : Nat) (p : Pixel) : (s.fbWrite r x p).res = s.res := rfl
@[simp] theorem State.fbWrite_lcur (s : State) (r x : Nat) (p : Pixel) : (s.fbWrite r x p).lcur = s.lcur := rfl
@[simp] theorem State.fbWrite_lprev (s : State) (r x : Nat) (p : Pixel) : (s.fbWrite r x p).lprev = s.lprev := rfl
@[simp] theorem State.fbWrite_fb (s : State) (r x : Nat) (p : Pixel) :
    (s.fbWrite r x p).fb = writePixel s.fb (fbAddr s.cfg.w.toNat r x) p := rfl
@[simp] theorem State.fbWrite_inp (s : State) (r x : Nat) (p : Pixel) : (s.fbWrite r x p).inp = s.inp := rfl
@[simp] theorem State.fbWrite_out (s : State) (r x : Nat) (p : Pixel) : (s.fbWrite r x p).out = s.out := rfl
@[simp] theorem State.fbWrite_host (s : State) (r x : Nat) (p : Pixel) : (s.fbWrite r x p).host = s.host := rfl
@[simp] theorem State.fbWrite_freeCtr (s : State) (r x : Nat) (p : Pixel) : (s.fbWrite r x p).freeCtr = s.freeCtr := rfl

/-! ### State.emit -/

@[simp] theorem State.emit_cfg (s : State) (pk : ResPacket) : (s.emit pk).cfg = s.cfg := rfl
@[simp] theorem State.emit_cmd (s : State) (pk : ResPacket) : (s.emit pk).cmd = s.cmd := rfl
@[simp] theorem State.emit_status_fault (s : State) (pk : ResPacket) :
    (s.emit pk).status.fault = s.status.fault := rfl
@[simp] theorem State.emit_status_fip (s : State) (pk : ResPacket) :
    (s.emit pk).status.fip = s.status.fip := rfl
@[simp] theorem State.emit_status_fx (s : State) (pk : ResPacket) :
    (s.emit pk).status.fx = s.status.fx := rfl
@[simp] theorem State.emit_status_fy (s : State) (pk : ResPacket) :
    (s.emit pk).status.fy = s.status.fy := rfl
@[simp] theorem State.emit_status_npk (s : State) (pk : ResPacket) :
    (s.emit pk).status.npk = BitVec.ofNat 16 (s.status.npk.toNat + 1) := rfl
@[simp] theorem State.emit_status_nsc (s : State) (pk : ResPacket) :
    (s.emit pk).status.nsc = s.status.nsc := rfl
@[simp] theorem State.emit_status_changed (s : State) (pk : ResPacket) :
    (s.emit pk).status.changed = s.status.changed := rfl
@[simp] theorem State.emit_enc (s : State) (pk : ResPacket) : (s.emit pk).enc = s.enc := rfl
@[simp] theorem State.emit_dif (s : State) (pk : ResPacket) : (s.emit pk).dif = s.dif := rfl
@[simp] theorem State.emit_dec (s : State) (pk : ResPacket) : (s.emit pk).dec = s.dec := rfl
@[simp] theorem State.emit_res_pk (s : State) (pk : ResPacket) :
    (s.emit pk).res.pk = s.res.pk ++ [pk] := rfl
@[simp] theorem State.emit_res_sc (s : State) (pk : ResPacket) :
    (s.emit pk).res.sc = s.res.sc := rfl
@[simp] theorem State.emit_lcur (s : State) (pk : ResPacket) : (s.emit pk).lcur = s.lcur := rfl
@[simp] theorem State.emit_lprev (s : State) (pk : ResPacket) : (s.emit pk).lprev = s.lprev := rfl
@[simp] theorem State.emit_fb (s : State) (pk : ResPacket) : (s.emit pk).fb = s.fb := rfl
@[simp] theorem State.emit_inp (s : State) (pk : ResPacket) : (s.emit pk).inp = s.inp := rfl
@[simp] theorem State.emit_out (s : State) (pk : ResPacket) : (s.emit pk).out = s.out := rfl
@[simp] theorem State.emit_host (s : State) (pk : ResPacket) : (s.emit pk).host = s.host := rfl
@[simp] theorem State.emit_freeCtr (s : State) (pk : ResPacket) : (s.emit pk).freeCtr = s.freeCtr := rfl

/-! ### State.clearPackets -/

@[simp] theorem State.clearPackets_cfg (s : State) : (s.clearPackets).cfg = s.cfg := rfl
@[simp] theorem State.clearPackets_cmd (s : State) : (s.clearPackets).cmd = s.cmd := rfl
@[simp] theorem State.clearPackets_status_fault (s : State) :
    (s.clearPackets).status.fault = s.status.fault := rfl
@[simp] theorem State.clearPackets_status_fip (s : State) :
    (s.clearPackets).status.fip = s.status.fip := rfl
@[simp] theorem State.clearPackets_status_fx (s : State) :
    (s.clearPackets).status.fx = s.status.fx := rfl
@[simp] theorem State.clearPackets_status_fy (s : State) :
    (s.clearPackets).status.fy = s.status.fy := rfl
@[simp] theorem State.clearPackets_status_npk (s : State) :
    (s.clearPackets).status.npk = 0 := rfl
@[simp] theorem State.clearPackets_status_nsc (s : State) :
    (s.clearPackets).status.nsc = s.status.nsc := rfl
@[simp] theorem State.clearPackets_status_changed (s : State) :
    (s.clearPackets).status.changed = s.status.changed := rfl
@[simp] theorem State.clearPackets_enc (s : State) : (s.clearPackets).enc = s.enc := rfl
@[simp] theorem State.clearPackets_dif (s : State) : (s.clearPackets).dif = s.dif := rfl
@[simp] theorem State.clearPackets_dec (s : State) : (s.clearPackets).dec = s.dec := rfl
@[simp] theorem State.clearPackets_res_pk (s : State) :
    (s.clearPackets).res.pk = [] := rfl
@[simp] theorem State.clearPackets_res_sc (s : State) :
    (s.clearPackets).res.sc = s.res.sc := rfl
@[simp] theorem State.clearPackets_lcur (s : State) : (s.clearPackets).lcur = s.lcur := rfl
@[simp] theorem State.clearPackets_lprev (s : State) : (s.clearPackets).lprev = s.lprev := rfl
@[simp] theorem State.clearPackets_fb (s : State) : (s.clearPackets).fb = s.fb := rfl
@[simp] theorem State.clearPackets_inp (s : State) : (s.clearPackets).inp = s.inp := rfl
@[simp] theorem State.clearPackets_out (s : State) : (s.clearPackets).out = s.out := rfl
@[simp] theorem State.clearPackets_host (s : State) : (s.clearPackets).host = s.host := rfl
@[simp] theorem State.clearPackets_freeCtr (s : State) : (s.clearPackets).freeCtr = s.freeCtr := rfl

/-! ### raise -/

@[simp] theorem raise_cfg (d : Bool) (f : FaultName) (s : State) : (raise d f s).cfg = s.cfg := rfl
@[simp] theorem raise_cmd (d : Bool) (f : FaultName) (s : State) : (raise d f s).cmd = s.cmd := rfl
@[simp] theorem raise_status_fault (d : Bool) (f : FaultName) (s : State) :
    (raise d f s).status.fault = f.code := rfl
@[simp] theorem raise_status_fip (d : Bool) (f : FaultName) (s : State) :
    (raise d f s).status.fip = if d then s.dec.ip else 0 := rfl
@[simp] theorem raise_status_fx (d : Bool) (f : FaultName) (s : State) :
    (raise d f s).status.fx = if d then s.dec.x else 0 := rfl
@[simp] theorem raise_status_fy (d : Bool) (f : FaultName) (s : State) :
    (raise d f s).status.fy = if d then s.dec.y else 0 := rfl
@[simp] theorem raise_status_npk (d : Bool) (f : FaultName) (s : State) :
    (raise d f s).status.npk = s.status.npk := rfl
@[simp] theorem raise_status_nsc (d : Bool) (f : FaultName) (s : State) :
    (raise d f s).status.nsc = s.status.nsc := rfl
@[simp] theorem raise_status_changed (d : Bool) (f : FaultName) (s : State) :
    (raise d f s).status.changed = s.status.changed := rfl
@[simp] theorem raise_enc (d : Bool) (f : FaultName) (s : State) : (raise d f s).enc = s.enc := rfl
@[simp] theorem raise_dif (d : Bool) (f : FaultName) (s : State) : (raise d f s).dif = s.dif := rfl
@[simp] theorem raise_dec_ip (d : Bool) (f : FaultName) (s : State) :
    (raise d f s).dec.ip = s.dec.ip := rfl
@[simp] theorem raise_dec_x (d : Bool) (f : FaultName) (s : State) :
    (raise d f s).dec.x = s.dec.x := rfl
@[simp] theorem raise_dec_y (d : Bool) (f : FaultName) (s : State) :
    (raise d f s).dec.y = s.dec.y := rfl
@[simp] theorem raise_dec_npk (d : Bool) (f : FaultName) (s : State) :
    (raise d f s).dec.npk = s.dec.npk := rfl
@[simp] theorem raise_dec_lines (d : Bool) (f : FaultName) (s : State) :
    (raise d f s).dec.lines = s.dec.lines := rfl
@[simp] theorem raise_dec_lc (d : Bool) (f : FaultName) (s : State) :
    (raise d f s).dec.lc = s.dec.lc := rfl
@[simp] theorem raise_dec_pos (d : Bool) (f : FaultName) (s : State) :
    (raise d f s).dec.pos = .command := rfl
@[simp] theorem raise_res (d : Bool) (f : FaultName) (s : State) : (raise d f s).res = s.res := rfl
@[simp] theorem raise_lcur (d : Bool) (f : FaultName) (s : State) : (raise d f s).lcur = s.lcur := rfl
@[simp] theorem raise_lprev (d : Bool) (f : FaultName) (s : State) : (raise d f s).lprev = s.lprev := rfl
@[simp] theorem raise_fb (d : Bool) (f : FaultName) (s : State) : (raise d f s).fb = s.fb := rfl
@[simp] theorem raise_inp (d : Bool) (f : FaultName) (s : State) : (raise d f s).inp = s.inp := rfl
@[simp] theorem raise_out (d : Bool) (f : FaultName) (s : State) : (raise d f s).out = s.out := rfl
@[simp] theorem raise_host (d : Bool) (f : FaultName) (s : State) : (raise d f s).host = s.host := rfl
@[simp] theorem raise_freeCtr (d : Bool) (f : FaultName) (s : State) : (raise d f s).freeCtr = s.freeCtr := rfl

/-! ### diffLines -/

@[simp] theorem diffLines_cfg (s : State) : (diffLines s).cfg = s.cfg := rfl
@[simp] theorem diffLines_cmd (s : State) : (diffLines s).cmd = s.cmd := rfl
@[simp] theorem diffLines_status_fault (s : State) :
    (diffLines s).status.fault = s.status.fault := rfl
@[simp] theorem diffLines_status_fip (s : State) :
    (diffLines s).status.fip = s.status.fip := rfl
@[simp] theorem diffLines_status_fx (s : State) :
    (diffLines s).status.fx = s.status.fx := rfl
@[simp] theorem diffLines_status_fy (s : State) :
    (diffLines s).status.fy = s.status.fy := rfl
@[simp] theorem diffLines_status_npk (s : State) :
    (diffLines s).status.npk = s.status.npk := rfl
@[simp] theorem diffLines_enc (s : State) : (diffLines s).enc = s.enc := rfl
@[simp] theorem diffLines_dif (s : State) :
    (diffLines s).dif = (differ s.lcurPixel s.lprevPixel s.cfg.w.toNat).1 := rfl
@[simp] theorem diffLines_dec (s : State) : (diffLines s).dec = s.dec := rfl
@[simp] theorem diffLines_res_pk (s : State) :
    (diffLines s).res.pk = s.res.pk := rfl
@[simp] theorem diffLines_res_sc (s : State) :
    (diffLines s).res.sc = (differ s.lcurPixel s.lprevPixel s.cfg.w.toNat).2 := rfl
@[simp] theorem diffLines_lcur (s : State) : (diffLines s).lcur = s.lcur := rfl
@[simp] theorem diffLines_lprev (s : State) : (diffLines s).lprev = s.lprev := rfl
@[simp] theorem diffLines_fb (s : State) : (diffLines s).fb = s.fb := rfl
@[simp] theorem diffLines_inp (s : State) : (diffLines s).inp = s.inp := rfl
@[simp] theorem diffLines_out (s : State) : (diffLines s).out = s.out := rfl
@[simp] theorem diffLines_host (s : State) : (diffLines s).host = s.host := rfl
@[simp] theorem diffLines_freeCtr (s : State) : (diffLines s).freeCtr = s.freeCtr := rfl

/-! ### State.setFb -/

@[simp] theorem State.setFb_cfg (s : State) (m : Memory) : (s.setFb m).cfg = s.cfg := rfl
@[simp] theorem State.setFb_cmd (s : State) (m : Memory) : (s.setFb m).cmd = s.cmd := rfl
@[simp] theorem State.setFb_status (s : State) (m : Memory) : (s.setFb m).status = s.status := rfl
@[simp] theorem State.setFb_enc (s : State) (m : Memory) : (s.setFb m).enc = s.enc := rfl
@[simp] theorem State.setFb_dif (s : State) (m : Memory) : (s.setFb m).dif = s.dif := rfl
@[simp] theorem State.setFb_dec (s : State) (m : Memory) : (s.setFb m).dec = s.dec := rfl
@[simp] theorem State.setFb_res (s : State) (m : Memory) : (s.setFb m).res = s.res := rfl
@[simp] theorem State.setFb_lcur (s : State) (m : Memory) : (s.setFb m).lcur = s.lcur := rfl
@[simp] theorem State.setFb_lprev (s : State) (m : Memory) : (s.setFb m).lprev = s.lprev := rfl
@[simp] theorem State.setFb_fb (s : State) (m : Memory) : (s.setFb m).fb = m := rfl
@[simp] theorem State.setFb_inp (s : State) (m : Memory) : (s.setFb m).inp = s.inp := rfl
@[simp] theorem State.setFb_out (s : State) (m : Memory) : (s.setFb m).out = s.out := rfl
@[simp] theorem State.setFb_host (s : State) (m : Memory) : (s.setFb m).host = s.host := rfl
@[simp] theorem State.setFb_freeCtr (s : State) (m : Memory) : (s.setFb m).freeCtr = s.freeCtr := rfl

end Sys2Proof.Machine
end

