-- ==== Sys2Proof/Laws/Memory.lean ====
section
/-! SUPPORT. The laws of a memory: a read after a write, and the canonical form, kept by every operation. -/

namespace Sys2Proof.Machine

/-- The tail of a canonical memory is canonical. -/
theorem Memory.wf_tail {c : Host.Cell} {m : Memory} (h : Memory.wf (c :: m) = true) : Memory.wf m = true := by
  cases m with
  | nil => rfl
  | cons d rest => simp [Memory.wf] at h; exact h.2

/-- Every address after the first entry of a canonical memory is larger. -/
theorem Memory.read_lt {a : Nat} {v : Byte} {m : Memory} (h : Memory.wf ((a, v) :: m) = true) {k : Nat} (hk : k ≤ a) :
    Memory.read m k = none := by
  induction m generalizing a v with
  | nil => rfl
  | cons c rest ih =>
    obtain ⟨b, w⟩ := c
    simp only [Memory.wf, Bool.and_eq_true, decide_eq_true_eq] at h
    have hb : ¬ b = k := by omega
    simp only [Memory.read, hb, if_false]
    exact ih h.2 (by omega)

theorem Memory.read_write_same (m : Memory) (a : Nat) (b : Byte) : (Memory.write m a b).read a = some b := by
  induction m with
  | nil => simp [Memory.write, Memory.read]
  | cons c rest ih =>
    obtain ⟨k, v⟩ := c
    simp only [Memory.write]
    split
    · simp [Memory.read]
    · split
      · simp [Memory.read]
      · have : ¬ k = a := by omega
        simp [Memory.read, this, ih]

theorem Memory.read_write_ne (m : Memory) {a k : Nat} (b : Byte) (h : k ≠ a) :
    (Memory.write m a b).read k = Memory.read m k := by
  induction m with
  | nil => simp [Memory.write, Memory.read, Ne.symm h]
  | cons c rest ih =>
    obtain ⟨j, v⟩ := c
    simp only [Memory.write]
    split
    · simp [Memory.read, Ne.symm h]
    · split
      · subst j; simp [Memory.read, Ne.symm h]
      · simp [Memory.read, ih]

/-- A write keeps the canonical form, with the first address the smaller of the two. -/
theorem Memory.write_wf {m : Memory} (h : Memory.wf m = true) (a : Nat) (b : Byte) :
    Memory.wf (Memory.write m a b) = true := by
  induction m with
  | nil => rfl
  | cons c rest ih =>
    obtain ⟨k, v⟩ := c
    simp only [Memory.write]
    split
    · rename_i hlt; simp [Memory.wf, hlt, h]
    · split
      · subst k
        cases rest with
        | nil => rfl
        | cons d rest => simpa [Memory.wf] using h
      · rename_i h1 h2
        have hka : k < a := by omega
        have hrest := ih (Memory.wf_tail h)
        cases rest with
        | nil => simp [Memory.write, Memory.wf, hka]
        | cons d rest =>
          obtain ⟨j, w⟩ := d
          simp only [Memory.wf, Bool.and_eq_true, decide_eq_true_eq] at h
          simp only [Memory.write] at hrest ⊢
          split
          · rename_i hja; simp only [hja, if_true] at hrest; simp [Memory.wf, hka] at hrest ⊢; exact hrest
          · rename_i hja
            simp only [hja, if_false] at hrest
            split
            · rename_i haj; subst haj; simp only [if_true] at hrest
              simp only [Memory.wf, Bool.and_eq_true, decide_eq_true_eq]; exact ⟨hka, hrest⟩
            · rename_i haj; simp only [haj, if_false] at hrest
              simp only [Memory.wf, Bool.and_eq_true, decide_eq_true_eq]; exact ⟨h.1, hrest⟩

/-- Writing bytes from an address on keeps the canonical form. -/
theorem memWrite_wf {m : Memory} (h : Memory.wf m = true) (a : Nat) (bytes : List Byte) :
    Memory.wf (memWrite m a bytes) = true := by
  induction bytes generalizing m a with
  | nil => exact h
  | cons b rest ih => exact ih (Memory.write_wf h a b) (a + 1)

/-- Writing a pixel keeps the canonical form. -/
theorem writePixel_wf {m : Memory} (h : Memory.wf m = true) (a : Nat) (p : Pixel) :
    Memory.wf (writePixel m a p) = true := memWrite_wf h a _

/-- A pixel write leaves every address but its two bytes alone. -/
theorem read_writePixel_ne (m : Memory) {a k : Nat} (p : Pixel) (h : k < a ∨ a + 2 ≤ k) :
    (writePixel m a p).read k = Memory.read m k := by
  simp only [writePixel, Pixel.bytes, memWrite]
  rw [Memory.read_write_ne _ _ (by omega), Memory.read_write_ne _ _ (by omega)]

/-- The first byte of a written pixel. -/
theorem read_writePixel_fst (m : Memory) (a : Nat) (p : Pixel) : (writePixel m a p).read a = some p.b0 := by
  simp only [writePixel, Pixel.bytes, memWrite]
  rw [Memory.read_write_ne _ _ (by omega), Memory.read_write_same]

/-- The second byte of a written pixel. -/
theorem read_writePixel_snd (m : Memory) (a : Nat) (p : Pixel) : (writePixel m a p).read (a + 1) = some p.b1 := by
  simp only [writePixel, Pixel.bytes, memWrite]
  rw [Memory.read_write_same]

/-- The same pixel write on two memories: at each address both keep their byte, or both hold the same written byte. -/
theorem read_writePixel_pair (m n : Memory) (a k : Nat) (p : Pixel) :
    ((writePixel m a p).read k = Memory.read m k ∧ (writePixel n a p).read k = Memory.read n k) ∨
      ∃ b, (writePixel m a p).read k = some b ∧ (writePixel n a p).read k = some b := by
  by_cases h : k < a ∨ a + 2 ≤ k
  · exact .inl ⟨read_writePixel_ne m p h, read_writePixel_ne n p h⟩
  · obtain rfl | rfl : k = a ∨ k = a + 1 := by omega
    · exact .inr ⟨_, read_writePixel_fst m _ p, read_writePixel_fst n _ p⟩
    · exact .inr ⟨_, read_writePixel_snd m _ p, read_writePixel_snd n _ p⟩

/-- A written pixel reads back. -/
theorem readPixel_writePixel_same (m : Memory) (a : Nat) (p : Pixel) : readPixel (writePixel m a p) a = some p := by
  simp [readPixel, read_writePixel_fst, read_writePixel_snd]

/-- A pixel write leaves every pixel that shares no byte with it alone. -/
theorem readPixel_writePixel_ne (m : Memory) {a k : Nat} (p : Pixel) (h : k + 2 ≤ a ∨ a + 2 ≤ k) :
    readPixel (writePixel m a p) k = readPixel m k := by
  simp only [readPixel]
  rw [read_writePixel_ne _ _ (by omega), read_writePixel_ne _ _ (by omega)]

/-- The memories after RESET are canonical. -/
theorem reset_memories_wf :
    Memory.wf State.reset.lcur = true ∧ Memory.wf State.reset.lprev = true ∧ Memory.wf State.reset.fb = true :=
  ⟨rfl, rfl, rfl⟩

end Sys2Proof.Machine
end

