-- ==== Sys2Proof/Laws/Ops.lean ====
section
/-! SUPPORT. What each shared operation of the decoder can do, said once: the reads of IN, the placing of pixels, the
bodies of the packets, the start of a command. -/

namespace Sys2Proof.Machine

/-! ### Flow -/

@[simp] theorem Flow.andThen_go (s : State) (k : State → Flow) : (Flow.go s).andThen k = k s := rfl
@[simp] theorem Flow.andThen_ended (s : State) (k : State → Flow) : (Flow.ended s).andThen k = .ended s := rfl
@[simp] theorem Flow.andThen_stuck (r : Fault) (k : State → Flow) : (Flow.stuck r).andThen k = .stuck r := rfl
@[simp] theorem Flow.outcome_go (s : State) : (Flow.go s).outcome = .next s := rfl
@[simp] theorem Flow.outcome_ended (s : State) : (Flow.ended s).outcome = .next s := rfl
@[simp] theorem Flow.outcome_stuck (r : Fault) : (Flow.stuck r).outcome = .fault r := rfl

theorem Flow.andThen_assoc (f : Flow) (k l : State → Flow) :
    (f.andThen k).andThen l = f.andThen fun s => (k s).andThen l := by
  cases f <;> rfl

/-- `f.Sat G E S`: `f` goes on only in states of `G`, ends only in states of `E`, and gets stuck only if `S`. -/
def Flow.Sat (G E : State → Prop) (S : Prop) (f : Flow) : Prop :=
  match f with
  | .go s => G s
  | .ended s => E s
  | .stuck _ => S

theorem Flow.Sat.andThen {G H E : State → Prop} {S : Prop} {f : Flow} {k : State → Flow} (hf : f.Sat G E S)
    (hk : ∀ s, G s → (k s).Sat H E S) : (f.andThen k).Sat H E S := by
  cases f with
  | go s => exact hk s hf
  | ended s => exact hf
  | stuck r => exact hf

theorem Flow.Sat.mono {G G' E E' : State → Prop} {S S' : Prop} {f : Flow} (hf : f.Sat G E S) (hG : ∀ s, G s → G' s)
    (hE : ∀ s, E s → E' s) (hS : S → S') : f.Sat G' E' S' := by
  cases f with
  | go s => exact hG s hf
  | ended s => exact hE s hf
  | stuck r => exact hS hf

/-- What a flow's outcome is, by what the flow can do. -/
theorem Flow.Sat.next {G E : State → Prop} {S : Prop} {f : Flow} (hf : f.Sat G E S) {t : State}
    (h : f.outcome = .next t) : G t ∨ E t := by
  cases f with
  | go s => simp at h; subst h; exact .inl hf
  | ended s => simp at h; subst h; exact .inr hf
  | stuck r => simp at h

/-! ### The reads of IN -/

theorem in8_eq_none {s : State} (h : s.inp.length ≤ s.dec.ip) (k : Byte → State → Flow) :
    in8 s k = raiseDecode .truncatedStream s := by
  simp [in8, List.getElem?_eq_none h]

theorem in8_eq_some {s : State} (h : s.dec.ip < s.inp.length) (k : Byte → State → Flow) :
    in8 s k = k s.inp[s.dec.ip] (s.setIp (s.dec.ip + 1)) := by
  simp [in8, List.getElem?_eq_getElem h]

/-- In8 on a stream that holds `b` next (20_memory.md R66). -/
theorem in8_of_drop {s : State} {b : Byte} {rest : List Byte} (h : s.inp.drop s.dec.ip = b :: rest)
    (k : Byte → State → Flow) : in8 s k = k b (s.setIp (s.dec.ip + 1)) := by
  have hb : s.inp[s.dec.ip]? = some b := by
    have := congrArg (·[0]?) h
    simpa using this
  simp [in8, hb]

theorem drop_succ_of_drop {l : List Byte} {n : Nat} {b : Byte} {rest : List Byte} (h : l.drop n = b :: rest) :
    l.drop (n + 1) = rest := by
  have := congrArg (List.drop 1) h
  simpa [List.drop_drop, Nat.add_comm] using this

/-- After reading `n` bytes the stream holds what lay behind them. -/
theorem drop_add_of_drop {l : List Byte} {n : Nat} {bytes rest : List Byte} (h : l.drop n = bytes ++ rest) :
    l.drop (n + bytes.length) = rest := by
  have := congrArg (List.drop bytes.length) h
  simpa [List.drop_drop] using this

/-- In16 on a stream that holds two more bytes (R67). -/
theorem in16_of_drop {s : State} {b0 b1 : Byte} {rest : List Byte} (h : s.inp.drop s.dec.ip = b0 :: b1 :: rest)
    (k : BitVec 16 → State → Flow) : in16 s k = k (u16le b0 b1) (s.setIp (s.dec.ip + 2)) := by
  rw [in16, in8_of_drop h, in8_of_drop (rest := rest)]
  · rfl
  · simpa using drop_succ_of_drop h

/-- InPix on a stream that holds a pixel next (R67). -/
theorem inPix_of_drop {s : State} {p : Pixel} {rest : List Byte} (h : s.inp.drop s.dec.ip = p.bytes ++ rest)
    (k : Pixel → State → Flow) : inPix s k = k p (s.setIp (s.dec.ip + 2)) := by
  have h' : s.inp.drop s.dec.ip = p.b0 :: p.b1 :: rest := h
  rw [inPix, in8_of_drop h', in8_of_drop (rest := rest)]
  · rfl
  · simpa using drop_succ_of_drop h'

/-! ### Placing pixels -/

theorem placePixel_eq {s : State} (hy : s.dec.y.toNat < s.cfg.h.toNat) (p : Pixel) (col : Nat) :
    placePixel p col s = .go (s.fbWrite (s.cfg.h.toNat - 1 - s.dec.y.toNat) col p) := by
  simp [placePixel, State.physRow, hy]

theorem placePixel_stuck {s : State} (hy : s.cfg.h.toNat ≤ s.dec.y.toNat) (p : Pixel) (col : Nat) :
    placePixel p col s = .stuck .rowUndefined := by
  simp [placePixel, State.physRow, Nat.not_lt.mpr hy]

theorem fbAddr_succ (w r col : Nat) : fbAddr w r col + Config.bpp = fbAddr w r (col + 1) := by
  simp [fbAddr, Config.bpp]; omega

/-- A run of pixels is painted from its column on (43_rle_decoder_brun.md R202). -/
theorem placeRun_eq (n : Nat) (p : Pixel) (col : Nat) (s : State) (hy : s.dec.y.toNat < s.cfg.h.toNat) :
    placeRun n p col s = .go (s.setFb
      (writePixels s.fb (fbAddr s.cfg.w.toNat (s.cfg.h.toNat - 1 - s.dec.y.toNat) col) (List.replicate n p))) := by
  induction n generalizing col s with
  | zero => rfl
  | succ n ih =>
    rw [placeRun, placePixel_eq hy, Flow.andThen_go, ih _ _ (by simpa using hy)]
    simp [writePixels, List.replicate_succ, fbAddr_succ, State.fbWrite, State.setFb]

/-- Pixels that lie whole in the stream are read and painted one by one (R203). -/
theorem placeCopy_eq (ps : List Pixel) (rest : List Byte) (col : Nat) (s : State)
    (hy : s.dec.y.toNat < s.cfg.h.toNat) (hs : s.inp.drop s.dec.ip = pixelBytes ps ++ rest) :
    placeCopy ps.length col s = .go ((s.setIp (s.dec.ip + 2 * ps.length)).setFb
      (writePixels s.fb (fbAddr s.cfg.w.toNat (s.cfg.h.toNat - 1 - s.dec.y.toNat) col) ps)) := by
  induction ps generalizing col s with
  | nil => rfl
  | cons p ps ih =>
    have hs' : s.inp.drop s.dec.ip = p.bytes ++ (pixelBytes ps ++ rest) := by
      simpa [pixelBytes] using hs
    rw [List.length_cons, placeCopy, inPix_of_drop hs', placePixel_eq (by simpa using hy), Flow.andThen_go, ih]
    · rw [State.fbWrite]
      simp [writePixels, fbAddr_succ, State.setFb, State.setIp, Nat.mul_add, Nat.add_assoc, Nat.add_comm 2]
    · simpa using hy
    · have := drop_add_of_drop hs'
      simpa [Pixel.bytes] using this

theorem writePixels_append (m : Memory) (a : Nat) (ps qs : List Pixel) :
    writePixels m a (ps ++ qs) = writePixels (writePixels m a ps) (a + Config.bpp * ps.length) qs := by
  induction ps generalizing m a with
  | nil => simp [writePixels]
  | cons p ps ih => simp [writePixels, ih, Nat.mul_add, Nat.add_assoc, Nat.add_comm]

/-- Painted pixels leave every byte outside them alone. -/
theorem read_writePixels_ne (m : Memory) (a : Nat) (ps : List Pixel) {k : Nat}
    (h : k < a ∨ a + Config.bpp * ps.length ≤ k) : (writePixels m a ps).read k = Memory.read m k := by
  induction ps generalizing m a with
  | nil => rfl
  | cons p ps ih =>
    simp only [Config.bpp, List.length_cons] at h
    rw [writePixels, ih _ _ (by simp only [Config.bpp]; omega), read_writePixel_ne _ _ (by omega)]

/-- Painted pixels read back, each in its place. -/
theorem readPixel_writePixels (m : Memory) (a : Nat) (ps : List Pixel) (k : Nat) (hk : k < ps.length) :
    readPixel (writePixels m a ps) (a + Config.bpp * k) = some ps[k] := by
  induction ps generalizing m a k with
  | nil => simp at hk
  | cons p ps ih =>
    cases k with
    | zero =>
      simp only [writePixels, readPixel, Nat.mul_zero, Nat.add_zero]
      rw [read_writePixels_ne _ _ _ (by simp [Config.bpp]), read_writePixels_ne _ _ _ (by simp [Config.bpp]),
        read_writePixel_fst, read_writePixel_snd]
      rfl
    | succ k =>
      have := ih (writePixel m a p) (a + Config.bpp) k (by simpa using hk)
      simpa [writePixels, Nat.mul_add, Nat.add_assoc, Nat.add_comm, Nat.add_left_comm] using this

/-- Painting pixels keeps the canonical form. -/
theorem writePixels_wf {m : Memory} (h : Memory.wf m = true) (a : Nat) (ps : List Pixel) :
    Memory.wf (writePixels m a ps) = true := by
  induction ps generalizing m a with
  | nil => exact h
  | cons p ps ih => exact ih (writePixel_wf h a p) _

/-! ### The bodies of the packets -/

theorem overrunsRow_iff (n : Nat) (s : State) : overrunsRow n s = true ↔ s.cfg.w.toNat < s.dec.x.toNat + n := by
  simp [overrunsRow]

theorem overrunsFrame_iff (s : State) : overrunsFrame s = true ↔ s.cfg.h.toNat ≤ s.dec.y.toNat := by
  simp [overrunsFrame]

/-- A REPEAT that fits its row and whose pixel is there (43_rle_decoder_brun.md R202). -/
theorem repeatBody_eq {n : Nat} {s : State} {p : Pixel} {rest : List Byte} (hy : s.dec.y.toNat < s.cfg.h.toNat)
    (hx : s.dec.x.toNat + n ≤ s.cfg.w.toNat) (hs : s.inp.drop s.dec.ip = p.bytes ++ rest) :
    repeatBody n s = .go (((s.setIp (s.dec.ip + 2)).setFb
      (writePixels s.fb (fbAddr s.cfg.w.toNat (s.cfg.h.toNat - 1 - s.dec.y.toNat) s.dec.x.toNat)
        (List.replicate n p))).setX (s.dec.x.toNat + n)) := by
  have ho : ¬ overrunsRow n s = true := by rw [overrunsRow_iff]; omega
  rw [repeatBody, if_neg ho, inPix_of_drop hs, placeRun_eq _ _ _ _ (by simpa using hy)]
  simp

/-- A COPY that fits its row and whose pixels are there (R203). -/
theorem copyBody_eq {ps : List Pixel} {s : State} {rest : List Byte} (hy : s.dec.y.toNat < s.cfg.h.toNat)
    (hx : s.dec.x.toNat + ps.length ≤ s.cfg.w.toNat) (hs : s.inp.drop s.dec.ip = pixelBytes ps ++ rest) :
    copyBody ps.length s = .go (((s.setIp (s.dec.ip + 2 * ps.length)).setFb
      (writePixels s.fb (fbAddr s.cfg.w.toNat (s.cfg.h.toNat - 1 - s.dec.y.toNat) s.dec.x.toNat) ps)).setX
        (s.dec.x.toNat + ps.length)) := by
  have ho : ¬ overrunsRow ps.length s = true := by rw [overrunsRow_iff]; omega
  rw [copyBody, if_neg ho, placeCopy_eq ps rest _ _ hy hs]
  simp

/-! ### The start of a command -/

/-- Every command but NOP begins in one of three ways (45_host_commands.md R253). -/
theorem startCommand_cases (code : BitVec 3) (body : State → Flow) (s : State) :
    (s.status.fault ≠ 0 ∧ startCommand code body s = .ended (s.setOp code)) ∨
    (s.status.fault = 0 ∧ (s.cfg.w = 0 ∨ (isDecodeCode code = true ∧ s.cfg.h = 0)) ∧
      startCommand code body s = .ended (raise (isDecodeCode code) .badConfig (s.setOp code))) ∨
    (s.status.fault = 0 ∧ s.cfg.w ≠ 0 ∧ (isDecodeCode code = true → s.cfg.h ≠ 0) ∧
      startCommand code body s = body (s.setOp code)) := by
  by_cases hf : s.status.fault = 0
  · have hf' : ¬ (s.setOp code).status.fault ≠ 0 := fun h => h hf
    by_cases hc : s.cfg.w = 0 ∨ (isDecodeCode code = true ∧ s.cfg.h = 0)
    · exact .inr (.inl ⟨hf, hc, (if_neg hf').trans (if_pos hc)⟩)
    · exact .inr (.inr ⟨hf, fun h => hc (.inl h), fun hd hh => hc (.inr ⟨hd, hh⟩), (if_neg hf').trans (if_neg hc)⟩)
  · exact .inl ⟨hf, if_pos hf⟩

/-- What DEC_BRUN_ROW and DEC_LC_LINE load: X.lc, X.y and X.x, and nothing else (10_state.md R56). -/
theorem startLine_eq (lc : Bool) (s : State) : startLine lc s = { s with dec := { s.dec with
    x := 0
    y := BitVec.ofNat 17 s.cmd.arg.toNat
    lc := lc } } := rfl

/-- `emit` of packets: they are appended in order and counted (10_state.md R40). -/
theorem emitAll_eq (s : State) (pks : List ResPacket) :
    s.emitAll pks = { s with
      res := { s.res with pk := s.res.pk ++ pks }
      status := { s.status with npk := BitVec.ofNat 16 (s.status.npk.toNat + pks.length) } } := by
  induction pks generalizing s with
  | nil => simp [State.emitAll]
  | cons pk rest ih =>
    rw [State.emitAll, ih]
    simp only [State.emit, List.append_assoc, List.singleton_append, List.length_cons, BitVec.toNat_ofNat]
    congr 2
    apply BitVec.eq_of_toNat_eq
    simp only [BitVec.toNat_ofNat]
    omega

end Sys2Proof.Machine
end

