-- ==== Sys2Proof/Laws/Decoder.lean ====
section
/-! SUPPORT. What the decoder's procedures can do at all, on any stream: one lemma per shared operation, from the byte
read up to the frame procedures. -/

namespace Sys2Proof.Machine

/-- `t` is a state a decode procedure can bring `s` to while it goes on: only X.ip, X.x, X.y, X.npk, X.lines and FB have
moved, X.ip forward and inside IN, FB inside the frame and still canonical. -/
structure Decodes (s t : State) : Prop where
  cfg : t.cfg = s.cfg
  cmd : t.cmd = s.cmd
  status : t.status = s.status
  enc : t.enc = s.enc
  dif : t.dif = s.dif
  res : t.res = s.res
  lcur : t.lcur = s.lcur
  lprev : t.lprev = s.lprev
  inp : t.inp = s.inp
  out : t.out = s.out
  host : t.host = s.host
  freeCtr : t.freeCtr = s.freeCtr
  lc : t.dec.lc = s.dec.lc
  pos : t.dec.pos = s.dec.pos
  ip_le : s.dec.ip ≤ t.dec.ip
  ip_end : t.dec.ip = s.dec.ip ∨ t.dec.ip ≤ s.inp.length
  fb_outside : ∀ a, 2 * (s.cfg.w.toNat * s.cfg.h.toNat) ≤ a → t.fb.read a = s.fb.read a
  fb_wf : s.fb.wf = true → t.fb.wf = true

theorem Decodes.refl (s : State) : Decodes s s := by
  constructor <;> first | rfl | exact Nat.le_refl _ | exact .inl rfl | exact fun _ _ => rfl | exact id

theorem Decodes.trans {s t u : State} (h : Decodes s t) (k : Decodes t u) : Decodes s u where
  cfg := k.cfg.trans h.cfg
  cmd := k.cmd.trans h.cmd
  status := k.status.trans h.status
  enc := k.enc.trans h.enc
  dif := k.dif.trans h.dif
  res := k.res.trans h.res
  lcur := k.lcur.trans h.lcur
  lprev := k.lprev.trans h.lprev
  inp := k.inp.trans h.inp
  out := k.out.trans h.out
  host := k.host.trans h.host
  freeCtr := k.freeCtr.trans h.freeCtr
  lc := k.lc.trans h.lc
  pos := k.pos.trans h.pos
  ip_le := Nat.le_trans h.ip_le k.ip_le
  ip_end := by
    rcases k.ip_end with e | e
    · rw [e]; exact h.ip_end
    · rw [h.inp] at e; exact .inr e
  fb_outside a ha := (k.fb_outside a (by rw [h.cfg]; exact ha)).trans (h.fb_outside a ha)
  fb_wf hs := k.fb_wf (h.fb_wf hs)

/-- A change of X.x, X.y, X.npk and X.lines alone. -/
theorem Decodes.of_counters (s : State) (x y : BitVec 17) (npk lines : BitVec 16) :
    Decodes s { s with dec := { s.dec with x := x, y := y, npk := npk, lines := lines } } := by
  constructor <;> first | rfl | exact Nat.le_refl _ | exact .inl rfl | exact fun _ _ => rfl | exact id

theorem Decodes.setX (s : State) (n : Nat) : Decodes s (s.setX n) := .of_counters s _ s.dec.y s.dec.npk s.dec.lines
theorem Decodes.setY (s : State) (n : Nat) : Decodes s (s.setY n) := .of_counters s s.dec.x _ s.dec.npk s.dec.lines
theorem Decodes.setNpk (s : State) (n : Nat) : Decodes s (s.setNpk n) := .of_counters s s.dec.x s.dec.y _ s.dec.lines
theorem Decodes.setLines (s : State) (n : Nat) : Decodes s (s.setLines n) := .of_counters s s.dec.x s.dec.y s.dec.npk _

theorem Decodes.setIp_succ {s : State} (h : s.dec.ip < s.inp.length) : Decodes s (s.setIp (s.dec.ip + 1)) := by
  constructor <;> first | rfl | exact Nat.le_succ _ | exact .inr h | exact fun _ _ => rfl | exact id

/-- The byte address of the last pixel of the frame lies inside it. -/
theorem fbAddr_lt {w h r x : Nat} (hr : r < h) (hx : x < w) : fbAddr w r x + 2 ≤ 2 * (w * h) := by
  have : (r + 1) * w ≤ h * w := Nat.mul_le_mul_right w hr
  rw [Nat.succ_mul, Nat.mul_comm h w] at this
  simp only [fbAddr, Config.bpp]
  omega

theorem Decodes.fbWrite {s : State} {r x : Nat} (hr : r < s.cfg.h.toNat) (hx : x < s.cfg.w.toNat) (p : Pixel) :
    Decodes s (s.fbWrite r x p) := by
  have hfb : ∀ a, 2 * (s.cfg.w.toNat * s.cfg.h.toNat) ≤ a → (s.fbWrite r x p).fb.read a = s.fb.read a := by
    intro a ha
    have := fbAddr_lt hr hx
    exact read_writePixel_ne _ _ (by omega)
  have hwf : s.fb.wf = true → (s.fbWrite r x p).fb.wf = true := fun h => writePixel_wf h _ _
  constructor <;> first | rfl | exact Nat.le_refl _ | exact .inl rfl | exact hfb | exact hwf

/-- `t` is what a decode procedure that started at `s` leaves when it ends the command: the record of one of the faults
`F`, taken in a state it can reach. -/
def Raised (F : FaultName → Prop) (s t : State) : Prop := ∃ u f, Decodes s u ∧ F f ∧ t = raise true f u

theorem Raised.of_decodes {F : FaultName → Prop} {s t u : State} (h : Decodes s t) (k : Raised F t u) : Raised F s u := by
  obtain ⟨v, f, hv, hf, rfl⟩ := k
  exact ⟨v, f, h.trans hv, hf, rfl⟩

theorem Raised.mono {F F' : FaultName → Prop} {s t : State} (h : Raised F s t) (hF : ∀ f, F f → F' f) : Raised F' s t := by
  obtain ⟨v, f, hv, hf, rfl⟩ := h
  exact ⟨v, f, hv, hF f hf, rfl⟩

/-- The faults a packet can raise. -/
def PacketFault (f : FaultName) : Prop := f = .truncatedStream ∨ f = .rowOverrun

/-- The faults a line or a row can raise. -/
def LineFault (f : FaultName) : Prop := f = .truncatedStream ∨ f = .rowOverrun ∨ f = .lineOverrun

theorem PacketFault.line {f : FaultName} (h : PacketFault f) : LineFault f := by
  rcases h with h | h
  · exact .inl h
  · exact .inr (.inl h)

/-! ### The reads of IN -/

/-- In8 either raises TruncatedStream or goes on one byte further. -/
theorem in8_sat {s : State} {k : Byte → State → Flow} {G E : State → Prop} {S : Prop}
    (hE : E (raise true .truncatedStream s))
    (hk : ∀ b, s.dec.ip < s.inp.length → (k b (s.setIp (s.dec.ip + 1))).Sat G E S) : (in8 s k).Sat G E S := by
  by_cases h : s.dec.ip < s.inp.length
  · rw [in8_eq_some h]; exact hk _ h
  · rw [in8_eq_none (by omega)]; exact hE

/-- In16 raises TruncatedStream after at most one byte, or goes on two bytes further; X.x and X.y stand. -/
theorem in16_sat {s : State} {k : BitVec 16 → State → Flow} {G E : State → Prop} {S : Prop}
    (hE : ∀ u, Decodes s u → E (raise true .truncatedStream u))
    (hk : ∀ w, s.dec.ip + 1 < s.inp.length → (k w (s.setIp (s.dec.ip + 2))).Sat G E S) : (in16 s k).Sat G E S := by
  apply in8_sat (hE s (.refl s))
  intro b0 h0
  apply in8_sat (hE _ (.setIp_succ h0))
  intro b1 h1
  exact hk _ h1

/-- InPix, as In16. -/
theorem inPix_sat {s : State} {k : Pixel → State → Flow} {G E : State → Prop} {S : Prop}
    (hE : ∀ u, Decodes s u → E (raise true .truncatedStream u))
    (hk : ∀ p, s.dec.ip + 1 < s.inp.length → (k p (s.setIp (s.dec.ip + 2))).Sat G E S) : (inPix s k).Sat G E S := by
  apply in8_sat (hE s (.refl s))
  intro b0 h0
  apply in8_sat (hE _ (.setIp_succ h0))
  intro b1 h1
  exact hk _ h1

theorem Decodes.setIp_two {s : State} (h : s.dec.ip + 1 < s.inp.length) : Decodes s (s.setIp (s.dec.ip + 2)) :=
  (Decodes.setIp_succ (Nat.lt_of_succ_lt h)).trans (Decodes.setIp_succ (s := s.setIp (s.dec.ip + 1)) h)

/-! ### Placing pixels and the bodies of the packets -/

/-- What a packet does while it goes on: it stays on its line. -/
structure OnLine (s t : State) : Prop extends Decodes s t where
  y : t.dec.y = s.dec.y
  npk : t.dec.npk = s.dec.npk
  lines : t.dec.lines = s.dec.lines

theorem OnLine.refl (s : State) : OnLine s s := ⟨.refl s, rfl, rfl, rfl⟩

theorem OnLine.trans {s t u : State} (h : OnLine s t) (k : OnLine t u) : OnLine s u :=
  ⟨h.toDecodes.trans k.toDecodes, k.y.trans h.y, k.npk.trans h.npk, k.lines.trans h.lines⟩

theorem OnLine.setX (s : State) (n : Nat) : OnLine s (s.setX n) := ⟨.setX s n, rfl, rfl, rfl⟩

theorem OnLine.setIp_two {s : State} (h : s.dec.ip + 1 < s.inp.length) : OnLine s (s.setIp (s.dec.ip + 2)) :=
  ⟨.setIp_two h, rfl, rfl, rfl⟩

/-- A pixel of the row is placed, unless X.r has no value. -/
theorem placePixel_sat {s : State} {p : Pixel} {col : Nat} (hc : col < s.cfg.w.toNat) {E : State → Prop} :
    (placePixel p col s).Sat (fun t => OnLine s t ∧ t.dec.x = s.dec.x) E (s.cfg.h.toNat ≤ s.dec.y.toNat) := by
  by_cases hy : s.dec.y.toNat < s.cfg.h.toNat
  · rw [placePixel_eq hy]
    exact ⟨⟨.fbWrite (by omega) hc p, rfl, rfl, rfl⟩, rfl⟩
  · rw [placePixel_stuck (by omega)]
    exact Nat.le_of_not_lt hy

theorem placeRun_sat {n : Nat} {p : Pixel} {col : Nat} {s : State} (hc : col + n ≤ s.cfg.w.toNat) {E : State → Prop} :
    (placeRun n p col s).Sat (fun t => OnLine s t ∧ t.dec.x = s.dec.x) E (s.cfg.h.toNat ≤ s.dec.y.toNat) := by
  induction n generalizing col s with
  | zero => exact ⟨.refl s, rfl⟩
  | succ n ih =>
    refine (placePixel_sat (by omega)).andThen fun t ht => ?_
    refine Flow.Sat.mono (ih (col := col + 1) (s := t) (by rw [ht.1.cfg]; omega)) ?_ (fun _ h => h) ?_
    · exact fun u hu => ⟨ht.1.trans hu.1, hu.2.trans ht.2⟩
    · rw [ht.1.cfg, ht.1.y]; exact id

theorem placeCopy_sat {n : Nat} {col : Nat} {s : State} (hc : col + n ≤ s.cfg.w.toNat) :
    (placeCopy n col s).Sat (fun t => OnLine s t ∧ t.dec.x = s.dec.x) (Raised PacketFault s)
      (s.cfg.h.toNat ≤ s.dec.y.toNat) := by
  induction n generalizing col s with
  | zero => exact ⟨.refl s, rfl⟩
  | succ n ih =>
    refine inPix_sat (fun u hu => ⟨u, _, hu, .inl rfl, rfl⟩) fun p hp => ?_
    have h0 := OnLine.setIp_two hp
    refine Flow.Sat.andThen (G := fun t => OnLine s t ∧ t.dec.x = s.dec.x) ?_ fun t ht => ?_
    · refine Flow.Sat.mono (placePixel_sat (by simpa using by omega)) ?_ (fun _ h => h) id
      exact fun u hu => ⟨h0.trans hu.1, hu.2⟩
    · refine Flow.Sat.mono (ih (col := col + 1) (s := t) (by rw [ht.1.cfg]; omega)) ?_ ?_ ?_
      · exact fun u hu => ⟨ht.1.trans hu.1, hu.2.trans ht.2⟩
      · exact fun u hu => hu.of_decodes ht.1.toDecodes
      · rw [ht.1.cfg, ht.1.y]; exact id

/-- Where X.x stands after a packet of `n` pixels. -/
structure PacketDone (n : Nat) (s t : State) : Prop extends OnLine s t where
  x : t.dec.x.toNat = s.dec.x.toNat + n
  fits : s.dec.x.toNat + n ≤ s.cfg.w.toNat

theorem PacketDone.of_setX {n : Nat} {s t : State} (h : OnLine s t) (hx : t.dec.x = s.dec.x)
    (hf : s.dec.x.toNat + n ≤ s.cfg.w.toNat) : PacketDone n s (t.setX (t.dec.x.toNat + n)) := by
  refine ⟨h.trans (.setX t _), ?_, hf⟩
  have := s.cfg.w.isLt
  simp [hx]
  omega

/-- A REPEAT: RowOverrun, TruncatedStream, or done. -/
theorem repeatBody_sat (n : Nat) (s : State) :
    (repeatBody n s).Sat (PacketDone n s) (Raised PacketFault s) (s.cfg.h.toNat ≤ s.dec.y.toNat) := by
  unfold repeatBody
  split
  · exact ⟨s, _, .refl s, .inr rfl, rfl⟩
  · rename_i ho
    rw [overrunsRow_iff] at ho
    refine inPix_sat (fun u hu => ⟨u, _, hu, .inl rfl, rfl⟩) fun p hp => ?_
    refine Flow.Sat.andThen (G := fun t => OnLine s t ∧ t.dec.x = s.dec.x) ?_ fun t ht => ?_
    · refine Flow.Sat.mono (placeRun_sat (by simpa using by omega)) ?_ (fun _ h => h) id
      exact fun u hu => ⟨(OnLine.setIp_two hp).trans hu.1, hu.2⟩
    · exact PacketDone.of_setX ht.1 ht.2 (by omega)

/-- A COPY: RowOverrun, TruncatedStream, or done. -/
theorem copyBody_sat (n : Nat) (s : State) :
    (copyBody n s).Sat (PacketDone n s) (Raised PacketFault s) (s.cfg.h.toNat ≤ s.dec.y.toNat) := by
  unfold copyBody
  split
  · exact ⟨s, _, .refl s, .inr rfl, rfl⟩
  · rename_i ho
    rw [overrunsRow_iff] at ho
    exact (placeCopy_sat (by omega)).andThen fun t ht => PacketDone.of_setX ht.1 ht.2 (by omega)

/-! ### The procedures of the commands -/

theorem brunPacket_sat {s : State} (hy : s.dec.y.toNat < s.cfg.h.toNat) :
    (brunPacket s).Sat (OnLine s) (Raised PacketFault s) False := by
  refine in8_sat ⟨s, _, .refl s, .inl rfl, rfl⟩ fun b hb => ?_
  have h0 : OnLine s (s.setIp (s.dec.ip + 1)) := ⟨.setIp_succ hb, rfl, rfl, rfl⟩
  have hs : (s.setIp (s.dec.ip + 1)).cfg.h.toNat ≤ (s.setIp (s.dec.ip + 1)).dec.y.toNat → False := by
    simp only [State.setIp_cfg, State.setIp_dec_y]; omega
  split
  · exact (repeatBody_sat _ _).mono (fun u hu => h0.trans hu.toOnLine) (fun u hu => hu.of_decodes h0.toDecodes) hs
  · exact (copyBody_sat _ _).mono (fun u hu => h0.trans hu.toOnLine) (fun u hu => hu.of_decodes h0.toDecodes) hs

theorem lcPacket_sat {s : State} (hy : s.dec.y.toNat < s.cfg.h.toNat) :
    (lcPacket s).Sat (OnLine s) (Raised PacketFault s) False := by
  refine in8_sat ⟨s, _, .refl s, .inl rfl, rfl⟩ fun skip hb => ?_
  have h0 : OnLine s (addSkip skip (s.setIp (s.dec.ip + 1))) :=
    OnLine.trans (t := s.setIp (s.dec.ip + 1)) ⟨.setIp_succ hb, rfl, rfl, rfl⟩ (.setX _ _)
  refine in8_sat ⟨_, _, h0.toDecodes, .inl rfl, rfl⟩ fun b hc => ?_
  have h1 := h0.trans ⟨.setIp_succ hc, rfl, rfl, rfl⟩
  split
  · exact (repeatBody_sat _ _).mono (fun u hu => h1.trans hu.toOnLine) (fun u hu => hu.of_decodes h1.toDecodes)
      (by rw [h1.cfg, h1.y]; omega)
  · exact (copyBody_sat _ _).mono (fun u hu => h1.trans hu.toOnLine) (fun u hu => hu.of_decodes h1.toDecodes)
      (by rw [h1.cfg, h1.y]; omega)

/-- `t` follows `s` with X.y where it was. -/
structure SameRow (s t : State) : Prop extends Decodes s t where
  y : t.dec.y = s.dec.y
  lines : t.dec.lines = s.dec.lines

theorem SameRow.trans {s t u : State} (h : SameRow s t) (k : SameRow t u) : SameRow s u :=
  ⟨h.toDecodes.trans k.toDecodes, k.y.trans h.y, k.lines.trans h.lines⟩

theorem OnLine.sameRow {s t : State} (h : OnLine s t) : SameRow s t := ⟨h.toDecodes, h.y, h.lines⟩

theorem SameRow.setNpk (s : State) (n : Nat) : SameRow s (s.setNpk n) := ⟨.setNpk s n, rfl, rfl⟩

theorem brunPackets_sat (n : Nat) {s : State} (hy : s.dec.y.toNat < s.cfg.h.toNat) :
    (brunPackets n s).Sat (SameRow s) (Raised PacketFault s) False := by
  induction n generalizing s with
  | zero => exact (OnLine.refl s).sameRow
  | succ n ih =>
    refine (brunPacket_sat hy).andThen fun t ht => ?_
    have h1 := ht.sameRow.trans (.setNpk t (t.dec.npk.toNat - 1))
    exact (ih (by rw [h1.cfg, h1.y]; exact hy)).mono (fun u hu => h1.trans hu) (fun u hu => hu.of_decodes h1.toDecodes) id

theorem lcPackets_sat (n : Nat) {s : State} (hy : s.dec.y.toNat < s.cfg.h.toNat) :
    (lcPackets n s).Sat (SameRow s) (Raised PacketFault s) False := by
  induction n generalizing s with
  | zero => exact (OnLine.refl s).sameRow
  | succ n ih =>
    refine (lcPacket_sat hy).andThen fun t ht => ?_
    have h1 := ht.sameRow.trans (.setNpk t (t.dec.npk.toNat - 1))
    exact (ih (by rw [h1.cfg, h1.y]; exact hy)).mono (fun u hu => h1.trans hu) (fun u hu => hu.of_decodes h1.toDecodes) id

/-- A BRUN row: LineOverrun only if the row is not in the frame. -/
theorem brunRow_sat (y : Nat) (s : State) :
    (brunRow y s).Sat (Decodes s)
      (Raised (fun f => PacketFault f ∨ (f = .lineOverrun ∧ s.cfg.h.toNat ≤ y % 2 ^ 17)) s) False := by
  simp only [brunRow]
  split
  · rename_i h
    rw [overrunsFrame_iff] at h
    exact ⟨_, _, .setY s y, .inr ⟨rfl, by simpa using h⟩, rfl⟩
  · rename_i h
    rw [overrunsFrame_iff, Nat.not_le] at h
    refine in8_sat ⟨_, _, .setY s y, .inl (.inl rfl), rfl⟩ fun k hk => ?_
    have h1 : Decodes s ((((s.setY y).setIp ((s.setY y).dec.ip + 1)).setNpk k.toNat).setX 0) :=
      (Decodes.setY s y).trans ((Decodes.setIp_succ hk).trans ((Decodes.setNpk _ _).trans (.setX _ _)))
    exact (brunPackets_sat _ (by simpa using h)).mono (fun u hu => h1.trans hu.toDecodes)
      (fun u hu => (hu.of_decodes h1).mono fun f hf => .inl hf) id

/-- Rows of a BRUN frame: no LineOverrun while they stay in the frame. -/
theorem brunRows_sat (n y : Nat) {s : State} (hy : y + n ≤ s.cfg.h.toNat) :
    (brunRows n y s).Sat (Decodes s) (Raised PacketFault s) False := by
  induction n generalizing y s with
  | zero => exact .refl s
  | succ n ih =>
    refine Flow.Sat.andThen (G := Decodes s) ?_ fun t ht => ?_
    · refine (brunRow_sat y s).mono (fun _ h => h) (fun u hu => hu.mono fun f hf => ?_) id
      rcases hf with hf | ⟨-, hf⟩
      · exact hf
      · have := s.cfg.h.isLt; omega
    · exact (ih (y + 1) (by rw [ht.cfg]; omega)).mono (fun u hu => ht.trans hu) (fun u hu => hu.of_decodes ht) id

theorem lcLine_sat (k : BitVec 16) (s : State) : (lcLine k s).Sat (Decodes s) (Raised LineFault s) False := by
  simp only [lcLine, pktsProc]
  split
  · exact ⟨s, _, .refl s, .inr (.inr rfl), rfl⟩
  · rename_i h
    rw [overrunsFrame_iff, Nat.not_le] at h
    have h1 : Decodes s ((s.setX 0).setNpk k.toNat) := (Decodes.setX s 0).trans (.setNpk _ _)
    rw [Flow.andThen_go]
    refine Flow.Sat.andThen (G := Decodes s) ?_ fun t ht => ht.trans (.setY _ _)
    exact (lcPackets_sat _ (by simpa using h)).mono (fun u hu => h1.trans hu.toDecodes)
      (fun u hu => (hu.of_decodes h1).mono fun f hf => hf.line) id

theorem lcEntry_sat (s : State) : (lcEntry s).Sat (Decodes s) (Raised LineFault s) False := by
  refine in16_sat (fun u hu => ⟨u, _, hu, .inl rfl, rfl⟩) fun w hw => ?_
  have h0 := Decodes.setIp_two hw
  split
  · have h1 := h0.trans (Decodes.setY _ ((s.setIp (s.dec.ip + 2)).dec.y.toNat + (-sext16 w).toNat))
    refine in16_sat (fun u hu => ⟨u, _, h1.trans hu, .inl rfl, rfl⟩) fun k hk => ?_
    have h2 := h1.trans (Decodes.setIp_two hk)
    exact (lcLine_sat _ _).mono (fun u hu => h2.trans hu) (fun u hu => hu.of_decodes h2) id
  · exact (lcLine_sat _ _).mono (fun u hu => h0.trans hu) (fun u hu => hu.of_decodes h0) id

theorem lcEntries_sat (n : Nat) (s : State) : (lcEntries n s).Sat (Decodes s) (Raised LineFault s) False := by
  induction n generalizing s with
  | zero => exact .refl s
  | succ n ih =>
    refine (lcEntry_sat s).andThen fun t ht => ?_
    have h1 := ht.trans (Decodes.setLines t (t.dec.lines.toNat - 1))
    exact (ih _).mono (fun u hu => h1.trans hu) (fun u hu => hu.of_decodes h1) id

theorem lcFrame_sat (s : State) : (lcFrame s).Sat (Decodes s) (Raised LineFault s) False := by
  refine in16_sat (fun u hu => ⟨u, _, hu, .inl rfl, rfl⟩) fun m hm => ?_
  have h1 := (Decodes.setIp_two hm).trans ((Decodes.setLines _ m.toNat).trans (.setY _ 0))
  exact (lcEntries_sat _ _).mono (fun u hu => h1.trans hu) (fun u hu => hu.of_decodes h1) id

end Sys2Proof.Machine
end

