-- ==== Sys2Proof/Laws/Encoder.lean ====
section
/-! SUPPORT. What one step of the run encoder and one step of the differ can do, the shapes of what they emit, and how the
lists of packets of a line are put together. -/

namespace Sys2Proof.Machine

/-! ### The run encoder -/

theorem tailMatches_iff (L : Nat → Pixel) (e : Enc) :
    tailMatches L e = true ↔
      e.la.toNat ≤ e.count.toNat ∧ ∀ k, k < e.la.toNat → L (e.idx.toNat - (k + 1)) = L e.idx.toNat := by
  simp [tailMatches]

/-- The five rules of the table of 40_rle_encoder_key.md R131, each with what it does. -/
theorem encStep_cases (L : Nat → Pixel) (e : Enc) :
    (e.mode = .copy ∧ tailMatches L e = true ∧ encStep L e = stepSwitch L e) ∨
    (e.mode = .copy ∧ tailMatches L e = false ∧ e.count.toNat = 127 ∧
      encStep L e = (freshPacket .copy e, [.copyOf (slice L e.start.toNat 127)])) ∨
    (e.mode = .copy ∧ tailMatches L e = false ∧ e.count.toNat ≠ 127 ∧ encStep L e = (extendPacket e, [])) ∨
    (e.mode = .repeated ∧ L e.idx.toNat = L e.start.toNat ∧ e.count.toNat = 127 ∧
      encStep L e = (freshPacket .repeated e, [.repeatOf 127 (L e.start.toNat)])) ∨
    (e.mode = .repeated ∧ L e.idx.toNat = L e.start.toNat ∧ e.count.toNat ≠ 127 ∧
      encStep L e = (extendPacket e, [])) ∨
    (e.mode = .repeated ∧ L e.idx.toNat ≠ L e.start.toNat ∧
      encStep L e = (freshPacket .copy e, [.repeatOf e.count.toNat (L e.start.toNat)])) := by
  cases hm : e.mode with
  | copy =>
    cases ht : tailMatches L e with
    | true => exact .inl ⟨rfl, rfl, by simp [encStep, hm, ht]⟩
    | false =>
      by_cases hc : e.count.toNat = 127
      · exact .inr (.inl ⟨rfl, rfl, hc, by simp [encStep, hm, ht, hc, Config.countMax]⟩)
      · exact .inr (.inr (.inl ⟨rfl, rfl, hc, by simp [encStep, hm, ht, hc, Config.countMax]⟩))
  | repeated =>
    by_cases hp : L e.idx.toNat = L e.start.toNat
    · by_cases hc : e.count.toNat = 127
      · exact .inr (.inr (.inr (.inl ⟨rfl, hp, hc, by simp [encStep, hm, hp, hc, Config.countMax]⟩)))
      · exact .inr (.inr (.inr (.inr (.inl ⟨rfl, hp, hc, by simp [encStep, hm, hp, hc, Config.countMax]⟩))))
    · exact .inr (.inr (.inr (.inr (.inr ⟨rfl, hp, by simp [encStep, hm, hp]⟩))))

/-- Every step moves E.idx on by one and leaves E.la, E.end, E.skip and E.first alone. -/
theorem encStep_frame (L : Nat → Pixel) (e : Enc) :
    (encStep L e).1.idx = BitVec.ofNat 16 (e.idx.toNat + 1) ∧ (encStep L e).1.la = e.la ∧
      (encStep L e).1.stop = e.stop ∧ (encStep L e).1.skip = e.skip ∧ (encStep L e).1.first = e.first := by
  rcases encStep_cases L e with ⟨-, -, h⟩ | ⟨-, -, -, h⟩ | ⟨-, -, -, h⟩ | ⟨-, -, -, h⟩ | ⟨-, -, -, h⟩ | ⟨-, -, h⟩ <;>
    rw [h] <;> exact ⟨rfl, rfl, rfl, rfl, rfl⟩

@[simp] theorem slice_length (L : Nat → Pixel) (a n : Nat) : (slice L a n).length = n := by simp [slice]

theorem slice_add (L : Nat → Pixel) (a n m : Nat) : slice L a (n + m) = slice L a n ++ slice L (a + n) m := by
  simp [slice, List.range_add, Nat.add_assoc]

theorem slice_congr {L M : Nat → Pixel} {a b n : Nat} (h : ∀ k, k < n → L (a + k) = M (b + k)) :
    slice L a n = slice M b n := by
  apply List.map_congr_left
  intro k hk
  exact h k (List.mem_range.mp hk)

theorem expandAll_append (ps qs : List Packet) : expandAll (ps ++ qs) = expandAll ps ++ expandAll qs := by
  simp [expandAll]

@[simp] theorem expand_length (pk : Packet) : pk.expand.length = pk.npix := by
  cases pk <;> simp [Packet.expand, Packet.npix]

/-- The pending packet ends at E.idx (10_state.md R34, R35): every step keeps that. -/
theorem encStep_pending {L : Nat → Pixel} {e : Enc} (h : e.start.toNat + e.count.toNat = e.idx.toNat)
    (hi : e.idx.toNat < 65535) :
    (encStep L e).1.start.toNat + (encStep L e).1.count.toNat = (encStep L e).1.idx.toNat := by
  have hl := e.la.isLt
  rcases encStep_cases L e with ⟨-, ht, h'⟩ | ⟨-, -, -, h'⟩ | ⟨-, -, hc, h'⟩ | ⟨-, -, -, h'⟩ | ⟨-, -, hc, h'⟩ | ⟨-, -, h'⟩
  · rw [tailMatches_iff] at ht
    simp [h', stepSwitch]
    omega
  · simp [h', freshPacket]; omega
  · have := e.count.isLt
    simp [h', extendPacket]; omega
  · simp [h', freshPacket]; omega
  · have := e.count.isLt
    simp [h', extendPacket]; omega
  · simp [h', freshPacket]; omega

/-- A step looks at no pixel beyond E.idx. -/
theorem encStep_congr {L M : Nat → Pixel} {e : Enc} {N : Nat} (hLM : ∀ k, k < N → L k = M k)
    (h : e.start.toNat + e.count.toNat = e.idx.toNat) (hi : e.idx.toNat < N) : encStep L e = encStep M e := by
  have hx := hLM _ hi
  have hs := hLM e.start.toNat (by omega)
  have ht : tailMatches L e = tailMatches M e := by
    apply Bool.eq_iff_iff.mpr
    rw [tailMatches_iff, tailMatches_iff, hx]
    constructor <;> rintro ⟨h1, h2⟩ <;> refine ⟨h1, fun k hk => ?_⟩
    · rw [← hLM _ (by omega)]; exact h2 k hk
    · rw [hLM _ (by omega)]; exact h2 k hk
  have hsl : ∀ n, n ≤ e.count.toNat → slice L e.start.toNat n = slice M e.start.toNat n := fun n hn =>
    slice_congr fun k hk => hLM _ (by omega)
  have hh := hsl (e.count.toNat - e.la.toNat) (by omega)
  unfold encStep
  rw [ht, hx, hs]
  split
  · split
    · simp only [stepSwitch, hh]
    · split
      · rename_i hc
        rw [hsl _ (by rw [hc])]
      · rfl
  · rfl

/-- A run looks at no pixel beyond its end. -/
theorem runSteps_congr {L M : Nat → Pixel} {e : Enc} {N n : Nat} (hLM : ∀ k, k < N → L k = M k)
    (h : e.start.toNat + e.count.toNat = e.idx.toNat) (hi : e.idx.toNat + n ≤ N) (hN : N ≤ 65535) :
    runSteps L n e = runSteps M n e := by
  induction n generalizing e with
  | zero =>
    have hs : 1 ≤ e.count.toNat → L e.start.toNat = M e.start.toNat := fun _ => hLM _ (by omega)
    have hsl : slice L e.start.toNat e.count.toNat = slice M e.start.toNat e.count.toNat :=
      slice_congr fun k hk => hLM _ (by omega)
    simp only [runSteps, flushRun, hsl]
    split
    · rename_i hc; rw [hs hc]
    · rfl
  | succ n ih =>
    have hidx := (encStep_frame M e).1
    have hn : (encStep M e).1.idx.toNat = e.idx.toNat + 1 := by
      rw [hidx, BitVec.toNat_ofNat]; omega
    simp only [runSteps]
    rw [encStep_congr hLM h (by omega), ih (encStep_pending h (by omega)) (by omega)]

/-- ENCODE_RUN looks at no pixel outside what lies below the run's end. -/
theorem encodeRun_congr {L M : Nat → Pixel} {s0 n : Nat} (hLM : ∀ k, k < s0 + n → L k = M k) (hN : s0 + n ≤ 65535)
    (e : Enc) (la : BitVec 2) : encodeRun L e s0 n la = encodeRun M e s0 n la := by
  have hs : s0 % 65536 = s0 := by omega
  exact runSteps_congr hLM (by simp [startRun]) (by simp [startRun, hs]) hN

/-! ### The line differ -/

/-- The two rules of 41_line_differ.md, R163 and R164. -/
theorem difStep_cases (C P : Nat → Pixel) (d : Dif) :
    (C d.idx.toNat = P d.idx.toNat ∧ (difStep C P d).1.len = 0 ∧ (difStep C P d).2 = openRecord d ∧
      (difStep C P d).1.skip = BitVec.ofNat 16 ((if subChunkOpen d then 0 else d.skip.toNat) + 1) ∧
      (difStep C P d).1.start = d.start) ∨
    (C d.idx.toNat ≠ P d.idx.toNat ∧ (difStep C P d).1.len = BitVec.ofNat 16 (d.len.toNat + 1) ∧
      (difStep C P d).2 = [] ∧ (difStep C P d).1.skip = d.skip ∧
      (difStep C P d).1.start = if subChunkOpen d then d.start else d.idx) := by
  by_cases h : C d.idx.toNat = P d.idx.toNat
  · exact .inl ⟨h, by simp [difStep, h]⟩
  · exact .inr ⟨h, by simp [difStep, h]⟩

theorem difStep_idx (C P : Nat → Pixel) (d : Dif) : (difStep C P d).1.idx = BitVec.ofNat 16 (d.idx.toNat + 1) := by
  unfold difStep
  split <;> rfl

theorem openRecord_closed {d : Dif} (h : d.len = 0) : openRecord d = [] := by simp [openRecord, subChunkOpen, h]

theorem openRecord_open {d : Dif} (h : 0 < d.len.toNat) :
    openRecord d = [{ skip := d.skip, start := d.start, length := d.len }] := by
  simp [openRecord, subChunkOpen, h]

/-! ### Lines of LC packets -/

theorem lcExtent_append (ps qs : List LcPacket) : lcExtent (ps ++ qs) = lcExtent ps + lcExtent qs := by
  induction ps with
  | nil => simp [lcExtent]
  | cons p ps ih => simp [lcExtent, ih, Nat.add_assoc]

theorem paintLine_append (m : Memory) (base x : Nat) (ps qs : List LcPacket) :
    paintLine m base x (ps ++ qs) = paintLine (paintLine m base x ps) base (x + lcExtent ps) qs := by
  induction ps generalizing m x with
  | nil => simp [paintLine, lcExtent]
  | cons p ps ih => simp [paintLine, lcExtent, ih, Nat.add_assoc]

/-- Attachment changes no packet (42_rle_encoder_delta.md R182). -/
theorem attachSkips_packets (e : Enc) (pks : List Packet) : (attachSkips e pks).2.map LcPacket.pk = pks := by
  induction pks generalizing e with
  | nil => rfl
  | cons pk rest ih => simp [attachSkips, ih]

theorem attachSkips_length (e : Enc) (pks : List Packet) : (attachSkips e pks).2.length = pks.length := by
  simpa using congrArg List.length (attachSkips_packets e pks)

/-- Only the first packet of a sub-chunk carries a skip (R182). -/
theorem attachSkips_rest {e : Enc} (he : e.first = false) (pks : List Packet) :
    (attachSkips e pks).2 = pks.map fun pk => { skip := 0, pk := pk } := by
  induction pks generalizing e with
  | nil => rfl
  | cons pk rest ih => simp [attachSkips, he, ih]

/-- A sub-chunk is encoded from registers loaded anew (10_state.md R56): what stood in them before does not matter. -/
theorem encodeSubChunk_regs (L : Nat → Pixel) (e f : Enc) (sc : SubChunk) :
    encodeSubChunk L e sc = encodeSubChunk L f sc := rfl

/-- A skip of `255 * q + t`, `1 <= t <= 255`, is split into `q` pure skips and `t` (R183). -/
theorem skipSplits_spec {n : Nat} (h : 1 ≤ n) :
    255 * skipSplits n + 1 ≤ n ∧ n ≤ 255 * skipSplits n + 255 := by
  simp only [skipSplits, Config.skipMax]
  omega

end Sys2Proof.Machine
end

