-- ==== Sys2Proof/Laws/Groups.lean ====
section
/-! SUPPORT. The lines of 60_exceptions.md R305 with the most packets, written as groups of pixels: how many packets they
give, and the memory that holds a line. The tests use it to show that the overflow statements speak of something. -/

namespace Sys2Proof.Machine

/-- The memory of a line buffer that holds the `n` pixels `f a`, `f (a + 1)`, … from pixel `a` on. -/
def lineCells (f : Nat → Pixel) (a n : Nat) : Memory :=
  match n with
  | 0 => []
  | n + 1 => (2 * a, (f a).b0) :: (2 * a + 1, (f a).b1) :: lineCells f (a + 1) n

theorem linePixel_lineCells (f : Nat → Pixel) (draw : Nat) (b : LineBuffer) (a n i : Nat) (h : a ≤ i) (hi : i < a + n) :
    linePixel draw b (lineCells f a n) i = f i := by
  induction n generalizing a with
  | zero => omega
  | succ n ih =>
    by_cases e : a = i
    · subst e
      simp [linePixel, lineCells, Memory.read, lineAddr, Config.bpp]
    · have := ih (a + 1) (by omega) (by omega)
      simp only [linePixel, lineCells, Memory.read, lineAddr, Config.bpp] at this ⊢
      rw [if_neg (by omega), if_neg (by omega), if_neg (by omega), if_neg (by omega)]
      exact this

/-- The pixels of a line of groups of `g`: each group is one pixel 0 and then pixels 1. -/
def groupPixel (g i : Nat) : Pixel := if i % g = 0 then ⟨0, 0⟩ else ⟨1, 0⟩

/-- A COPY pending that takes the new pixel, because the tail does not match. -/
theorem encStep_copy_extend {L : Nat → Pixel} {e : Enc} (hm : e.mode = .copy) (hc : e.count.toNat < 127)
    (ht : e.la.toNat ≤ e.count.toNat → ∃ k, k < e.la.toNat ∧ L (e.idx.toNat - (k + 1)) ≠ L e.idx.toNat) :
    encStep L e = (extendPacket e, []) := by
  have hf : tailMatches L e = false := by
    apply Bool.eq_false_iff.mpr
    intro h
    rw [tailMatches_iff] at h
    obtain ⟨k, hk, hn⟩ := ht h.1
    exact hn (h.2 k hk)
  simp [encStep, hm, hf, Config.countMax, Nat.ne_of_lt hc]

/-- One group of three pixels with look-ahead 1, from the REPEAT of the group before: two packets, and a REPEAT again. -/
theorem runSteps_group_delta {L : Nat → Pixel} {N i m : Nat} (hL : ∀ k, k < N → L k = groupPixel 3 k)
    (h3 : i % 3 = 0) (hN : i + 3 * m ≤ N) (hi : 2 ≤ i) (hb : N < 65536) {e : Enc} (he : e.mode = .repeated)
    (hc : e.count = 2) (hs : e.start = BitVec.ofNat 16 (i - 2)) (hx : e.idx = BitVec.ofNat 16 i) (hla : e.la = 1) :
    (runSteps L (3 * m) e).2.length = 2 * m + 1 := by
  induction m generalizing i e with
  | zero => simp [runSteps, flushRun, he, hc]
  | succ m ih =>
    have g0 : L i = ⟨0, 0⟩ := by rw [hL i (by omega)]; simp [groupPixel, h3]
    have g1 : L (i + 1) = ⟨1, 0⟩ := by rw [hL _ (by omega), groupPixel, if_neg (by omega)]
    have g2 : L (i + 1 + 1) = ⟨1, 0⟩ := by rw [hL _ (by omega), groupPixel, if_neg (by omega)]
    have gs : L (i - 2) = ⟨1, 0⟩ := by rw [hL _ (by omega), groupPixel, if_neg (by omega)]
    have n0 : i % 65536 = i := by omega
    have n1 : (i + 1) % 65536 = i + 1 := by omega
    have n2 : (i + 1 + 1) % 65536 = i + 1 + 1 := by omega
    have ns : (i - 2) % 65536 = i - 2 := by omega
    have s0 : encStep L e = (freshPacket .copy e, [.repeatOf 2 ⟨1, 0⟩]) := by
      simp [encStep, he, hx, hs, n0, ns, g0, gs, hc]
    have s1 : encStep L (freshPacket .copy e) = (extendPacket (freshPacket .copy e), []) := by
      apply encStep_copy_extend rfl (by simp [freshPacket])
      intro _
      refine ⟨0, by simp [freshPacket, hla], ?_⟩
      simp [freshPacket, hx, n0, n1, g0, g1]
    have s2 : encStep L (extendPacket (freshPacket .copy e)) =
        stepSwitch L (extendPacket (freshPacket .copy e)) := by
      have : tailMatches L (extendPacket (freshPacket .copy e)) = true := by
        rw [tailMatches_iff]
        refine ⟨by simp [extendPacket, freshPacket, hla], fun k hk => ?_⟩
        have : k = 0 := by simpa [extendPacket, freshPacket, hla] using hk
        subst this
        simp [extendPacket, freshPacket, hx, n1, n2, g1, g2]
      rw [encStep, if_pos this]
      rfl
    have e3 : 3 * (m + 1) = 3 * m + 1 + 1 + 1 := by omega
    rw [e3]
    simp only [runSteps, s0, s1, s2, List.length_append]
    rw [ih (i := i + 3) (by omega) (by omega) (by omega)]
    · simp [stepSwitch, extendPacket, freshPacket, hla]
      omega
    · rfl
    · simp [stepSwitch, extendPacket, freshPacket, hla]
    · simp [stepSwitch, extendPacket, freshPacket, hla, hx, n1, n2]
    · simp [stepSwitch, extendPacket, freshPacket, hla, hx, n1, n2]
    · exact hla

/-- A run of `3 * (m + 1)` pixels in groups of three gives `2 * (m + 1)` packets with look-ahead 1. -/
theorem encodeRun_groups_delta {L : Nat → Pixel} {m : Nat} (hL : ∀ k, k < 3 * (m + 1) → L k = groupPixel 3 k)
    (hb : 3 * (m + 1) < 65536) (e : Enc) : (encodeRun L e 0 (3 * (m + 1)) 1).2.length = 2 * (m + 1) := by
  have g0 : L 0 = ⟨0, 0⟩ := hL 0 (by omega)
  have g1 : L 1 = ⟨1, 0⟩ := hL 1 (by omega)
  have g2 : L 2 = ⟨1, 0⟩ := hL 2 (by omega)
  have e3 : 3 * (m + 1) = 3 * m + 1 + 1 + 1 := by omega
  have s0 : encStep L (startRun e 0 (3 * (m + 1)) 1) = (extendPacket (startRun e 0 (3 * (m + 1)) 1), []) :=
    encStep_copy_extend rfl (by simp [startRun]) (by simp [startRun])
  have s1 : encStep L (extendPacket (startRun e 0 (3 * (m + 1)) 1)) =
      (extendPacket (extendPacket (startRun e 0 (3 * (m + 1)) 1)), []) := by
    apply encStep_copy_extend rfl (by simp [startRun, extendPacket])
    intro _
    exact ⟨0, by simp [startRun, extendPacket], by simp [startRun, extendPacket, g0, g1]⟩
  have s2 : encStep L (extendPacket (extendPacket (startRun e 0 (3 * (m + 1)) 1))) =
      stepSwitch L (extendPacket (extendPacket (startRun e 0 (3 * (m + 1)) 1))) := by
    have : tailMatches L (extendPacket (extendPacket (startRun e 0 (3 * (m + 1)) 1))) = true := by
      rw [tailMatches_iff]
      refine ⟨by simp [extendPacket, startRun], fun k hk => ?_⟩
      have : k = 0 := by simpa [extendPacket, startRun] using hk
      subst this
      simp [extendPacket, startRun, g1, g2]
    rw [encStep, if_pos this]
    rfl
  have hr : encodeRun L e 0 (3 * (m + 1)) 1 = runSteps L (3 * m + 1 + 1 + 1) (startRun e 0 (3 * (m + 1)) 1) := by
    rw [encodeRun, ← e3]
  rw [hr]
  simp only [runSteps, s0, s1, s2, List.length_append]
  rw [runSteps_group_delta (i := 3) hL (by omega) (by omega) (by omega) hb]
  · simp [stepSwitch, extendPacket, startRun]
    omega
  all_goals rfl

/-- A line that is changed everywhere is one sub-chunk (41_line_differ.md R163 to R165). -/
theorem difSteps_all_changed {C P : Nat → Pixel} {N i n : Nat} (h : ∀ k, k < N → C k ≠ P k) (hN : i + n ≤ N)
    (hb : N < 65536) (hi : 1 ≤ i) :
    (difSteps C P n { idx := BitVec.ofNat 16 i, skip := 0, len := BitVec.ofNat 16 i, start := 0 }).2 =
      [{ skip := 0, start := 0, length := BitVec.ofNat 16 (i + n) }] := by
  have n0 : i % 65536 = i := by omega
  induction n generalizing i with
  | zero => simp [difSteps, openRecord, subChunkOpen, n0]; omega
  | succ n ih =>
    have hd : difStep C P { idx := BitVec.ofNat 16 i, skip := 0, len := BitVec.ofNat 16 i, start := 0 } =
        ({ idx := BitVec.ofNat 16 (i + 1), skip := 0, len := BitVec.ofNat 16 (i + 1), start := 0 }, []) := by
      simp [difStep, n0, h i (by omega), subChunkOpen, show 0 < i by omega]
    rw [difSteps, hd, ih (i := i + 1) (by omega) (by omega) (by omega), Nat.add_right_comm i 1 n]
    rfl

theorem differ_all_changed {C P : Nat → Pixel} {n : Nat} (h : ∀ k, k < n + 1 → C k ≠ P k) (hb : n + 1 < 65536) :
    (differ C P (n + 1)).2 = [{ skip := 0, start := 0, length := BitVec.ofNat 16 (n + 1) }] := by
  have hd : difStep C P { idx := 0, skip := 0, len := 0, start := 0 } =
      ({ idx := BitVec.ofNat 16 1, skip := 0, len := BitVec.ofNat 16 1, start := 0 }, []) := by
    simp [difStep, h 0 (by omega), subChunkOpen]
  rw [differ, difSteps, hd, difSteps_all_changed (N := n + 1) h (by omega) hb (by omega), Nat.add_comm 1 n]
  rfl

/-- The delta line of 60_exceptions.md R305: `3 * (m + 1)` changed pixels in groups of three give `2 * (m + 1)` packets. -/
theorem deltaLine_groups {C P : Nat → Pixel} {m : Nat} (hC : ∀ k, k < 3 * (m + 1) → C k = groupPixel 3 k)
    (hP : ∀ k, k < 3 * (m + 1) → C k ≠ P k) (hb : 3 * (m + 1) < 65536) (e : Enc) :
    (deltaLine C e (differ C P (3 * (m + 1))).2).2.length = 2 * (m + 1) := by
  have h3 : 3 * (m + 1) = 3 * m + 2 + 1 := by omega
  have hd := differ_all_changed (C := C) (P := P) (n := 3 * m + 2) (fun k hk => hP k (by omega)) (by omega)
  rw [← h3] at hd
  have hn : 3 * (m + 1) % 65536 = 3 * (m + 1) := by omega
  rw [hd]
  simp only [deltaLine, encodeSubChunk, skipSplits, BitVec.toNat_ofNat, List.append_nil, List.length_append, attachSkips_length, List.length_replicate, hn]
  have := encodeRun_groups_delta hC hb
  simpa [Config.laDelta] using this _

end Sys2Proof.Machine
end

