-- ==== Sys2Proof/Laws/PerInstr.lean ====
section
/-! SUPPORT. Per-instruction families, about an instruction as syntax only. -/

namespace Sys2Proof.Laws

/-- The header of an instruction is one or two bytes (30_encoding.md R91; a command is one byte). -/
def HeaderLength.Statement (i : Instr) : Prop := 1 ≤ (encode i).length ∧ (encode i).length ≤ 2

theorem HeaderLength.rowhdr (k : Byte) : HeaderLength.Statement (.rowhdr k) := by
  simp [HeaderLength.Statement, encode]
theorem HeaderLength.bRepeat (n : Nat) : HeaderLength.Statement (.bRepeat n) := by
  simp [HeaderLength.Statement, encode]
theorem HeaderLength.bCopy (n : Nat) : HeaderLength.Statement (.bCopy n) := by
  simp [HeaderLength.Statement, encode]
theorem HeaderLength.lines (m : BitVec 16) : HeaderLength.Statement (.lines m) := by
  simp [HeaderLength.Statement, encode, u16bytes]
theorem HeaderLength.lskip (rows : Nat) : HeaderLength.Statement (.lskip rows) := by
  simp [HeaderLength.Statement, encode, u16bytes]
theorem HeaderLength.pkts (k : BitVec 16) : HeaderLength.Statement (.pkts k) := by
  simp [HeaderLength.Statement, encode, u16bytes]
theorem HeaderLength.lCopy (s : Byte) (n : Nat) : HeaderLength.Statement (.lCopy s n) := by
  simp [HeaderLength.Statement, encode]
theorem HeaderLength.lRepeat (s : Byte) (n : Nat) : HeaderLength.Statement (.lRepeat s n) := by
  simp [HeaderLength.Statement, encode]
theorem HeaderLength.nop : HeaderLength.Statement .nop := by
  simp [HeaderLength.Statement, encode]
theorem HeaderLength.encKey : HeaderLength.Statement .encKey := by
  simp [HeaderLength.Statement, encode]
theorem HeaderLength.diff : HeaderLength.Statement .diff := by
  simp [HeaderLength.Statement, encode]
theorem HeaderLength.encDelta : HeaderLength.Statement .encDelta := by
  simp [HeaderLength.Statement, encode]
theorem HeaderLength.decBrunRow : HeaderLength.Statement .decBrunRow := by
  simp [HeaderLength.Statement, encode]
theorem HeaderLength.decBrunFrame : HeaderLength.Statement .decBrunFrame := by
  simp [HeaderLength.Statement, encode]
theorem HeaderLength.decLcLine : HeaderLength.Statement .decLcLine := by
  simp [HeaderLength.Statement, encode]
theorem HeaderLength.decLcFrame : HeaderLength.Statement .decLcFrame := by
  simp [HeaderLength.Statement, encode]

end Sys2Proof.Laws
end

