-- ==== Sys2Proof/Laws/Step.lean ====
section
/-! SUPPORT. What one step can find to do, and what a host access can do. -/

namespace Sys2Proof.Machine

/-- Between commands, with nothing left for the host to do. -/
theorem fetch_idle {s : State} (hp : s.dec.pos = .command) (hh : s.host = []) : fetch s = .idle := by
  simp [fetch, hp, hh]

/-- Between commands, a write of CMD.OP. -/
theorem fetch_command {s : State} (hp : s.dec.pos = .command) {code : BitVec 3} {rest : List HostAction}
    (hh : s.host = .writeOp code :: rest) : fetch s = .command (commandOf code) { s with host := rest } := by
  simp [fetch, hp, hh]

/-- Between commands, any other access. -/
theorem fetch_access {s : State} (hp : s.dec.pos = .command) {a : HostAccess} {rest : List HostAction}
    (hh : s.host = .access a :: rest) : fetch s = .access a { s with host := rest } := by
  simp [fetch, hp, hh]

/-- While a decode is in progress, an item or a header cut short. -/
theorem fetch_item {s : State} (hp : s.dec.pos ≠ .command) : fetch s = fetchItem s := by
  unfold fetch
  split <;> first | rfl | contradiction

/-- The code of the command of a code. -/
theorem commandCode_commandOf (code : BitVec 3) : commandCode (commandOf code) = some code := by
  revert code; decide

/-- What a host access leaves alone, whatever it is but RESET: the control and status registers the block writes, the
working registers of the encoder and the differ, the result lists, and what the host still has to do. -/
theorem hostAccess_frame {a : HostAccess} {s t : State} (h : hostAccess a s = .next t) (ha : a ≠ .reset) :
    t.cmd.op = s.cmd.op ∧ t.status = s.status ∧ t.enc = s.enc ∧ t.dif = s.dif ∧ t.res = s.res ∧ t.host = s.host ∧
      t.freeCtr = s.freeCtr ∧ t.dec.pos = s.dec.pos := by
  cases a <;> simp only [hostAccess] at h <;> (try split at h) <;> first
    | (exact absurd rfl ha)
    | (cases h; exact ⟨rfl, rfl, rfl, rfl, rfl, rfl, rfl, rfl⟩)
    | (cases h)

/-- A host access keeps the canonical form of each memory. -/
theorem hostAccess_wf {a : HostAccess} {s t : State} (h : hostAccess a s = .next t)
    (hl : s.lcur.wf = true) (hp : s.lprev.wf = true) (hf : s.fb.wf = true) :
    t.lcur.wf = true ∧ t.lprev.wf = true ∧ t.fb.wf = true := by
  cases a <;> simp only [hostAccess] at h <;> (try split at h) <;> first
    | (cases h; exact ⟨hl, hp, hf⟩)
    | (cases h; exact ⟨writePixel_wf hl _ _, hp, hf⟩)
    | (cases h; exact ⟨hl, writePixel_wf hp _ _, hf⟩)
    | (cases h; exact ⟨hl, hp, writePixel_wf hf _ _⟩)
    | (cases h; exact ⟨rfl, rfl, rfl⟩)
    | (cases h)

theorem mapNext_next (f : State → State) (s : State) : mapNext f (.next s) = .next (f s) := rfl
theorem mapNext_fault (f : State → State) (r : Fault) : mapNext f (.fault r) = .fault r := rfl
theorem mapNext_refused (f : State → State) (r : Refusal) : mapNext f (.refused r) = .refused r := rfl

end Sys2Proof.Machine
end

