-- ==== Sys2Proof/Tests/Slice0.lean ====
section
/-! SUPPORT. The smoke test of WellFormed, decoding of words written out from the encodings, one-step tests whose expected
results are the tables of spec/95_test_vectors.md, and a witness for the hypotheses of each statement. -/

namespace Sys2Proof.Tests

open Sys2Proof.Machine

/-! ### Helpers -/

/-- Bytes of numbers. -/
def bytes (l : List Nat) : List Byte := l.map (BitVec.ofNat 8)

/-- The pixel of a 16-bit value, `0x00AA` = bytes `AA 00`. -/
def px (n : Nat) : Pixel := ⟨BitVec.ofNat 8 n, BitVec.ofNat 8 (n / 256)⟩

/-- The next state of an outcome. -/
def next? (o : Host.Outcome State Fault Refusal) : Option State :=
  match o with
  | .next s => some s
  | .fault _ => none
  | .refused _ => none

/-- A memory that holds these pixels from address 0 on. -/
def pixelsAt0 (l : List Nat) : Memory := writePixels [] 0 (l.map px)

/-- After RESET, with CFG.W and CFG.H written. -/
def geom (w h : Nat) : State := { State.reset with cfg := { w := BitVec.ofNat 16 w, h := BitVec.ofNat 16 h } }

/-- With IN loaded. -/
def geomIn (w h : Nat) (l : List Nat) : State := { geom w h with inp := bytes l }

/-- A decode in progress at a position, with X.npk packets to go. -/
def decoding (w h npk : Nat) (p : Position) (l : List Nat) : State :=
  { geomIn w h l with dec := { State.reset.dec with npk := BitVec.ofNat 16 npk, pos := p } }

/-- The lines of an encode or diff command. -/
def linesOf (prev cur : List Nat) : State :=
  { geom cur.length 0 with lcur := pixelsAt0 cur, lprev := pixelsAt0 prev }

/-- A physical row of FB. -/
def row (s : State) (r : Nat) : List (Option Pixel) := (List.range s.cfg.w.toNat).map fun x => s.fbPixel r x

/-- What a decode leaves: STATUS.FAULT, FIP, FX, FY, and X.ip, X.x, X.y. -/
def decRecord (s : State) : List Nat :=
  [s.status.fault.toNat, s.status.fip, s.status.fx.toNat, s.status.fy.toNat, s.dec.ip, s.dec.x.toNat, s.dec.y.toNat]

/-- CMD.ARG names the row below a frame of one row, and an earlier line left X.x = 3. -/
def belowTheFrame : State := { geomIn 4 1 [1, 0] with
  cmd := { op := 0, arg := 1 }, dec := { State.reset.dec with x := 3 } }

/-! ### WellFormed smoke: every check refuses an ill-formed term, and its neighbour in range passes -/

theorem test_wf_bRepeat : (Instr.bRepeat 128).wellFormed = false ∧ (Instr.bRepeat 127).wellFormed = true := by decide
theorem test_wf_bCopy : (Instr.bCopy 0).wellFormed = false ∧ (Instr.bCopy 129).wellFormed = false ∧
    (Instr.bCopy 1).wellFormed = true ∧ (Instr.bCopy 128).wellFormed = true := by decide
theorem test_wf_lskip : (Instr.lskip 0).wellFormed = false ∧ (Instr.lskip 32769).wellFormed = false ∧
    (Instr.lskip 1).wellFormed = true ∧ (Instr.lskip 32768).wellFormed = true := by decide
theorem test_wf_lCopy : (Instr.lCopy 0 128).wellFormed = false ∧ (Instr.lCopy 0 0).wellFormed = true := by decide
theorem test_wf_lRepeat : (Instr.lRepeat 0 0).wellFormed = false ∧ (Instr.lRepeat 0 129).wellFormed = false ∧
    (Instr.lRepeat 0 128).wellFormed = true := by decide
theorem test_wf_brun_positions : Position.brunPacket.admits (.rowhdr 1) = false ∧
    Position.lcPacket.admits (.bRepeat 1) = false ∧ Position.rowHead.admits (.bCopy 1) = false := by decide
theorem test_wf_lc_positions : Position.lineHead.admits (.lines 1) = false ∧ Position.pktsWord.admits (.lskip 1) = false ∧
    Position.brunPacket.admits (.lCopy 0 1) = false ∧ Position.brunPacket.admits (.lRepeat 0 1) = false := by decide
theorem test_wf_pkts_position : Position.lineHead.admits (.pkts 32768) = false ∧
    Position.lineHead.admits (.pkts 32767) = true ∧ Position.pktsWord.admits (.pkts 32768) = true := by decide
theorem test_wf_commands_between : ∀ code : BitVec 3, Position.rowHead.admits (commandOf code) = false ∧
    Position.command.admits (commandOf code) = true := by decide

/-! ### Decoding of words written out from 30_encoding.md R91 to R105 and 45_host_commands.md R251 -/

theorem test_decode_rowhdr : decode .rowHead [0xFF] = .ok (.rowhdr 255, []) := by decide
theorem test_decode_bRepeat : decode .brunPacket [0x7F, 0x1F, 0x00] = .ok (.bRepeat 127, [0x1F, 0x00]) := by decide
theorem test_decode_bCopy : decode .brunPacket [0x80] = .ok (.bCopy 128, []) ∧
    decode .brunPacket [0xFC] = .ok (.bCopy 4, []) := by decide
theorem test_decode_lines : decode .frameHead [0x02, 0x01] = .ok (.lines 258, []) := by decide
theorem test_decode_lskip : decode .lineHead [0xFF, 0xFF] = .ok (.lskip 1, []) ∧
    decode .lineHead [0x00, 0x80] = .ok (.lskip 32768, []) := by decide
theorem test_decode_pkts : decode .lineHead [0xFF, 0x7F] = .ok (.pkts 32767, []) ∧
    decode .pktsWord [0x00, 0x80] = .ok (.pkts 32768, []) := by decide
theorem test_decode_lCopy : decode .lcPacket [0x02, 0x01, 0x09, 0x00] = .ok (.lCopy 2 1, [0x09, 0x00]) := by decide
theorem test_decode_lRepeat : decode .lcPacket [0x01, 0xFE] = .ok (.lRepeat 1 2, []) ∧
    decode .lcPacket [0x00, 0x80] = .ok (.lRepeat 0 128, []) := by decide
theorem test_decode_commands : ([0, 1, 2, 3, 4, 5, 6, 7].map fun b => decode .command [b]) =
    [.ok (.nop, []), .ok (.encKey, []), .ok (.diff, []), .ok (.encDelta, []), .ok (.decBrunRow, []),
      .ok (.decBrunFrame, []), .ok (.decLcLine, []), .ok (.decLcFrame, [])] := by decide
theorem test_decode_no_command : decode .command [8] = .error .notACommandCode := by decide
theorem test_table_words : decodeTableWord 24 0x1F04 = some (.bRepeat 4) ∧ decodeTableWord 8 0x85 = some (.bCopy 123) ∧
    decodeTableWord 16 0xFFFE = some (.lskip 2) ∧ decodeTableWord 16 0x0102 = some (.lCopy 2 1) ∧
    decodeTableWord 32 0x0055FE01 = some (.lRepeat 1 2) ∧ decodeTableWord 8 5 = some .decBrunFrame := by decide

/-! ### One step of each instruction; the source of each expected result is named -/

/-- 43_rle_decoder_brun.md R201. -/
theorem test_rowhdr : (next? (step (decoding 4 1 0 .rowHead [2]))).map
    (fun t => (t.dec.npk.toNat, t.dec.x.toNat, t.dec.ip, t.dec.pos)) = some (2, 0, 1, .brunPacket) := by decide
/-- 95_test_vectors.md 2.4, `01 04 1F 00`, its packet. -/
theorem test_bRepeat : (next? (step (decoding 4 1 1 .brunPacket [4, 0x1F, 0]))).map
    (fun t => (row t 0, decRecord t)) = some (List.replicate 4 (some (px 0x1F)), [0, 0, 0, 0, 3, 4, 0]) := by decide
/-- 2.4, `01 05 1F 00`, its packet. -/
theorem test_bRepeat_overrun : (next? (step (decoding 4 1 1 .brunPacket [5, 0x1F, 0]))).map
    (fun t => (row t 0, decRecord t)) = some (List.replicate 4 none, [2, 1, 0, 0, 1, 0, 0]) := by decide
/-- S2, its packet. -/
theorem test_bCopy : (next? (step (decoding 4 1 1 .brunPacket [0xFC, 0xAA, 0, 0xBB, 0, 0xCC, 0, 0xDD, 0]))).map
    (fun t => (row t 0, decRecord t)) =
      some ([some (px 0xAA), some (px 0xBB), some (px 0xCC), some (px 0xDD)], [0, 0, 0, 0, 9, 4, 0]) := by decide
/-- 2.4, `01 FC AA 00 BB`, its packet. -/
theorem test_bCopy_truncated : (next? (step (decoding 4 1 1 .brunPacket [0xFC, 0xAA, 0, 0xBB]))).map
    (fun t => (row t 0, decRecord t)) = some ([some (px 0xAA), none, none, none], [1, 4, 0, 0, 4, 0, 0]) := by decide
/-- 44_rle_decoder_lc.md R221. -/
theorem test_lines : (next? (step (decoding 4 2 0 .frameHead [2, 1]))).map
    (fun t => (t.dec.lines.toNat, t.dec.y.toNat, t.dec.pos)) = some (258, 0, .lineHead) := by decide
/-- R222. -/
theorem test_lskip : (next? (step (decoding 4 4 0 .lineHead [0xFE, 0xFF]))).map
    (fun t => (t.dec.y.toNat, t.dec.ip, t.dec.pos)) = some (2, 2, .pktsWord) := by decide
/-- R226, the last row and the row below it. -/
theorem test_pkts : (next? (exec (.pkts 3) { geom 4 2 with dec := { State.reset.dec with x := 9, y := 1 } })).map
    (fun t => (t.dec.x.toNat, t.dec.npk.toNat, t.status.fault.toNat)) = some (0, 3, 0) := by decide
theorem test_pkts_overrun : (next? (exec (.pkts 3) { geom 4 2 with dec := { State.reset.dec with x := 9, y := 2 } })).map
    decRecord = some [3, 0, 9, 2, 0, 9, 2] := by decide
/-- 2.5, `01 00 01 00 02 01 09 00`, its packet. -/
theorem test_lCopy : (next? (step (decoding 4 2 1 .lcPacket [2, 1, 9, 0]))).map
    (fun t => (row t 1, t.dec.ip, t.dec.x.toNat)) = some ([none, none, some (px 9), none], 4, 3) := by decide
/-- 2.5, `01 00 01 00 05 00`, its packet: a skip beyond the row. -/
theorem test_lCopy_skip_overrun : (next? (step (decoding 4 2 1 .lcPacket [5, 0]))).map decRecord =
    some [2, 2, 5, 0, 2, 5, 0] := by decide
/-- 2.5, `01 00 01 00 01 FE 55 00`, its packet. -/
theorem test_lRepeat : (next? (step (decoding 4 2 1 .lcPacket [1, 0xFE, 0x55, 0]))).map
    (fun t => (row t 1, t.dec.ip, t.dec.x.toNat)) = some ([none, some (px 0x55), some (px 0x55), none], 4, 3) := by decide
/-- 2.5, `01 00 01 00 00 80 55 00`, its packet. -/
theorem test_lRepeat_overrun : (next? (step (decoding 4 2 1 .lcPacket [0, 0x80, 0x55, 0]))).map decRecord =
    some [2, 2, 0, 0, 2, 0, 0] := by decide
/-- 2.6, NOP with a fault recorded. -/
theorem test_nop : (next? (exec .nop { State.reset with cmd := { op := 1, arg := 7 }, status :=
    { State.reset.status with fault := 5 } })).map (fun t => (t.cmd.op.toNat, t.cmd.arg.toNat, t.status.fault.toNat)) =
      some (0, 7, 5) := by decide
/-- S3. -/
theorem test_encKey : (next? (exec .encKey (linesOf [] [0xAA, 0xBB, 0xBB, 0xBB, 0xCC]))).map State.out =
    some (bytes [3, 0xFF, 0xAA, 0, 3, 0xBB, 0, 0xFF, 0xCC, 0]) := by decide
/-- 2.1, `A A`: two identical pixels make no REPEAT. -/
theorem test_encKey_pair : (next? (exec .encKey (linesOf [] [0xAA, 0xAA]))).map State.out =
    some (bytes [1, 0xFE, 0xAA, 0, 0xAA, 0]) := by decide
/-- 2.2, `u c c c u u c c`. -/
theorem test_diff : (next? (exec .diff (linesOf [0, 0, 0, 0, 0, 0, 0, 0] [0, 1, 1, 1, 0, 0, 1, 1]))).map
    (fun t => (t.res.sc, t.status.nsc.toNat, t.status.changed, t.out)) =
      some ([⟨1, 1, 3⟩, ⟨2, 6, 2⟩], 2, true, []) := by decide
/-- 2.2, one byte differs. -/
theorem test_diff_byte : (next? (exec .diff (linesOf [0x001F] [0x011F]))).map (fun t => t.res.sc) =
    some [⟨0, 0, 1⟩] := by decide
/-- 2.3, `8; 10 11 …; 10 21 …`. -/
theorem test_encDelta : (next? (exec .encDelta (linesOf [0x10, 0x11, 0x12, 0x13, 0x14, 0x15, 0x16, 0x17]
    [0x10, 0x21, 0x21, 0x21, 0x14, 0x15, 0x26, 0x27]))).map State.out =
      some (bytes [2, 0, 1, 0xFD, 0x21, 0, 2, 2, 0x26, 0, 0x27, 0]) := by decide
/-- S4, equal lines. -/
theorem test_encDelta_equal : (next? (exec .encDelta (linesOf [1, 2] [1, 2]))).map
    (fun t => (t.out, t.res.pk, t.status.changed)) = some ([], [], false) := by decide
/-- 2.4, `02 03 1F 00 FE AA 00 BB 00`, with X.npk as in P6. -/
theorem test_decBrunRow : (next? (exec .decBrunRow (geomIn 4 1 [2, 3, 0x1F, 0, 0xFE, 0xAA, 0, 0xBB, 0]))).map
    (fun t => (row t 0, decRecord t, t.dec.npk.toNat)) =
      some ([some (px 0x1F), some (px 0x1F), some (px 0x1F), none], [2, 5, 3, 0, 5, 3, 0], 1) := by decide
/-- 2.4, CMD.ARG = 1; and where an earlier line left X.x = 3, which the command loads with 0 (10_state.md R56). -/
theorem test_decBrunRow_below : (next? (exec .decBrunRow
    { geomIn 4 1 [1, 4, 0x1F, 0] with cmd := { op := 0, arg := 1 } })).map decRecord = some [3, 0, 0, 1, 0, 0, 1] ∧
    (next? (exec .decBrunRow belowTheFrame)).map decRecord = some [3, 0, 0, 1, 0, 0, 1] := by decide
/-- P2, the decode. -/
theorem test_decBrunFrame : (next? (exec .decBrunFrame (geomIn 3 2 [1, 3, 4, 0, 1, 0xFD, 1, 0, 2, 0, 3, 0]))).map
    (fun t => (row t 0, row t 1, decRecord t)) =
      some ([some (px 1), some (px 2), some (px 3)], List.replicate 3 (some (px 4)), [0, 0, 0, 0, 12, 3, 1]) := by decide
/-- 2.5, DEC_LC_LINE. -/
theorem test_decLcLine : (next? (exec .decLcLine { geomIn 4 1 [1, 0, 2, 1, 9, 0] with fb := pixelsAt0 [1, 2, 3, 4] })).map
    (fun t => (row t 0, decRecord t)) =
      some ([some (px 1), some (px 2), some (px 9), some (px 4)], [0, 0, 0, 0, 6, 3, 1]) := by decide
/-- 2.5, DEC_LC_LINE with CMD.ARG = 1: IN empty; and PKTS there, where an earlier line left X.x = 3. -/
theorem test_decLcLine_below : (next? (exec .decLcLine { geomIn 4 1 [] with cmd := { op := 0, arg := 1 } })).map
    decRecord = some [1, 0, 0, 1, 0, 0, 1] ∧
    (next? (exec .decLcLine belowTheFrame)).map decRecord = some [3, 2, 0, 1, 2, 0, 1] := by decide
/-- P5. -/
theorem test_decLcFrame : (next? (exec .decLcFrame
    (geomIn 4 4 [2, 0, 0xFF, 0xFF, 1, 0, 2, 1, 0x99, 0, 0xFF, 0xFF, 1, 0, 0, 0xFC, 0x77, 0]))).map
    (fun t => (row t 0, row t 2, decRecord t)) =
      some (List.replicate 4 (some (px 0x77)), [none, none, some (px 0x99), none], [0, 0, 0, 0, 18, 4, 4]) := by decide
/-- 2.5, `01 00 FE FF 01 00`; and three lines on two rows, where FX is the value left by the previous line. -/
theorem test_decLcFrame_below : (next? (exec .decLcFrame (geomIn 4 2 [1, 0, 0xFE, 0xFF, 1, 0]))).map decRecord =
    some [3, 6, 0, 2, 6, 0, 2] ∧ (next? (exec .decLcFrame (geomIn 4 2
      [3, 0, 1, 0, 0, 0xFC, 0x77, 0, 1, 0, 0, 0xFC, 0x88, 0, 1, 0]))).map decRecord = some [3, 16, 4, 2, 16, 4, 2] := by decide

/-! ### Witnesses: for each statement, states and operands that meet its hypotheses, clause by clause -/

/-- A state with a fault recorded. -/
def faulty (code : BitVec 3) : State := { geomIn 4 1 [1, 4, 0x1F, 0] with
  status := { State.reset.status with fault := code } }

/-- With the host's actions to come. -/
def withHost (s : State) (l : List HostAction) : State := { s with host := l }

theorem witness_ResetPutsEveryRegisterBack : (withHost (faulty 3) [.access .reset]).dec.pos = .command ∧
    (withHost (faulty 3) [.access .reset]).host = .access .reset :: [] := by decide
theorem witness_OnlyResetClearsFault : (next? (step (withHost (faulty 3) [.access .reset]))).map
    (fun t => t.status.fault) = some 0 ∧ (withHost (faulty 3) [.access .reset]).status.fault ≠ 0 := by decide
theorem witness_FaultRefusesEveryCommandButNop : (faulty 7).status.fault ≠ 0 ∧ commandCode .diff = some 2 ∧
    Instr.diff ≠ .nop := by decide
theorem witness_NopChangesOnlyCmdOp : (faulty 1).status.fault ≠ 0 ∧ commandCode .decLcFrame = some 7 ∧ (7 : BitVec 3) ≠ 0 := by
  decide
theorem witness_ZeroGeometryRaisesBadConfig :
    ((geom 0 1).dec.pos = .command ∧ (geom 0 1).status.fault = 0 ∧ (geom 0 1).cfg.w = 0 ∧
      commandCode .encKey = some 1) ∧
    ((geom 1 0).dec.pos = .command ∧ (geom 1 0).status.fault = 0 ∧ isDecodeCode 7 = true ∧ (geom 1 0).cfg.h = 0 ∧
      commandCode .decLcFrame = some 7) := by decide
theorem witness_HostPixelWritesReadBack : 0 < 65535 ∧ 65534 < 65535 ∧ 1 < (geom 3 2).cfg.h.toNat ∧
    2 < (geom 3 2).cfg.w.toNat ∧ ¬ (1 = 1 ∧ 1 = 2) := by decide
theorem witness_FrameBufferByteView :
    next? (hostAccess (.writeW 2) (geom 3 2)) = some (geom 2 2) ∧
    memRead (pixelsAt0 [0x1234]) 0 2 = [some 0x34, some 0x12] := by decide
theorem witness_StepsKeepMemoriesCanonical :
    (withHost { geomIn 1 1 [1, 1, 0x1F, 0] with fb := [(0, 1), (1, 2)] } [.writeOp 4]).memoriesCanonical = true ∧
    (next? (step (withHost { geomIn 1 1 [1, 1, 0x1F, 0] with fb := [(0, 1), (1, 2)] } [.writeOp 4]))).map State.fb =
      some [(0, 0x1F), (1, 0)] := by decide
theorem witness_StreamReadsAreByteByByte : (geomIn 1 1 []).inp.length ≤ (geomIn 1 1 []).dec.ip ∧
    (geomIn 1 1 [7]).dec.ip < (geomIn 1 1 [7]).inp.length ∧
    (geomIn 1 1 [7]).inp.drop (geomIn 1 1 [7]).dec.ip = [7] ∧
    (geomIn 1 1 [7, 8]).inp.drop (geomIn 1 1 [7, 8]).dec.ip = 7 :: 8 :: [] := by decide
theorem witness_SignConventionsAreOpposite : (0x00 : Byte).toNat < 128 ∧ (0x7F : Byte).toNat < 128 ∧
    128 ≤ (0x80 : Byte).toNat ∧ 128 ≤ (0xFF : Byte).toNat := by decide
theorem witness_DecodeInvertsEncode : (Instr.bCopy 128).wellFormedAt .brunPacket = true ∧
    (Instr.bRepeat 0).wellFormedAt .brunPacket = true ∧ (Instr.lskip 32768).wellFormedAt .lineHead = true ∧
    (Instr.pkts 32767).wellFormedAt .lineHead = true ∧ (Instr.pkts 65535).wellFormedAt .pktsWord = true ∧
    (Instr.lRepeat 255 128).wellFormedAt .lcPacket = true ∧ (Instr.rowhdr 255).wellFormedAt .rowHead = true ∧
    (Instr.lines 65535).wellFormedAt .frameHead = true ∧ Instr.nop.wellFormedAt .command = true := by decide
theorem witness_EncodeInvertsDecode : decode .lcPacket [0, 0x80, 9] = .ok (.lRepeat 0 128, [9]) ∧
    Position.lcPacket ≠ .command ∧ 2 ≤ [(0 : Byte), 0x80].length ∧
    decode .command [8] = .error .notACommandCode ∧ decode .command [7] = .ok (.decLcFrame, []) := by decide
theorem witness_PlacedTableWordIsFetched :
    (0 < 8 ∧ decodeTableWord 8 7 = some .decLcFrame ∧ tablePosition 8 7 = .command) ∧
    (0 < 24 ∧ decodeTableWord 24 0x1F7F = some (.bRepeat 127) ∧ tablePosition 24 0x1F7F ≠ .command) := by decide
theorem witness_StepRunsTheDecodedItem : (decoding 4 1 1 .brunPacket [4, 0x1F, 0]).dec.pos ≠ .command ∧
    decode .brunPacket ((decoding 4 1 1 .brunPacket [4, 0x1F, 0]).inp.drop 0) = .ok (.bRepeat 4, [0x1F, 0]) := by decide
theorem witness_StepTakesTheHostsNextAction : (geom 4 1).dec.pos = .command ∧ (geom 4 1).host = [] ∧
    (withHost (geom 4 1) [.writeOp 7]).host = .writeOp 7 :: [] ∧
    (withHost (geom 4 1) [.access .clearOut]).host = .access .clearOut :: [] := by decide
theorem witness_CutHeaderRaisesTruncatedStream :
    decode .lcPacket ((decoding 4 1 1 .lcPacket [255]).inp.drop 0) = .error .headerCut ∧
    decode .rowHead ((decoding 4 1 1 .rowHead []).inp.drop 0) = .error .headerCut ∧
    (decoding 4 1 1 .lcPacket [255]).dec.x.toNat ≤ (decoding 4 1 1 .lcPacket [255]).cfg.w.toNat ∧
    (decoding 4 1 1 .rowHead []).dec.pos ≠ .lcPacket := by decide
theorem witness_RowhdrLoadsPacketCount : (decoding 4 1 0 .rowHead []).dec.pos = .rowHead ∧
    (decoding 4 1 0 .rowHead []).inp.length ≤ (decoding 4 1 0 .rowHead []).dec.ip := by decide
theorem witness_LinesLoadsLineCount :
    ((decoding 4 1 0 .frameHead [0, 0]).dec.pos = .frameHead ∧
      (decoding 4 1 0 .frameHead [0, 0]).inp.drop 0 = 0 :: 0 :: []) ∧
    (decoding 4 1 0 .frameHead [1]).inp.length ≤ (decoding 4 1 0 .frameHead [1]).dec.ip + 1 := by decide
theorem witness_LskipMovesTheRow : 1 ≤ 32768 ∧ 32768 ≤ 32768 ∧ 1 ≤ 1 ∧
    ({ geom 4 1 with dec := { State.reset.dec with y := 65535 } } : State).dec.y.toNat ≤ 65535 ∧
    (decoding 4 4 0 .lineHead []).dec.pos = .lineHead := by decide
theorem witness_PktsStartsTheLine : (geom 4 0).cfg.h.toNat ≤ (geom 4 0).dec.y.toNat ∧
    (geom 4 1).dec.y.toNat < (geom 4 1).cfg.h.toNat := by decide

/-- A packet at column 1 of the last row of a frame of 4 by 2. -/
def atPacket (l : List Nat) : State := { geomIn 4 2 l with dec := { State.reset.dec with x := 1, y := 1 } }

theorem witness_BrunRepeatPaintsTheRun : (atPacket [0x1F, 0]).dec.y.toNat < (atPacket [0x1F, 0]).cfg.h.toNat ∧
    (atPacket [0x1F, 0]).dec.x.toNat + 3 ≤ (atPacket [0x1F, 0]).cfg.w.toNat ∧
    (atPacket [0x1F, 0]).inp.drop (atPacket [0x1F, 0]).dec.ip = (px 0x1F).b0 :: (px 0x1F).b1 :: [] := by decide
theorem witness_BrunCopyPaintsThePixels :
    (atPacket [1, 0, 2, 0, 3, 0, 9]).dec.x.toNat + [px 1, px 2, px 3].length ≤ (atPacket []).cfg.w.toNat ∧
    (atPacket [1, 0, 2, 0, 3, 0, 9]).inp.drop 0 = pixelBytes [px 1, px 2, px 3] ++ [9] := by decide
theorem witness_LcCopySkipsThenPaints :
    (atPacket [1, 0, 2, 0]).dec.x.toNat + (1 : Byte).toNat + [px 1, px 2].length ≤ (atPacket []).cfg.w.toNat ∧
    (atPacket [1, 0, 2, 0]).inp.drop 0 = pixelBytes [px 1, px 2] ++ [] ∧
    (atPacket []).dec.x.toNat + (3 : Byte).toNat + ([] : List Pixel).length ≤ (atPacket []).cfg.w.toNat := by decide
theorem witness_LcRepeatSkipsThenPaints :
    (atPacket [1, 0]).dec.x.toNat + (1 : Byte).toNat + 2 ≤ (atPacket [1, 0]).cfg.w.toNat ∧
    (atPacket [1, 0]).inp.drop 0 = (px 1).b0 :: (px 1).b1 :: [] := by decide
theorem witness_PaintedPixelsReadBack : 1 + [px 1, px 2, px 3].length ≤ (geom 4 2).cfg.w.toNat := by decide
theorem witness_OverrunningPacketRaisesRowOverrun : (atPacket []).dec.x.toNat ≤ (atPacket []).cfg.w.toNat ∧
    (atPacket []).cfg.w.toNat < (atPacket []).dec.x.toNat + 4 ∧
    (atPacket []).cfg.w.toNat < (atPacket []).dec.x.toNat + (4 : Byte).toNat + 0 := by decide
theorem witness_CutPayloadKeepsWholePixels :
    ((atPacket [1, 0, 2]).inp.drop 0 = pixelBytes [px 1] ++ [2] ∧ [(2 : Byte)].length ≤ 1 ∧ [px 1].length < 3 ∧
      (atPacket []).dec.y.toNat < (atPacket []).cfg.h.toNat ∧
      (atPacket []).dec.x.toNat + 3 ≤ (atPacket []).cfg.w.toNat) ∧
    ([px 1].length < 2 ∧ (atPacket []).dec.x.toNat + (1 : Byte).toNat + 2 ≤ (atPacket []).cfg.w.toNat) ∧
    ((atPacket [2]).inp.drop 0 = pixelBytes [] ++ [2] ∧ (atPacket [2]).dec.x.toNat + 3 ≤ (atPacket [2]).cfg.w.toNat ∧
      (atPacket [2]).dec.x.toNat + (3 : Byte).toNat + 0 ≤ (atPacket [2]).cfg.w.toNat) := by decide
theorem witness_EveryCommandEndsInANextState : commandCode .nop = some 0 ∧ commandCode .decLcFrame = some 7 := by decide

/-- DEC_BRUN_ROW on a row of one REPEAT. -/
def decodesRow : State := geomIn 4 1 [1, 4, 0x1F, 0]

theorem witness_UnitsShareNoWorkingRegister : decodesRow.dec.pos = .command ∧
    (next? (exec .decBrunRow decodesRow)).isSome = true ∧ isDecodeCode 4 = true ∧ isDecodeCode 1 = false ∧
    (next? (exec .encKey (linesOf [] [1]))).isSome = true ∧
    (next? (exec .diff (linesOf [1] [1]))).isSome = true := by decide
theorem witness_NoInstructionReadsTheFrameBuffer :
    ((next? (exec .decBrunRow decodesRow)).map fun t => t.fb.read 0) = some (some 0x1F) ∧
    ((next? (exec .decBrunRow { decodesRow with fb := [(0, 9), (8, 7)] })).map fun t => (t.fb.read 0, t.fb.read 8)) =
      some (some 0x1F, some 7) := by decide
theorem witness_InstructionsStayInsideFrameAndStream : (next? (exec .decBrunRow decodesRow)).map (fun t => t.dec.ip) =
    some 4 := by decide
theorem witness_RowOutsideTheFrameRaisesLineOverrun :
    belowTheFrame.status.fault = 0 ∧ belowTheFrame.cfg.w ≠ 0 ∧ belowTheFrame.cfg.h ≠ 0 ∧
    belowTheFrame.cfg.h.toNat ≤ belowTheFrame.cmd.arg.toNat ∧ belowTheFrame.dec.x ≠ 0 ∧
    belowTheFrame.inp.drop belowTheFrame.dec.ip = 1 :: 0 :: [] ∧
    { belowTheFrame with inp := [1] }.inp.length ≤ belowTheFrame.dec.ip + 1 := by decide
theorem witness_FaultRecordsWhereItStopped :
    (decodesRow.status.fault = 0 ∧ (next? (exec .decBrunRow (geomIn 4 1 [1, 5]))).map (fun t => t.status.fault) = some 2) ∧
    ((geom 0 0).status.fault = 0 ∧ (next? (exec .encKey (geom 0 0))).map (fun t => t.status.fault) = some 5) := by decide
theorem witness_CommandsRaiseOnlyTheirFaults : (geom 0 0).status.fault = 0 ∧
    (next? (exec .encKey (geom 0 0))).map (fun t => t.status.fault) = some FaultName.badConfig.code ∧
    (next? (exec .decBrunRow decodesRow)).map (fun t => t.status.fault) = some 0 := by decide
theorem witness_PacketCountOverflowNeedsAWideLine : (geom 511 0).status.fault = 0 ∧ (geom 511 0).cfg.w ≠ 0 ∧
    (geom 511 0).cfg.w.toNat ≤ 511 ∧ (geom 49151 0).cfg.w ≠ 0 ∧ (geom 49151 0).cfg.w.toNat ≤ 49151 := by decide

/-- The narrowest row that overflows (60_exceptions.md R305). -/
def wideRow : State := { geom 512 0 with lcur := lineCells (groupPixel 4) 0 512 }

/-- The narrowest changed line that overflows (R305). -/
def wideLine : State := { geom 49152 0 with
  lcur := lineCells (groupPixel 3) 0 49152, lprev := lineCells (fun _ => px 2) 0 49152 }

theorem witness_EncKeyEncodesTheLine :
    ((linesOf [] [1, 2]).status.fault = 0 ∧ (linesOf [] [1, 2]).cfg.w ≠ 0 ∧
      (encodeRun (linePixel 1 .current (linesOf [] [1, 2]).lcur) State.reset.enc 0 2 2).2.length ≤ 255) ∧
    (wideRow.status.fault = 0 ∧ wideRow.cfg.w ≠ 0 ∧
      255 < (encodeRun (linePixel (wideRow.freeCtr + 1) .current wideRow.lcur) wideRow.enc 0 512 2).2.length) := by
  refine ⟨by decide, by decide, by decide, ?_⟩
  have hL : ∀ k, k < 0 + 512 → linePixel (wideRow.freeCtr + 1) .current wideRow.lcur k = groupPixel 4 k :=
    fun k hk => linePixel_lineCells _ _ _ 0 512 k (by omega) hk
  rw [encodeRun_congr hL (by omega)]
  decide +kernel
theorem witness_DiffReportsTheSubChunks : (linesOf [1] [2]).status.fault = 0 ∧ (linesOf [1] [2]).cfg.w ≠ 0 := by decide
theorem witness_EncDeltaEncodesTheChanges :
    ((linesOf [1] [1]).status.fault = 0 ∧ (linesOf [1] [1]).cfg.w ≠ 0 ∧
      (differ (linesOf [1] [1]).lcurPixel (linesOf [1] [1]).lprevPixel 1).2 = []) ∧
    ((differ (linesOf [1] [2]).lcurPixel (linesOf [1] [2]).lprevPixel 1).2 = [⟨0, 0, 1⟩] ∧
      (deltaLine (linesOf [1] [2]).lcurPixel { State.reset.enc with la := 1 } [⟨0, 0, 1⟩]).2.length ≤ 32767) ∧
    (wideLine.status.fault = 0 ∧ wideLine.cfg.w ≠ 0 ∧
      32767 < (deltaLine (linePixel (wideLine.freeCtr + 1) .current wideLine.lcur) { wideLine.enc with la := 1 }
        (differ (linePixel (wideLine.freeCtr + 1) .current wideLine.lcur)
          (linePixel (wideLine.freeCtr + 1) .previous wideLine.lprev) 49152).2).2.length) := by
  refine ⟨by decide, by decide, by decide, by decide, ?_⟩
  have hC : ∀ k, k < 3 * (16383 + 1) →
      linePixel (wideLine.freeCtr + 1) .current wideLine.lcur k = groupPixel 3 k :=
    fun k hk => linePixel_lineCells _ _ _ 0 49152 k (by omega) (by omega)
  have := deltaLine_groups (P := linePixel (wideLine.freeCtr + 1) .previous wideLine.lprev) hC (fun k hk => by
    have hP : linePixel (wideLine.freeCtr + 1) .previous wideLine.lprev k = px 2 :=
      linePixel_lineCells (fun _ => px 2) _ _ 0 49152 k (by omega) (by omega)
    rw [hC k hk, hP, groupPixel]
    split <;> decide) (by omega) { wideLine.enc with la := 1 }
  rw [show 3 * (16383 + 1) = 49152 from rfl] at this
  omega

/-! Decode commands on legal payloads. -/

theorem witness_DecBrunRowPaintsEveryLegalRow : legalRow 4 [.repeatOf 0 (px 9), .copyOf [px 1, px 2], .repeatOf 2 (px 3)] ∧
    brunRecord [.repeatOf 0 (px 9), .copyOf [px 1, px 2], .repeatOf 2 (px 3)] =
      bytes [3, 0, 9, 0, 0xFE, 1, 0, 2, 0, 2, 3, 0] ∧
    (geom 4 1).cmd.arg.toNat < (geom 4 1).cfg.h.toNat := by
  unfold legalRow
  decide
theorem witness_DecBrunFramePaintsEveryLegalFrame : [[Packet.repeatOf 4 (px 0x1F)], []].length = (geom 4 2).cfg.h.toNat ∧
    legalRow 4 [Packet.repeatOf 4 (px 0x1F)] ∧ legalRow 4 [] ∧
    (geomIn 4 2 [1, 4, 0x1F, 0, 0]).inp.drop 0 = [[Packet.repeatOf 4 (px 0x1F)], []].flatMap brunRecord ++ [] := by
  unfold legalRow
  decide
theorem witness_DecLcLinePaintsEveryLegalLine :
    legalLine 65535 4 [⟨1, .copyOf []⟩, ⟨0, .repeatOf 2 (px 3)⟩, ⟨0, .copyOf [px 1]⟩] ∧
    lcRecord [⟨1, .copyOf []⟩, ⟨0, .repeatOf 2 (px 3)⟩, ⟨0, .copyOf [px 1]⟩] =
      bytes [3, 0, 1, 0, 0, 0xFE, 3, 0, 0, 1, 1, 0] := by
  unfold legalLine
  decide
theorem witness_DecLcFramePaintsEveryLegalFrame :
    legalEntries 4 4 0 [⟨1, [⟨2, .copyOf [px 0x99]⟩]⟩, ⟨1, [⟨0, .repeatOf 4 (px 0x77)⟩]⟩] ∧
    lcPayload [⟨1, [⟨2, .copyOf [px 0x99]⟩]⟩, ⟨1, [⟨0, .repeatOf 4 (px 0x77)⟩]⟩] =
      bytes [2, 0, 0xFF, 0xFF, 1, 0, 2, 1, 0x99, 0, 0xFF, 0xFF, 1, 0, 0, 0xFC, 0x77, 0] ∧
    legalEntries 4 4 0 [] ∧ lcPayload [] = [0, 0] := by
  unfold legalEntries legalEntries legalEntries legalLine
  decide

/-! The encoders' packets and the differ's sub-chunks. -/

/-- Encoder registers with a packet pending on pixels `start .. idx-1`. -/
def pending (m : Mode) (count la : Nat) : Enc :=
  { State.reset.enc with mode := m, count := BitVec.ofNat 7 count, la := BitVec.ofNat 2 la, idx := BitVec.ofNat 16 count }

theorem witness_RunEncoderStepsByItsTable :
    ((pending .copy 2 2).mode = .copy ∧ (pending .copy 2 2).la.toNat ≤ (pending .copy 2 2).count.toNat ∧
      ∀ k, 1 ≤ k → k ≤ (pending .copy 2 2).la.toNat → px 5 = px 5) ∧
    ((pending .copy 1 2).count.toNat < (pending .copy 1 2).la.toNat ∧ (pending .copy 1 2).count ≠ 127) ∧
    ((pending .copy 127 2).count = 127 ∧ groupPixel 127 (127 - 1) ≠ groupPixel 127 127) ∧
    ((pending .repeated 127 2).mode = .repeated ∧ (pending .repeated 127 2).count = 127 ∧
      groupPixel 127 127 = groupPixel 127 0) ∧
    ((pending .repeated 3 2).count ≠ 127 ∧ groupPixel 3 3 = groupPixel 3 0 ∧ groupPixel 4 3 ≠ groupPixel 4 0) ∧
    1 ≤ (pending .copy 1 2).count.toNat ∧ (pending .copy 0 2).count = 0 := by
  refine ⟨⟨rfl, by decide, fun _ _ _ => rfl⟩, by decide⟩
theorem witness_RunPacketsPartitionTheRun : ((1 : BitVec 2) = 1 ∨ (1 : BitVec 2) = 2) ∧ 65534 + 1 ≤ 65535 ∧
    (encodeRun (groupPixel 3) State.reset.enc 0 0 2).2 = [] := by decide
theorem witness_RunPacketsDependOnTheRunAlone : (∀ k, k < 3 → groupPixel 3 (0 + k) = groupPixel 3 (3 + k)) ∧
    3 + 3 ≤ 65535 := by
  refine ⟨fun k hk => ?_, by decide⟩
  simp [groupPixel]
theorem witness_NoTwoRepeatsCouldMerge : (encodeRun (fun _ => px 1) State.reset.enc 0 128 2).2 =
    [] ++ .repeatOf 127 (px 1) :: .repeatOf 1 (px 1) :: [] := by decide +kernel
theorem witness_SubChunksAreTheMaximalChangedRuns :
    (differ (groupPixel 3) (fun _ => px 0) 3).2 = [⟨1, 1, 2⟩] ∧ (fun k => k * 3) 0 = 0 ∧
    (fun k => k * 3) (0 + 1) = (⟨1, 1, 2⟩ : SubChunk).start.toNat + (⟨1, 1, 2⟩ : SubChunk).length.toNat := by decide
theorem witness_DeltaPacketsAreBoundedAndCoverChanges :
    (deltaLine (groupPixel 3) (pending .repeated 3 2) (differ (groupPixel 3) (fun _ => px 0) 3).2).2 =
      [] ++ ⟨1, .repeatOf 2 (px 1)⟩ :: [] := by decide
theorem witness_DeltaPacketsReplayToTheCurrentLine : ∀ x, x < 3 →
    readPixel (pixelsAt0 [0, 0, 0]) (0 + 2 * x) = some (px 0) := by decide

/-! Round trips, small and big step, invariants. -/

theorem witness_KeyRowRoundTrip : (linesOf [] [1, 2]).status.fault = 0 ∧ (linesOf [] [1, 2]).cfg.w = (geom 2 1).cfg.w ∧
    (next? (exec .encKey (linesOf [] [1, 2]))).map (fun t => (t.status.fault, t.out)) =
      some (0, bytes [1, 0xFE, 1, 0, 2, 0]) ∧
    (geomIn 2 1 [1, 0xFE, 1, 0, 2, 0]).inp.drop 0 = (bytes [1, 0xFE, 1, 0, 2, 0]).drop 0 ++ [] := by decide
theorem witness_DeltaLineRoundTrip : (linesOf [1, 2] [1, 3]).drawFree.lcurPixel 1 ≠
      (linesOf [1, 2] [1, 3]).drawFree.lprevPixel 1 ∧
    (next? (exec .encDelta (linesOf [1, 2] [1, 3]))).map (fun t => (t.status.fault, t.out)) =
      some (0, bytes [1, 0, 1, 1, 3, 0]) ∧
    (∀ x, x < 2 → State.fbPixel { geomIn 2 1 [1, 0, 1, 1, 3, 0] with fb := pixelsAt0 [1, 2] } 0 x =
      some ((linesOf [1, 2] [1, 3]).drawFree.lprevPixel x)) := by decide
theorem witness_KeyFrameRoundTrip : (∀ r, r < (geom 3 2).cfg.h.toNat →
      (keyPackets (fun i => px (i + r)) 3).length ≤ 255) ∧
    keyPayloadFrom 3 2 (fun r i => px (i + r)) 2 0 = bytes [1, 0xFD, 1, 0, 2, 0, 3, 0, 1, 0xFD, 0, 0, 1, 0, 2, 0] := by
  decide
theorem witness_DeltaFrameRoundTrip : (geom 2 2).cfg.h.toNat ≤ 32769 ∧
    (∀ r, r < 2 → (deltaPackets (fun i => px (i + r)) (fun i => px (i * (1 + r) + r)) 2).length ≤ 32767) ∧
    deltaEntriesFrom 2 2 (fun r i => px (i * (1 + r) + r)) (fun r i => px (i + r)) 2 0 0 =
      [⟨0, [⟨1, .copyOf [px 2]⟩]⟩] ∧
    (∀ r, r < 2 → ∀ x, x < 2 → State.fbPixel { geom 2 2 with fb := pixelsAt0 [0, 1, 1, 3] } r x =
      some (px (x * (1 + r) + r))) := by decide
theorem witness_SmallStepsReachTheBigStep : decodesRow.dec.pos = .command ∧ decodesRow.host = [] ∧
    commandCode .decBrunRow = some 4 ∧ isDecodeCode 4 = true ∧ (next? (exec .decBrunRow decodesRow)).isSome = true ∧
    (next? (beginDecode .decBrunRow decodesRow).outcome).map (fun t => t.dec.pos) = some .rowHead := by decide

/-- A decode in progress, as DEC_BRUN_ROW leaves it before its last packet. -/
def midRow : State := { decoding 4 1 1 .brunPacket [4, 0x1F, 0] with cmd := { op := 4, arg := 0 } }

theorem witness_StepsKeepDecodeSound : midRow.decodeSound ∧ midRow.faultLegal ∧
    (next? (step midRow)).map (fun t => (t.dec.pos, t.dec.npk)) = some (.command, 0) ∧
    (commandCode .decLcFrame = some 7 ∧ isDecodeCode 7 = true ∧ (geom 4 1).dec.pos = .command ∧
      (next? (beginDecode .decLcFrame (geom 4 1)).outcome).map (fun t => t.dec.pos) = some .frameHead) := by
  refine ⟨fun _ => ⟨rfl, rfl, by decide, by decide, rfl, rfl, by decide, by decide, by decide⟩, ?_, by decide, by decide⟩
  unfold State.faultLegal
  decide
theorem witness_StepsKeepCountsAgreeing : (withHost (linesOf [1] [2]) [.writeOp 2]).countsAgree ∧
    (next? (step (withHost (linesOf [1] [2]) [.writeOp 2]))).map (fun t => t.res.sc.length) = some 1 := by
  refine ⟨by unfold State.countsAgree; decide, by decide⟩
theorem witness_SoundStepsStopOnlyOnAMissingPixel :
    (geom 4 1).decodeSound ∧ step (withHost (geom 4 1) [.access (.writeFb 1 0 (px 1))]) = .fault .noSuchPixel ∧
    (1 ≤ 1 ∧ (geomIn 4 0 [1, 0]).cfg.h.toNat ≤ (geomIn 4 0 [1, 0]).dec.y.toNat ∧
      (geomIn 4 0 [1, 0]).dec.x.toNat + 1 ≤ (geomIn 4 0 [1, 0]).cfg.w.toNat ∧
      (geomIn 4 0 [1, 0]).inp.drop 0 = (px 1).b0 :: (px 1).b1 :: []) :=
  ⟨fun h => absurd rfl h, rfl, by decide⟩

end Sys2Proof.Tests
end

section
/-! PROOF. One step of a decode in progress: the item that is decoded is a stream item, its header is as long as the bytes
read, and the step runs it. -/

namespace Sys2Proof.Machine

/-! ### What `decode` finds at a stream position -/

@[simp] theorem u16bytes_length (w : BitVec 16) : (u16bytes w).length = 2 := rfl

theorem brunPacketOf_item (b : Byte) :
    commandCode (brunPacketOf b) = none ∧ (encode (brunPacketOf b)).length = 1 := by
  unfold brunPacketOf
  split <;> exact ⟨rfl, rfl⟩

theorem lcPacketOf_item (s b : Byte) :
    commandCode (lcPacketOf s b) = none ∧ (encode (lcPacketOf s b)).length = 2 := by
  unfold lcPacketOf
  split <;> exact ⟨rfl, rfl⟩

theorem lineHeadOf_item (w : BitVec 16) :
    commandCode (lineHeadOf w) = none ∧ (encode (lineHeadOf w)).length = 2 := by
  unfold lineHeadOf
  split <;> exact ⟨rfl, rfl⟩

/-- At a stream position `decode` answers with a stream item, and what it leaves of the bytes lies behind the header. -/
theorem decode_item {p : Position} {bytes rest : List Byte} {i : Instr} (hp : p ≠ .command)
    (h : decode p bytes = .ok (i, rest)) :
    commandCode i = none ∧ bytes.length = (encode i).length + rest.length := by
  match p, bytes, h with
  | .command, _, _ => exact absurd rfl hp
  | .rowHead, b :: _, rfl => exact ⟨rfl, Nat.add_comm _ 1⟩
  | .brunPacket, b :: _, rfl =>
    obtain ⟨hc, hl⟩ := brunPacketOf_item b
    exact ⟨hc, by rw [hl]; exact Nat.add_comm _ 1⟩
  | .frameHead, b0 :: b1 :: _, rfl => exact ⟨rfl, Nat.add_comm _ 2⟩
  | .lineHead, b0 :: b1 :: _, rfl =>
    obtain ⟨hc, hl⟩ := lineHeadOf_item (u16le b0 b1)
    exact ⟨hc, by rw [hl]; exact Nat.add_comm _ 2⟩
  | .pktsWord, b0 :: b1 :: _, rfl => exact ⟨rfl, Nat.add_comm _ 2⟩
  | .lcPacket, s :: b :: _, rfl =>
    obtain ⟨hc, hl⟩ := lcPacketOf_item s b
    exact ⟨hc, by rw [hl]; exact Nat.add_comm _ 2⟩

theorem encode_length_pos (i : Instr) : 1 ≤ (encode i).length := by
  cases i <;> simp [encode]

/-- The item at X.ip is fetched with X.ip past its header (10_state.md R46). -/
theorem fetchItem_of_decode {s : State} {i : Instr} {rest : List Byte} (hp : s.dec.pos ≠ .command)
    (h : decode s.dec.pos (s.inp.drop s.dec.ip) = .ok (i, rest)) :
    fetchItem s = .item i (s.setIp (s.dec.ip + (encode i).length)) := by
  have hlen := (decode_item hp h).2
  have hpos := encode_length_pos i
  have hip : s.inp.length - rest.length = s.dec.ip + (encode i).length := by
    rw [List.length_drop] at hlen
    omega
  simp only [fetchItem, h, hip]

/-- A step runs the item at X.ip, and then the sequencing of the item loop. -/
theorem step_of_decode {s : State} {i : Instr} {rest : List Byte} (hp : s.dec.pos ≠ .command)
    (h : decode s.dec.pos (s.inp.drop s.dec.ip) = .ok (i, rest)) :
    step s = mapNext (afterItem i) (exec i (s.setIp (s.dec.ip + (encode i).length))) := by
  rw [step, fetch_item hp, fetchItem_of_decode hp h]

/-- A step on a stream that ends inside the header runs the header reads, which end in TruncatedStream. -/
theorem step_of_cut {s : State} {e : DecodeError} (hp : s.dec.pos ≠ .command)
    (h : decode s.dec.pos (s.inp.drop s.dec.ip) = .error e) : step s = (readCutHeader s).outcome := by
  rw [step, fetch_item hp, fetchItem, h]

/-- Settles O17: the fetch finds the item with X.ip past its header, and the step executes and sequences it. -/
theorem stepRunsTheDecodedItem : Obligations.StepRunsTheDecodedItem :=
  fun _ _ _ hp h => step_of_decode hp h

end Sys2Proof.Machine
end

section
/-! PROOF. The procedures of the stream items run alike at every grammar position, so a step of a decode in progress is the
item's procedure followed by the sequencing of the item loop. -/

namespace Sys2Proof.Machine

/-- A flow with the decoder put at a grammar position, where it goes on. -/
def Flow.atPos (p : Position) (f : Flow) : Flow := f.andThen fun s => .go (s.setPos p)

theorem Flow.atPos_andThen {p : Position} {f : Flow} {k : State → Flow}
    (hk : ∀ s, k (s.setPos p) = (k s).atPos p) : (f.atPos p).andThen k = (f.andThen k).atPos p := by
  cases f with
  | go s => exact hk s
  | ended s => rfl
  | stuck r => rfl

theorem Flow.Sat.go {G E : State → Prop} {S : Prop} {f : Flow} (hf : f.Sat G E S) {t : State} (h : f = .go t) : G t := by
  subst h
  exact hf

theorem Flow.Sat.ended {G E : State → Prop} {S : Prop} {f : Flow} (hf : f.Sat G E S) {t : State} (h : f = .ended t) :
    E t := by
  subst h
  exact hf

/-! ### The grammar position is not read by a procedure -/

theorem raiseDecode_setPos (F : FaultName) (p : Position) (s : State) :
    raiseDecode F (s.setPos p) = (raiseDecode F s).atPos p := rfl

theorem in8_setPos {p : Position} {k : Byte → State → Flow} (hk : ∀ b s, k b (s.setPos p) = (k b s).atPos p)
    (s : State) : in8 (s.setPos p) k = (in8 s k).atPos p := by
  by_cases h : s.dec.ip < s.inp.length
  · rw [in8_eq_some h, in8_eq_some (s := s.setPos p) h, ← hk]
    rfl
  · rw [in8_eq_none (Nat.le_of_not_lt h), in8_eq_none (s := s.setPos p) (Nat.le_of_not_lt h), raiseDecode_setPos]

theorem inPix_setPos {p : Position} {k : Pixel → State → Flow} (hk : ∀ q s, k q (s.setPos p) = (k q s).atPos p)
    (s : State) : inPix (s.setPos p) k = (inPix s k).atPos p :=
  in8_setPos (fun _ => in8_setPos fun _ => hk _) s

theorem placePixel_setPos (q : Pixel) (col : Nat) (p : Position) (s : State) :
    placePixel q col (s.setPos p) = (placePixel q col s).atPos p := by
  by_cases hy : s.dec.y.toNat < s.cfg.h.toNat
  · rw [placePixel_eq hy, placePixel_eq (s := s.setPos p) hy]
    rfl
  · rw [placePixel_stuck (Nat.le_of_not_lt hy), placePixel_stuck (s := s.setPos p) (Nat.le_of_not_lt hy)]
    rfl

theorem placeRun_setPos (n : Nat) (q : Pixel) (col : Nat) (p : Position) (s : State) :
    placeRun n q col (s.setPos p) = (placeRun n q col s).atPos p := by
  induction n generalizing col s with
  | zero => rfl
  | succ n ih => rw [placeRun, placeRun, placePixel_setPos, Flow.atPos_andThen fun s => ih (col + 1) s]

theorem placeCopy_setPos (n col : Nat) (p : Position) (s : State) :
    placeCopy n col (s.setPos p) = (placeCopy n col s).atPos p := by
  induction n generalizing col s with
  | zero => rfl
  | succ n ih =>
    refine inPix_setPos (fun q s => ?_) s
    rw [placePixel_setPos, Flow.atPos_andThen fun s => ih (col + 1) s]

theorem repeatBody_setPos (n : Nat) (p : Position) (s : State) :
    repeatBody n (s.setPos p) = (repeatBody n s).atPos p := by
  by_cases ho : overrunsRow n s = true
  · rw [repeatBody, repeatBody, if_pos ho, if_pos (c := overrunsRow n (s.setPos p) = true) ho, raiseDecode_setPos]
  · rw [repeatBody, repeatBody, if_neg ho, if_neg (c := overrunsRow n (s.setPos p) = true) ho]
    refine inPix_setPos (fun q s => ?_) s
    rw [placeRun_setPos, Flow.atPos_andThen fun _ => rfl]
    rfl

theorem copyBody_setPos (n : Nat) (p : Position) (s : State) :
    copyBody n (s.setPos p) = (copyBody n s).atPos p := by
  by_cases ho : overrunsRow n s = true
  · rw [copyBody, copyBody, if_pos ho, if_pos (c := overrunsRow n (s.setPos p) = true) ho, raiseDecode_setPos]
  · rw [copyBody, copyBody, if_neg ho, if_neg (c := overrunsRow n (s.setPos p) = true) ho, placeCopy_setPos,
      Flow.atPos_andThen fun _ => rfl]
    rfl

theorem pktsProc_setPos (k : BitVec 16) (p : Position) (s : State) :
    pktsProc k (s.setPos p) = (pktsProc k s).atPos p := by
  by_cases ho : overrunsFrame s = true
  · rw [pktsProc, pktsProc, if_pos ho, if_pos (c := overrunsFrame (s.setPos p) = true) ho, raiseDecode_setPos]
  · rw [pktsProc, pktsProc, if_neg ho, if_neg (c := overrunsFrame (s.setPos p) = true) ho]
    rfl

/-! ### The procedure of a stream item -/

/-- The procedure of each stream item, which the commands' procedures and `exec` share; a command has none. -/
def itemProc (i : Instr) (s : State) : Flow :=
  match i with
  | .rowhdr k => rowhdrProc k s
  | .bRepeat n => bRepeatProc n s
  | .bCopy n => bCopyProc n s
  | .lines m => linesProc m s
  | .lskip rows => lskipProc rows s
  | .pkts k => pktsProc k s
  | .lCopy skip n => lCopyProc skip n s
  | .lRepeat skip n => lRepeatProc skip n s
  | .nop | .encKey | .diff | .encDelta | .decBrunRow | .decBrunFrame | .decLcLine | .decLcFrame => .go s

/-- A stream item is executed by its procedure. -/
theorem exec_eq_itemProc {i : Instr} (hi : commandCode i = none) (s : State) : exec i s = (itemProc i s).outcome := by
  cases i with
  | rowhdr _ | bRepeat _ | bCopy _ | lines _ | lskip _ | pkts _ | lCopy _ _ | lRepeat _ _ => rfl
  | nop | encKey | diff | encDelta | decBrunRow | decBrunFrame | decLcLine | decLcFrame => cases hi

theorem itemProc_setPos (i : Instr) (p : Position) (s : State) : itemProc i (s.setPos p) = (itemProc i s).atPos p := by
  cases i with
  | bRepeat n => exact repeatBody_setPos n p s
  | bCopy n => exact copyBody_setPos n p s
  | pkts k => exact pktsProc_setPos k p s
  | lCopy skip n => exact copyBody_setPos n p (addSkip skip s)
  | lRepeat skip n => exact repeatBody_setPos n p (addSkip skip s)
  | rowhdr _ | lines _ | lskip _ => rfl
  | nop | encKey | diff | encDelta | decBrunRow | decBrunFrame | decLcLine | decLcFrame => rfl

theorem Raised.pos {F : FaultName → Prop} {s t : State} (h : Raised F s t) : t.dec.pos = .command := by
  obtain ⟨u, f, -, -, rfl⟩ := h
  rfl

/-- An item that ends the command leaves no decode in progress (60_exceptions.md R310). -/
theorem itemProc_ended {i : Instr} {s t : State} (h : itemProc i s = .ended t) : t.dec.pos = .command := by
  cases i with
  | bRepeat n => exact ((repeatBody_sat n s).ended h).pos
  | bCopy n => exact ((copyBody_sat n s).ended h).pos
  | lCopy skip n => exact ((copyBody_sat n (addSkip skip s)).ended h).pos
  | lRepeat skip n => exact ((repeatBody_sat n (addSkip skip s)).ended h).pos
  | pkts k =>
    simp only [itemProc, pktsProc] at h
    split at h
    · cases h; rfl
    · cases h
  | rowhdr _ | lines _ | lskip _ => cases h
  | nop | encKey | diff | encDelta | decBrunRow | decBrunFrame | decLcLine | decLcFrame => cases h

/-! ### The sequencing of the item loop -/

theorem rowEnd_setPos (p : Position) (s : State) : rowEnd (s.setPos p) = rowEnd s := rfl

theorem lineEnd_setPos (p : Position) (s : State) : lineEnd (s.setPos p) = lineEnd s := rfl

theorem nextPacket_setPos {atEnd : State → State} (hend : ∀ p s, atEnd (s.setPos p) = atEnd s) (packet p : Position)
    (s : State) : nextPacket packet atEnd (s.setPos p) = nextPacket packet atEnd s := by
  rw [nextPacket, hend]
  rfl

/-- Where the decoder goes on after a stream item does not depend on where it stood. -/
theorem advance_setPos {i : Instr} (hi : commandCode i = none) (p : Position) (s : State) :
    advance i (s.setPos p) = advance i s := by
  cases i with
  | rowhdr _ => exact nextPacket_setPos rowEnd_setPos _ p s
  | bRepeat _ | bCopy _ => exact nextPacket_setPos rowEnd_setPos _ p (packetDone s)
  | pkts _ => exact nextPacket_setPos lineEnd_setPos _ p s
  | lCopy _ _ | lRepeat _ _ => exact nextPacket_setPos lineEnd_setPos _ p (packetDone s)
  | lines _ | lskip _ => rfl
  | nop | encKey | diff | encDelta | decBrunRow | decBrunFrame | decLcLine | decLcFrame => cases hi

/-- A step at a stream position: the procedure of the item that is there, then the move to the next position. -/
theorem step_item {p : Position} {s : State} {i : Instr} {rest : List Byte} (hp : p ≠ .command)
    (h : decode p (s.inp.drop s.dec.ip) = .ok (i, rest)) :
    step (s.setPos p) =
      ((itemProc i (s.setIp (s.dec.ip + (encode i).length))).andThen fun u => .go (advance i u)).outcome := by
  obtain ⟨hi, -⟩ := decode_item hp h
  have hexec : exec i ((s.setPos p).setIp (s.dec.ip + (encode i).length)) =
      ((itemProc i (s.setIp (s.dec.ip + (encode i).length))).atPos p).outcome := by
    rw [exec_eq_itemProc hi, ← itemProc_setPos]
    rfl
  rw [step_of_decode (s := s.setPos p) hp h]
  refine (congrArg (mapNext (afterItem i)) hexec).trans ?_
  cases hf : itemProc i (s.setIp (s.dec.ip + (encode i).length)) with
  | go u => exact congrArg Host.Outcome.next ((if_neg hp).trans (advance_setPos hi p u))
  | ended u => exact congrArg Host.Outcome.next (if_pos (itemProc_ended hf))
  | stuck r => rfl

end Sys2Proof.Machine
end

section
/-! PROOF. The two views of a decode command agree (00_scope.md R16): every loop of the big step is followed by single
steps, from the packets up to the commands. -/

namespace Sys2Proof.Machine

/-! ### Reaching a state by single steps -/

/-- Single steps from `b` reach `t`. -/
def Reaches (b t : State) : Prop := ∃ n, Host.Core.run Sys2Proof.core n b = .next t

theorem Reaches.refl (s : State) : Reaches s s := ⟨0, rfl⟩

theorem run_succ {b c : State} (h : step b = .next c) (n : Nat) :
    Host.Core.run Sys2Proof.core (n + 1) b = Host.Core.run Sys2Proof.core n c := by
  have hc : Sys2Proof.core.step b = .next c := h
  simp only [Host.Core.run, hc]

theorem Reaches.of_step {b c : State} (h : step b = .next c) : Reaches b c := ⟨1, run_succ h 0⟩

theorem run_add {n m : Nat} {b c : State} (h : Host.Core.run Sys2Proof.core n b = .next c) :
    Host.Core.run Sys2Proof.core (n + m) b = Host.Core.run Sys2Proof.core m c := by
  induction n generalizing b with
  | zero =>
    cases h
    rw [Nat.zero_add]
  | succ n ih =>
    rw [Nat.succ_add]
    cases hb : step b with
    | next d =>
      rw [run_succ hb] at h ⊢
      exact ih h
    | fault r =>
      have hs : Sys2Proof.core.step b = .fault r := hb
      simp [Host.Core.run, hs] at h
    | refused r =>
      have hs : Sys2Proof.core.step b = .refused r := hb
      simp [Host.Core.run, hs] at h

theorem Reaches.trans {b c t : State} (h : Reaches b c) (k : Reaches c t) : Reaches b t := by
  obtain ⟨n, hn⟩ := h
  obtain ⟨m, hm⟩ := k
  exact ⟨n + m, (run_add hn).trans hm⟩

/-! ### Following a flow by single steps -/

/-- Single steps from `b` follow the flow `f`: where it ends the command they reach the state it leaves, where it goes on
at `u` they reach `e u`, the same place with the decoder at its next position. -/
def Follows (b : State) (e : State → State) (f : Flow) : Prop := f.Sat (fun u => Reaches b (e u)) (Reaches b) True

theorem Follows.andThen {b : State} {e e' : State → State} {f : Flow} {k : State → Flow} (hf : Follows b e f)
    (hk : ∀ u, f = .go u → Follows (e u) e' (k u)) : Follows b e' (f.andThen k) := by
  cases f with
  | go u => exact (hk u rfl).mono (fun v => Reaches.trans hf) (fun v => Reaches.trans hf) id
  | ended u => exact hf
  | stuck r => exact hf

theorem Follows.congr {b : State} {e e' : State → State} {f : Flow} (hf : Follows b e f)
    (he : ∀ u, f = .go u → e u = e' u) : Follows b e' f := by
  cases f with
  | go u => exact Eq.subst (motive := Reaches b) (he u rfl) hf
  | ended u => exact hf
  | stuck r => exact hf

theorem Follows.of_step {b : State} {e : State → State} {f : Flow}
    (h : step b = (f.andThen fun u => .go (e u)).outcome) : Follows b e f := by
  cases f with
  | go u => exact Reaches.of_step h
  | ended u => exact Reaches.of_step h
  | stuck r => trivial

theorem Follows.outcome {b t : State} {f : Flow} (h : Follows b id f) (hf : f.outcome = .next t) : Reaches b t :=
  (h.next hf).elim id id

/-- A step on a whole item follows the item's procedure. -/
theorem follows_item {p : Position} {s : State} {i : Instr} {rest : List Byte} (hp : p ≠ .command)
    (h : decode p (s.inp.drop s.dec.ip) = .ok (i, rest)) :
    Follows (s.setPos p) (advance i) (itemProc i (s.setIp (s.dec.ip + (encode i).length))) :=
  .of_step (step_item hp h)

/-- A step on a header cut short raises the fault of the header reads. -/
theorem follows_cut {p : Position} {s u : State} {e : DecodeError} {F : FaultName} {next : State → State}
    (hp : p ≠ .command) (h : decode p (s.inp.drop s.dec.ip) = .error e)
    (hr : readCutHeader (s.setPos p) = raiseDecode F u) : Follows (s.setPos p) next (raiseDecode F u) :=
  .of_step ((step_of_cut (s := s.setPos p) hp h).trans (congrArg Flow.outcome hr))

/-! ### Reading a header -/

theorem in8_of_drop_nil {s : State} (h : s.inp.drop s.dec.ip = []) (k : Byte → State → Flow) :
    in8 s k = raiseDecode .truncatedStream s :=
  in8_eq_none (List.drop_eq_nil_iff.mp h) k

theorem in16_of_drop_nil {s : State} (h : s.inp.drop s.dec.ip = []) (k : BitVec 16 → State → Flow) :
    in16 s k = raiseDecode .truncatedStream s :=
  in8_of_drop_nil h _

theorem in16_of_drop_single {s : State} {b : Byte} (h : s.inp.drop s.dec.ip = [b]) (k : BitVec 16 → State → Flow) :
    in16 s k = raiseDecode .truncatedStream (s.setIp (s.dec.ip + 1)) := by
  rw [in16, in8_of_drop h, in8_of_drop_nil]
  exact drop_succ_of_drop h

/-- A procedure that begins with a header of one byte is followed by single steps if the rest of it is. -/
theorem follows_in8 {p : Position} {item : Byte → Instr} {s : State} {e : State → State} {k : Byte → State → Flow}
    (hp : p ≠ .command) (hnil : decode p [] = .error .headerCut)
    (hcons : ∀ b rest, decode p (b :: rest) = .ok (item b, rest)) (hlen : ∀ b, (encode (item b)).length = 1)
    (hread : readCutHeader (s.setPos p) = in8 (s.setPos p) fun _ u => .go u)
    (hk : ∀ b, Follows (s.setPos p) (advance (item b)) (itemProc (item b) (s.setIp (s.dec.ip + 1))) →
      Follows (s.setPos p) e (k b (s.setIp (s.dec.ip + 1)))) :
    Follows (s.setPos p) e (in8 s k) := by
  cases hd : s.inp.drop s.dec.ip with
  | nil =>
    rw [in8_of_drop_nil hd]
    exact follows_cut hp (hd ▸ hnil) (hread.trans (in8_of_drop_nil (s := s.setPos p) hd _))
  | cons b rest =>
    rw [in8_of_drop hd]
    have hi := follows_item hp (s := s) (hd ▸ hcons b rest)
    rw [hlen] at hi
    exact hk b hi

/-- A procedure that begins with a header word is followed by single steps if the rest of it is. -/
theorem follows_in16 {p : Position} {item : BitVec 16 → Instr} {s : State} {e : State → State}
    {k : BitVec 16 → State → Flow} (hp : p ≠ .command) (hnil : decode p [] = .error .headerCut)
    (hsingle : ∀ b, decode p [b] = .error .headerCut)
    (hcons : ∀ b0 b1 rest, decode p (b0 :: b1 :: rest) = .ok (item (u16le b0 b1), rest))
    (hlen : ∀ w, (encode (item w)).length = 2)
    (hread : readCutHeader (s.setPos p) = in16 (s.setPos p) fun _ u => .go u)
    (hk : ∀ w, Follows (s.setPos p) (advance (item w)) (itemProc (item w) (s.setIp (s.dec.ip + 2))) →
      Follows (s.setPos p) e (k w (s.setIp (s.dec.ip + 2)))) :
    Follows (s.setPos p) e (in16 s k) := by
  match hd : s.inp.drop s.dec.ip with
  | [] =>
    rw [in16_of_drop_nil hd]
    exact follows_cut hp (hd ▸ hnil) (hread.trans (in16_of_drop_nil (s := s.setPos p) hd _))
  | [b] =>
    rw [in16_of_drop_single hd]
    exact follows_cut hp (hd ▸ hsingle b) (hread.trans (in16_of_drop_single (s := s.setPos p) hd _))
  | b0 :: b1 :: rest =>
    rw [in16_of_drop hd]
    have hi := follows_item hp (s := s) (hd ▸ hcons b0 b1 rest)
    rw [hlen] at hi
    exact hk _ hi

/-! ### Packets -/

theorem follows_brunPacket (s : State) :
    Follows (s.setPos .brunPacket) (fun u => nextPacket .brunPacket rowEnd (packetDone u)) (brunPacket s) := by
  refine follows_in8 (item := brunPacketOf) (by decide) rfl (fun _ _ => rfl) (fun b => (brunPacketOf_item b).2) rfl
    fun b hi => ?_
  unfold brunPacketOf at hi
  split at hi
  case isTrue hb => rwa [if_pos hb]
  case isFalse hb => rwa [if_neg hb]

theorem follows_lcPacket (s : State) :
    Follows (s.setPos .lcPacket) (fun u => nextPacket .lcPacket lineEnd (packetDone u)) (lcPacket s) := by
  have hp : Position.lcPacket ≠ .command := by decide
  have hread : readCutHeader (s.setPos .lcPacket) =
      in8 (s.setPos .lcPacket) fun skip u => in8 (addSkip skip u) fun _ u => .go u := rfl
  match hd : s.inp.drop s.dec.ip with
  | [] =>
    rw [lcPacket, in8_of_drop_nil hd]
    exact follows_cut hp (e := .headerCut) (by rw [hd]; rfl)
      (hread.trans (in8_of_drop_nil (s := s.setPos .lcPacket) hd _))
  | [skip] =>
    have h1 := drop_succ_of_drop hd
    rw [lcPacket, in8_of_drop hd, in8_of_drop_nil (s := addSkip skip (s.setIp (s.dec.ip + 1))) h1]
    exact follows_cut hp (e := .headerCut) (by rw [hd]; rfl)
      (hread.trans ((in8_of_drop (s := s.setPos .lcPacket) hd _).trans
        (in8_of_drop_nil (s := addSkip skip ((s.setPos .lcPacket).setIp (s.dec.ip + 1))) h1 _)))
  | skip :: b :: rest =>
    have h1 := drop_succ_of_drop hd
    have hi := follows_item hp (s := s) (i := lcPacketOf skip b) (rest := rest) (by rw [hd]; rfl)
    rw [(lcPacketOf_item skip b).2] at hi
    rw [lcPacket, in8_of_drop hd, in8_of_drop (s := addSkip skip (s.setIp (s.dec.ip + 1))) h1]
    unfold lcPacketOf at hi
    split at hi
    case isTrue hb => rwa [if_pos hb]
    case isFalse hb => rwa [if_neg hb]

/-- The loop over X.npk packets of a row or a line (43_rle_decoder_brun.md R204, 44_rle_decoder_lc.md R228). -/
theorem follows_packets {packet : State → Flow} {packets : Nat → State → Flow} {p : Position} {atEnd : State → State}
    (hzero : ∀ s, packets 0 s = .go s)
    (hsucc : ∀ n s, packets (n + 1) s = (packet s).andThen fun u => packets n (u.setNpk (u.dec.npk.toNat - 1)))
    (hpacket : ∀ s, Follows (s.setPos p) (fun u => nextPacket p atEnd (packetDone u)) (packet s))
    (hline : ∀ s u, s.dec.y.toNat < s.cfg.h.toNat → packet s = .go u → OnLine s u)
    (n : Nat) {s : State} (hn : s.dec.npk.toNat = n) (hy : s.dec.y.toNat < s.cfg.h.toNat) :
    Follows (nextPacket p atEnd s) atEnd (packets n s) := by
  induction n generalizing s with
  | zero =>
    rw [hzero, nextPacket, if_pos hn]
    exact Reaches.refl _
  | succ n ih =>
    rw [hsucc, nextPacket, if_neg (by omega)]
    refine (hpacket s).andThen fun u hu => ?_
    have hon := hline s u hy hu
    refine ih (s := packetDone u) ?_ ?_
    · have := s.dec.npk.isLt
      simp only [packetDone, State.setNpk_dec_npk, BitVec.toNat_ofNat, hon.npk]
      omega
    · simpa [packetDone, hon.y, hon.cfg] using hy

theorem follows_brunPackets {s : State} (hy : s.dec.y.toNat < s.cfg.h.toNat) :
    Follows (nextPacket .brunPacket rowEnd s) rowEnd (brunPackets s.dec.npk.toNat s) :=
  follows_packets (packets := brunPackets) (fun _ => rfl) (fun _ _ => rfl) follows_brunPacket
    (fun _ _ hy hu => (brunPacket_sat hy).go hu) _ rfl hy

theorem follows_lcPackets {s : State} (hy : s.dec.y.toNat < s.cfg.h.toNat) :
    Follows (nextPacket .lcPacket lineEnd s) lineEnd (lcPackets s.dec.npk.toNat s) :=
  follows_packets (packets := lcPackets) (fun _ => rfl) (fun _ _ => rfl) follows_lcPacket
    (fun _ _ hy hu => (lcPacket_sat hy).go hu) _ rfl hy

/-! ### BRUN rows -/

theorem brunRow_in_frame {s : State} {y : Nat} (hy : (s.setY y).dec.y.toNat < (s.setY y).cfg.h.toNat) :
    brunRow y s = in8 (s.setY y) fun k u => (rowhdrProc k u).andThen fun u => brunPackets u.dec.npk.toNat u :=
  if_neg (by rw [overrunsFrame_iff]; omega)

theorem follows_brunRow {s : State} {y : Nat} (hy : (s.setY y).dec.y.toNat < (s.setY y).cfg.h.toNat) :
    Follows ((s.setY y).setPos .rowHead) rowEnd (brunRow y s) := by
  rw [brunRow_in_frame hy]
  refine follows_in8 (item := .rowhdr) (by decide) rfl (fun _ _ => rfl) (fun _ => rfl) rfl fun k hi => ?_
  refine hi.andThen fun u hu => ?_
  cases hu
  exact follows_brunPackets hy

/-- A row that is decoded whole leaves X.y at the row. -/
theorem brunRow_sameRow {s u : State} {y : Nat} (hy : (s.setY y).dec.y.toNat < (s.setY y).cfg.h.toNat)
    (h : brunRow y s = .go u) : SameRow (s.setY y) u := by
  rw [brunRow_in_frame hy] at h
  refine Flow.Sat.go (G := SameRow (s.setY y)) (E := fun _ => True) (S := False) (in8_sat trivial fun k hk => ?_) h
  have h0 : SameRow (s.setY y) ((((s.setY y).setIp ((s.setY y).dec.ip + 1)).setNpk k.toNat).setX 0) :=
    ⟨(Decodes.setIp_succ hk).trans ((Decodes.setNpk _ _).trans (.setX _ _)), rfl, rfl⟩
  exact Flow.Sat.mono (brunPackets_sat _ (s := (((s.setY y).setIp ((s.setY y).dec.ip + 1)).setNpk k.toNat).setX 0) hy)
    (fun _ hu => h0.trans hu) (fun _ _ => trivial) id

/-- The rows of a BRUN frame (43_rle_decoder_brun.md R206). -/
theorem follows_brunRows (n y : Nat) {s : State} (hn : y + (n + 1) = s.cfg.h.toNat)
    (hop : isFrameCode s.cmd.op = true) :
    Follows ((s.setY y).setPos .rowHead) (fun u => u.setPos .command) (brunRows (n + 1) y s) := by
  have hlt := s.cfg.h.isLt
  induction n generalizing y s with
  | zero =>
    have hy : (s.setY y).dec.y.toNat < (s.setY y).cfg.h.toNat := by
      simp only [State.setY_dec_y, State.setY_cfg, BitVec.toNat_ofNat]
      omega
    refine (follows_brunRow hy).andThen fun u hu => ?_
    have hrow := brunRow_sameRow hy hu
    have hend : rowEnd u = u.setPos .command := by
      simp only [rowEnd, hrow.y, hrow.cfg, hrow.cmd, State.setY_dec_y, State.setY_cfg, BitVec.toNat_ofNat]
      rw [if_neg]
      simp only [Bool.and_eq_true, decide_eq_true_eq]
      omega
    rw [hend]
    exact Reaches.refl _
  | succ n ih =>
    have hy : (s.setY y).dec.y.toNat < (s.setY y).cfg.h.toNat := by
      simp only [State.setY_dec_y, State.setY_cfg, BitVec.toNat_ofNat]
      omega
    refine (follows_brunRow hy).andThen fun u hu => ?_
    have hrow := brunRow_sameRow hy hu
    have huy : u.dec.y.toNat = y := by
      simp only [hrow.y, State.setY_dec_y, BitVec.toNat_ofNat]
      omega
    have hend : rowEnd u = (u.setY (y + 1)).setPos .rowHead := by
      rw [rowEnd, huy, if_pos]
      simp only [hrow.cmd, hrow.cfg, State.setY_cmd, State.setY_cfg, hop, Bool.true_and, decide_eq_true_eq]
      omega
    rw [hend]
    refine ih (y + 1) ?_ ?_ ?_
    · rw [hrow.cfg, State.setY_cfg]; omega
    · rw [hrow.cmd]; exact hop
    · rw [hrow.cfg]; exact hlt

/-! ### LC lines -/

/-- The decoder before a line entry, or at the end of the frame if none is left (44_rle_decoder_lc.md R229). -/
def nextEntry (s : State) : State := if s.dec.lines.toNat = 0 then s.setPos .command else s.setPos .lineHead

/-- What follows a line whose X.y has moved on: in a frame the next entry, else the end of the command. -/
def nextLine (s : State) : State :=
  if isFrameCode s.cmd.op then nextEntry (s.setLines (s.dec.lines.toNat - 1)) else s.setPos .command

theorem lineEnd_eq (s : State) : lineEnd s = nextLine (s.setY (s.dec.y.toNat + 1)) := rfl

theorem advance_lines (m : BitVec 16) (s : State) : advance (.lines m) s = nextEntry s := rfl

/-- A line is followed by single steps if its PKTS is. -/
theorem follows_lcLine {b s : State} {k : BitVec 16} (h : Follows b (advance (.pkts k)) (pktsProc k s)) :
    Follows b nextLine (lcLine k s) := by
  refine h.andThen fun u hu => ?_
  have hy : u.dec.y.toNat < u.cfg.h.toNat := by
    unfold pktsProc at hu
    split at hu
    · cases hu
    · next ho =>
      cases hu
      rw [overrunsFrame_iff] at ho
      exact Nat.lt_of_not_le ho
  refine (follows_lcPackets hy).andThen fun v _ => ?_
  rw [lineEnd_eq]
  exact Reaches.refl _

theorem follows_pktsLine (s : State) : Follows (s.setPos .pktsWord) nextLine (in16 s fun k u => lcLine k u) :=
  follows_in16 (item := .pkts) (by decide) rfl (fun _ => rfl) (fun _ _ _ => rfl) (fun _ => rfl) rfl
    fun _ hi => follows_lcLine hi

/-- PKTS and its line, as lcLine_sat says it of the line. -/
theorem pktsLine_sat (s : State) : (in16 s fun k u => lcLine k u).Sat (Decodes s) (Raised LineFault s) False := by
  refine in16_sat (fun u hu => ⟨u, _, hu, .inl rfl, rfl⟩) fun k hk => ?_
  have h0 := Decodes.setIp_two hk
  exact (lcLine_sat k _).mono (fun _ hu => h0.trans hu) (fun _ hu => hu.of_decodes h0) id

theorem follows_lcEntry (s : State) : Follows (s.setPos .lineHead) nextLine (lcEntry s) := by
  refine follows_in16 (item := lineHeadOf) (by decide) rfl (fun _ => rfl) (fun _ _ _ => rfl)
    (fun w => (lineHeadOf_item w).2) rfl fun w hi => ?_
  unfold lineHeadOf at hi
  split at hi
  case isTrue hw =>
    rw [if_pos hw]
    exact hi.andThen fun u _ => follows_pktsLine u
  case isFalse hw =>
    rw [if_neg hw]
    exact follows_lcLine hi

theorem lcLine_lines (k : BitVec 16) (s : State) :
    (lcLine k s).Sat (fun u => u.dec.lines = s.dec.lines) (fun _ => True) False := by
  simp only [lcLine, pktsProc]
  split
  · trivial
  · next ho =>
    rw [overrunsFrame_iff, Nat.not_le] at ho
    exact ((lcPackets_sat _ (s := (s.setX 0).setNpk k.toNat) ho).mono (fun _ hu => hu.lines) (fun _ _ => trivial)
      id).andThen fun _ hu => hu

/-- A line entry leaves X.lines to the loop around it. -/
theorem lcEntry_lines (s : State) : (lcEntry s).Sat (fun u => u.dec.lines = s.dec.lines) (fun _ => True) False := by
  refine in16_sat (fun _ _ => trivial) fun w _ => ?_
  split
  · exact in16_sat (fun _ _ => trivial) fun k _ => lcLine_lines k _
  · exact lcLine_lines w _

/-- The loop over X.lines line entries (44_rle_decoder_lc.md R229). -/
theorem follows_lcEntries (n : Nat) {s : State} (hn : s.dec.lines.toNat = n) (hop : isFrameCode s.cmd.op = true) :
    Follows (nextEntry s) (fun u => u.setPos .command) (lcEntries n s) := by
  induction n generalizing s with
  | zero =>
    rw [nextEntry, if_pos hn]
    exact Reaches.refl _
  | succ n ih =>
    rw [nextEntry, if_neg (by omega)]
    refine (follows_lcEntry s).andThen fun u hu => ?_
    have hl : u.dec.lines = s.dec.lines := (lcEntry_lines s).go hu
    have hc : u.cmd = s.cmd := ((lcEntry_sat s).go hu).cmd
    rw [nextLine, hc, if_pos hop]
    refine ih ?_ ?_
    · have := s.dec.lines.isLt
      simp only [State.setLines_dec_lines, BitVec.toNat_ofNat, hl]
      omega
    · rw [State.setLines_cmd, hc]; exact hop

theorem follows_lcFrame {s : State} (hop : isFrameCode s.cmd.op = true) :
    Follows (s.setPos .frameHead) (fun u => u.setPos .command) (lcFrame s) := by
  refine follows_in16 (item := .lines) (by decide) rfl (fun _ => rfl) (fun _ _ _ => rfl) (fun _ => rfl) rfl
    fun m hi => ?_
  refine hi.andThen fun u hu => ?_
  cases hu
  rw [advance_lines]
  exact follows_lcEntries _ rfl hop

/-! ### The commands -/

/-- Whatever its procedure, a command is either refused or ended by BadConfig in one state, or its procedure runs. -/
theorem startCommand_uniform (code : BitVec 3) (s : State) :
    (∃ v, ∀ body, startCommand code body s = .ended v) ∨
    ((isDecodeCode code = true → s.cfg.h ≠ 0) ∧ ∀ body, startCommand code body s = body (s.setOp code)) := by
  by_cases hf : (s.setOp code).status.fault ≠ 0
  · exact .inl ⟨_, fun body => if_pos hf⟩
  · by_cases hc : (s.setOp code).cfg.w = 0 ∨ (isDecodeCode code = true ∧ (s.setOp code).cfg.h = 0)
    · exact .inl ⟨_, fun body => (if_neg hf).trans (if_pos hc)⟩
    · exact .inr ⟨fun hd hh => hc (.inr ⟨hd, hh⟩), fun body => (if_neg hf).trans (if_neg hc)⟩

/-- The procedure of each decode command after its checks; no other command has one. -/
def decodeProc (i : Instr) (s : State) : Flow :=
  match i with
  | .decBrunRow => brunRow s.cmd.arg.toNat (startLine false s)
  | .decBrunFrame => brunRows s.cfg.h.toNat 0 (startFrame false s)
  | .decLcLine => in16 (startLine true s) fun k u => lcLine k u
  | .decLcFrame => lcFrame (startFrame true s)
  | _ => .go s

/-- What a decode command does after its checks and before its first stream item. -/
def decodeStart (i : Instr) (s : State) : Flow :=
  match i with
  | .decBrunRow =>
    if overrunsFrame (startLine false s) then raiseDecode .lineOverrun (startLine false s)
    else .go ((startLine false s).setPos .rowHead)
  | .decBrunFrame => .go ((startFrame false s).setPos .rowHead)
  | .decLcLine => .go ((startLine true s).setPos .pktsWord)
  | .decLcFrame => .go ((startFrame true s).setPos .frameHead)
  | _ => .go s

/-- A property of the decode commands is shown for each of the four. -/
theorem decode_command_cases {P : Instr → BitVec 3 → Prop} (hrow : P .decBrunRow 4) (hrows : P .decBrunFrame 5)
    (hline : P .decLcLine 6) (hframe : P .decLcFrame 7) {i : Instr} {c : BitVec 3} (hi : commandCode i = some c)
    (hc : isDecodeCode c = true) : P i c := by
  cases i with
  | decBrunRow => cases hi; exact hrow
  | decBrunFrame => cases hi; exact hrows
  | decLcLine => cases hi; exact hline
  | decLcFrame => cases hi; exact hframe
  | nop | encKey | diff | encDelta => cases hi; cases hc
  | rowhdr _ | bRepeat _ | bCopy _ | lines _ | lskip _ | pkts _ | lCopy _ _ | lRepeat _ _ => cases hi

theorem exec_decode {i : Instr} {c : BitVec 3} (hi : commandCode i = some c) (hc : isDecodeCode c = true) (s : State) :
    exec i s = (startCommand c (decodeProc i) s).outcome :=
  decode_command_cases (P := fun i c => exec i s = (startCommand c (decodeProc i) s).outcome) rfl rfl rfl rfl hi hc

theorem beginDecode_eq {i : Instr} {c : BitVec 3} (hi : commandCode i = some c) (hc : isDecodeCode c = true)
    (s : State) : beginDecode i s = startCommand c (decodeStart i) s :=
  decode_command_cases (P := fun i c => beginDecode i s = startCommand c (decodeStart i) s) rfl rfl rfl rfl hi hc

theorem State.setPos_self {s : State} {p : Position} (h : s.dec.pos = p) : s.setPos p = s := by
  subst h
  rfl

/-- A procedure that runs to its end leaves the grammar position to the sequencer. -/
theorem decodeProc_pos {i : Instr} {s u : State} (h : decodeProc i s = .go u) : u.dec.pos = s.dec.pos := by
  cases i with
  | decBrunRow => exact ((brunRow_sat _ _).go h).pos
  | decBrunFrame => exact ((brunRows_sat _ 0 (s := startFrame false s) (Nat.le_of_eq (Nat.zero_add _))).go h).pos
  | decLcLine => exact ((pktsLine_sat _).go h).pos
  | decLcFrame => exact ((lcFrame_sat _).go h).pos
  | nop | encKey | diff | encDelta => cases h; rfl
  | rowhdr _ | bRepeat _ | bCopy _ | lines _ | lskip _ | pkts _ | lCopy _ _ | lRepeat _ _ => cases h; rfl

/-- DEC_BRUN_ROW makes its row check in the start and in the row alike (43_rle_decoder_brun.md R204). -/
theorem decBrunRow_follows {s : State} (hop : s.cmd.op = 4) : (decodeStart .decBrunRow s).Sat
    (fun b => Follows b (fun u => u.setPos .command) (decodeProc .decBrunRow s))
    (fun b => decodeProc .decBrunRow s = .ended b) False := by
  by_cases ho : overrunsFrame (startLine false s) = true
  · rw [decodeStart, if_pos ho]
    exact if_pos ho
  · rw [decodeStart, if_neg ho]
    have hy : ((startLine false s).setY s.cmd.arg.toNat).dec.y.toNat <
        ((startLine false s).setY s.cmd.arg.toNat).cfg.h.toNat := by
      rw [overrunsFrame_iff] at ho
      exact Nat.lt_of_not_le ho
    refine (follows_brunRow hy).congr fun u hu => ?_
    have hcmd : u.cmd = s.cmd := ((brunRow_sat _ _).go hu).cmd
    rw [rowEnd, hcmd, hop, if_neg (by simp [isFrameCode])]

theorem decBrunFrame_follows {s : State} (hop : s.cmd.op = 5) (hh : s.cfg.h ≠ 0) :
    Follows ((startFrame false s).setPos .rowHead) (fun u => u.setPos .command) (decodeProc .decBrunFrame s) := by
  obtain ⟨n, hn⟩ : ∃ n, s.cfg.h.toNat = n + 1 :=
    Nat.exists_eq_succ_of_ne_zero fun h0 => hh (BitVec.eq_of_toNat_eq h0)
  rw [decodeProc, hn]
  refine follows_brunRows n 0 (s := startFrame false s) ?_ ?_
  · rw [Nat.zero_add]; exact hn.symm
  · exact hop ▸ rfl

theorem decLcLine_follows {s : State} (hop : s.cmd.op = 6) :
    Follows ((startLine true s).setPos .pktsWord) (fun u => u.setPos .command) (decodeProc .decLcLine s) := by
  refine (follows_pktsLine (startLine true s)).congr fun u hu => ?_
  have hcmd : u.cmd = s.cmd := ((pktsLine_sat (startLine true s)).go hu).cmd
  rw [nextLine, hcmd, hop, if_neg (by decide)]

/-- Once the checks of a decode command have passed, single steps from where its start leaves the decoder follow its
procedure to the end of the decode. -/
theorem decodeStart_follows {i : Instr} {c : BitVec 3} (hi : commandCode i = some c) (hc : isDecodeCode c = true)
    {s : State} (hop : s.cmd.op = c) (hh : s.cfg.h ≠ 0) : (decodeStart i s).Sat
      (fun b => Follows b (fun u => u.setPos .command) (decodeProc i s)) (fun b => decodeProc i s = .ended b) False := by
  revert hop
  refine decode_command_cases (P := fun i c => s.cmd.op = c → (decodeStart i s).Sat
    (fun b => Follows b (fun u => u.setPos .command) (decodeProc i s)) (fun b => decodeProc i s = .ended b) False)
    (fun hop => decBrunRow_follows hop) (fun hop => decBrunFrame_follows hop hh) (fun hop => decLcLine_follows hop)
    (fun hop => ?_) hi hc
  exact follows_lcFrame (hop ▸ rfl)

/-- Settles O57: either the checks end the command in one state for both views, or single steps follow its procedure. -/
theorem smallStepsReachTheBigStep : Obligations.SmallStepsReachTheBigStep := by
  intro i c s t b hi hc hpos _ ht hb
  rw [exec_decode hi hc] at ht
  rw [beginDecode_eq hi hc] at hb
  rcases startCommand_uniform c s with ⟨v, hv⟩ | ⟨hh, hrun⟩
  · rw [hv] at ht hb
    cases ht
    cases hb
    exact Reaches.refl _
  · rw [hrun] at ht hb
    rcases (decodeStart_follows hi hc (s := s.setOp c) rfl (hh hc)).next hb with hf | he
    · have hend : Follows b id (decodeProc i (s.setOp c)) := hf.congr fun u hu =>
        State.setPos_self ((decodeProc_pos hu).trans hpos)
      exact hend.outcome ht
    · rw [he] at ht
      cases ht
      exact Reaches.refl _

end Sys2Proof.Machine
end

section
/-! PROOF. What the run encoder emits: the packets of a run are never empty, hold at most 127 pixels, and partition the run
(40_rle_encoder_key.md R143 items 1, 2 and 6). -/

namespace Sys2Proof.Machine

/-! ### Packets and their pixels -/

@[simp] theorem expandAll_nil : expandAll [] = [] := rfl

@[simp] theorem expandAll_cons (pk : Packet) (pks : List Packet) : expandAll (pk :: pks) = pk.expand ++ expandAll pks :=
  rfl

/-- Packets that all carry pixels are at most as many as their pixels. -/
theorem length_le_expandAll {pks : List Packet} (h : ∀ pk ∈ pks, 1 ≤ pk.npix) : pks.length ≤ (expandAll pks).length := by
  induction pks with
  | nil => exact Nat.le_refl 0
  | cons pk pks ih =>
    have hpk := h pk (.head _)
    have hrest := ih fun p hp => h p (.tail _ hp)
    simp only [List.length_cons, expandAll_cons, List.length_append, expand_length]
    omega

theorem replicate_eq_slice {L : Nat → Pixel} {a n : Nat} (h : ∀ k, k < n → L (a + k) = L a) :
    List.replicate n (L a) = slice L a n := by
  refine List.ext_getElem (by simp) fun k hk _ => ?_
  simpa [slice] using (h k (by simpa using hk)).symm

theorem slice_one (L : Nat → Pixel) (a : Nat) : slice L a 1 = [L a] := rfl

theorem slice_succ (L : Nat → Pixel) (a n : Nat) : slice L a (n + 1) = slice L a n ++ [L (a + n)] := by
  rw [slice_add, slice_one]

/-! ### The pending packet -/

/-- `pks` stand for the `n` pixels of `L` from `start` on, and each packet holds 1 to 127 of them. -/
structure Emitted (L : Nat → Pixel) (start n : Nat) (pks : List Packet) : Prop where
  pixels : expandAll pks = slice L start n
  bounds : ∀ pk ∈ pks, 1 ≤ pk.npix ∧ pk.npix ≤ 127

theorem Emitted.nil (L : Nat → Pixel) (a : Nat) : Emitted L a 0 [] := ⟨rfl, by simp⟩

theorem Emitted.copy {L : Nat → Pixel} {a n : Nat} (h1 : 1 ≤ n) (h127 : n ≤ 127) :
    Emitted L a n [.copyOf (slice L a n)] :=
  ⟨by simp [Packet.expand], by simp [Packet.npix, h1, h127]⟩

theorem Emitted.repeated {L : Nat → Pixel} {a n : Nat} (h1 : 1 ≤ n) (h127 : n ≤ 127)
    (h : ∀ k, k < n → L (a + k) = L a) : Emitted L a n [.repeatOf n (L a)] :=
  ⟨by simp [Packet.expand, replicate_eq_slice h], by simp [Packet.npix, h1, h127]⟩

theorem Emitted.append {L : Nat → Pixel} {a n m : Nat} {ps qs : List Packet} (hp : Emitted L a n ps)
    (hq : Emitted L (a + n) m qs) : Emitted L a (n + m) (ps ++ qs) := by
  refine ⟨by rw [expandAll_append, hp.pixels, hq.pixels, slice_add], fun pk h => ?_⟩
  rcases List.mem_append.mp h with h | h
  · exact hp.bounds pk h
  · exact hq.bounds pk h

theorem Emitted.length {L : Nat → Pixel} {a n : Nat} {pks : List Packet} (h : Emitted L a n pks) :
    (expandAll pks).length = n := by
  rw [h.pixels, slice_length]

theorem Emitted.length_le {L : Nat → Pixel} {a n : Nat} {pks : List Packet} (h : Emitted L a n pks) :
    pks.length ≤ n :=
  h.length ▸ length_le_expandAll fun pk hpk => (h.bounds pk hpk).1

/-- The pending packet of the run encoder: it ends at E.idx (10_state.md R34, R35), and a REPEAT in the making is not empty
and all of one pixel (40_rle_encoder_key.md R134). -/
structure Pending (L : Nat → Pixel) (e : Enc) : Prop where
  ends : e.start.toNat + e.count.toNat = e.idx.toNat
  nonempty : e.mode = .repeated → 1 ≤ e.count.toNat
  same : e.mode = .repeated → ∀ k, k < e.count.toNat → L (e.start.toNat + k) = L e.start.toNat

theorem Enc.count_le (e : Enc) : e.count.toNat ≤ 127 := Nat.le_of_lt_succ e.count.isLt

/-- A fresh pending packet holds the new pixel alone (R133, R135, R136). -/
theorem Pending.fresh {L : Nat → Pixel} {e : Enc} (m : Mode) (hi : e.idx.toNat < 65535) : Pending L (freshPacket m e) where
  ends := by simp [freshPacket]; omega
  nonempty _ := by simp [freshPacket]
  same _ k hk := by
    have hk0 : k = 0 := by simpa [freshPacket] using hk
    rw [hk0, Nat.add_zero]

/-- The switch to REPEAT takes the tail that equals the new pixel into the fresh packet (R132). -/
theorem Pending.switch {L : Nat → Pixel} {e : Enc} (hs : Pending L e) (ht : tailMatches L e = true)
    (hi : e.idx.toNat < 65535) : Pending L (stepSwitch L e).1 := by
  obtain ⟨hla, htail⟩ := (tailMatches_iff L e).mp ht
  have hend := hs.ends
  have hla2 := e.la.isLt
  have hcount : (stepSwitch L e).1.count.toNat = e.la.toNat + 1 := by simp [stepSwitch]; omega
  have hstart : (stepSwitch L e).1.start.toNat = e.idx.toNat - e.la.toNat := by simp [stepSwitch]; omega
  have hall : ∀ k, k < e.la.toNat + 1 → L (e.idx.toNat - e.la.toNat + k) = L e.idx.toNat := by
    intro k hk
    by_cases hka : k = e.la.toNat
    · rw [hka, Nat.sub_add_cancel (by omega)]
    · rw [← htail (e.la.toNat - 1 - k) (by omega)]
      congr 1
      omega
  refine ⟨?_, fun _ => by omega, fun _ k hk => ?_⟩
  · rw [hstart, hcount]
    simp [stepSwitch]
    omega
  · rw [hstart, hall k (by omega), ← hall 0 (by omega), Nat.add_zero]

/-- The pending packet takes the new pixel; a REPEAT only its own (R134, R135). -/
theorem Pending.extend {L : Nat → Pixel} {e : Enc} (hs : Pending L e) (hc : e.count.toNat ≠ 127)
    (hp : e.mode = .repeated → L e.idx.toNat = L e.start.toNat) (hi : e.idx.toNat < 65535) :
    Pending L (extendPacket e) := by
  have hend := hs.ends
  have hle := e.count_le
  have hcount : (extendPacket e).count.toNat = e.count.toNat + 1 := by simp [extendPacket]; omega
  refine ⟨?_, fun _ => by omega, fun hm k hk => ?_⟩
  · rw [hcount]
    simp [extendPacket]
    omega
  · by_cases hke : k = e.count.toNat
    · exact hke ▸ hend ▸ hp hm
    · exact hs.same hm k (by omega)

/-- One step keeps the pending packet well formed, and what it emits together with what is pending afterwards is what was
pending before and the new pixel. -/
theorem encStep_emitted {L : Nat → Pixel} {e : Enc} (hs : Pending L e) (hi : e.idx.toNat < 65535) :
    Pending L (encStep L e).1 ∧
      ∃ n, Emitted L e.start.toNat n (encStep L e).2 ∧ e.start.toNat + n = (encStep L e).1.start.toNat := by
  have hend := hs.ends
  have hle := e.count_le
  rcases encStep_cases L e with ⟨-, ht, h⟩ | ⟨-, -, hc, h⟩ | ⟨hm, -, hc, h⟩ | ⟨hm, hp, hc, h⟩ | ⟨hm, hp, hc, h⟩ |
      ⟨hm, hp, h⟩
  · rw [h]
    refine ⟨hs.switch ht hi, e.count.toNat - e.la.toNat, ?_, ?_⟩
    · by_cases hh : 1 ≤ e.count.toNat - e.la.toNat
      · simpa [stepSwitch, hh] using Emitted.copy hh (by omega)
      · simpa [stepSwitch, hh, Nat.le_zero.mp (Nat.le_of_lt_succ (Nat.lt_of_not_le hh))] using Emitted.nil L _
    · have hla := ((tailMatches_iff L e).mp ht).1
      simp [stepSwitch]
      omega
  · rw [h]
    exact ⟨.fresh _ hi, 127, .copy (by omega) (by omega), by simpa [freshPacket, hc] using hend⟩
  · rw [h]
    exact ⟨hs.extend hc (fun hr => by simp [hm] at hr) hi, 0, .nil L _, rfl⟩
  · rw [h]
    refine ⟨.fresh _ hi, 127, .repeated (by omega) (by omega) fun k hk => ?_, by simpa [freshPacket, hc] using hend⟩
    exact hs.same hm k (by omega)
  · rw [h]
    exact ⟨hs.extend hc (fun _ => hp) hi, 0, .nil L _, rfl⟩
  · rw [h]
    exact ⟨.fresh _ hi, e.count.toNat, .repeated (hs.nonempty hm) hle (hs.same hm), by simpa [freshPacket] using hend⟩

/-- The flush emits what is pending (R137). -/
theorem flushRun_emitted {L : Nat → Pixel} {e : Enc} (hs : Pending L e) :
    Emitted L e.start.toNat e.count.toNat (flushRun L e) := by
  unfold flushRun
  split
  · next hc =>
    cases hm : e.mode with
    | copy => exact .copy hc e.count_le
    | repeated => exact .repeated hc e.count_le (hs.same hm)
  · next hc =>
    rw [Nat.lt_one_iff.mp (Nat.lt_of_not_le hc)]
    exact .nil L _

/-- The packets of `n` steps and the flush are what was pending and the `n` pixels read. -/
theorem runSteps_emitted {L : Nat → Pixel} {e : Enc} {n : Nat} (hs : Pending L e) (hi : e.idx.toNat + n ≤ 65535) :
    Emitted L e.start.toNat (e.count.toNat + n) (runSteps L n e).2 := by
  induction n generalizing e with
  | zero => exact flushRun_emitted hs
  | succ n ih =>
    obtain ⟨hp, m, hm, hstart⟩ := encStep_emitted hs (by omega)
    have hidx : (encStep L e).1.idx.toNat = e.idx.toNat + 1 := by
      rw [(encStep_frame L e).1, BitVec.toNat_ofNat]
      omega
    have hlater := ih hp (by omega)
    rw [← hstart] at hlater
    have hlen : e.count.toNat + (n + 1) = m + ((encStep L e).1.count.toNat + n) := by
      have := hs.ends
      have := hp.ends
      omega
    rw [hlen]
    exact hm.append hlater

theorem Pending.startRun {L : Nat → Pixel} (e : Enc) (s0 n : Nat) (la : BitVec 2) : Pending L (Machine.startRun e s0 n la) :=
  ⟨Nat.add_zero _, (nomatch ·), (nomatch ·)⟩

/-- The packets of a run partition it, and each holds 1 to 127 pixels. -/
theorem encodeRun_emitted (L : Nat → Pixel) (e : Enc) {s0 n : Nat} (la : BitVec 2) (h : s0 + n ≤ 65535) :
    Emitted L s0 n (encodeRun L e s0 n la).2 := by
  have hs0 : (startRun e s0 n la).start.toNat = s0 := by simp [startRun]; omega
  have hrun := runSteps_emitted (n := n) (Pending.startRun (L := L) e s0 n la) (by
    have : (startRun e s0 n la).idx.toNat = s0 := hs0
    omega)
  rw [hs0, show (startRun e s0 n la).count.toNat = 0 from rfl, Nat.zero_add] at hrun
  exact hrun

/-- A run leaves E.skip and E.first to the pixel-skip attachment after it. -/
theorem runSteps_skip_first (L : Nat → Pixel) (n : Nat) (e : Enc) :
    (runSteps L n e).1.skip = e.skip ∧ (runSteps L n e).1.first = e.first := by
  induction n generalizing e with
  | zero => exact ⟨rfl, rfl⟩
  | succ n ih =>
    obtain ⟨-, -, -, hskip, hfirst⟩ := encStep_frame L e
    obtain ⟨hs, hf⟩ := ih (encStep L e).1
    exact ⟨hs.trans hskip, hf.trans hfirst⟩

end Sys2Proof.Machine
end

section
/-! PROOF. What the differ records: the sub-chunks of two lines are their maximal changed runs, left to right
(41_line_differ.md R168). -/

namespace Sys2Proof.Machine

/-! ### The sub-chunks of a line -/

/-- `sc` is the first maximal run of changed pixels from `a` on, where `a` is the start of the line or the end of the run
before; it ends inside the line of `w` pixels. -/
structure IsNextChunk (C P : Nat → Pixel) (w a : Nat) (sc : SubChunk) : Prop where
  start : sc.start.toNat = a + sc.skip.toNat
  unchanged : ∀ i, a ≤ i → i < sc.start.toNat → C i = P i
  changed : ∀ i, sc.start.toNat ≤ i → i < sc.start.toNat + sc.length.toNat → C i ≠ P i
  gap : 0 < a → 1 ≤ sc.skip.toNat
  nonempty : 1 ≤ sc.length.toNat
  inside : sc.start.toNat + sc.length.toNat ≤ w

/-- `scs` are all maximal runs of changed pixels from `a` to the end of the line. -/
def ChunksFrom (C P : Nat → Pixel) (w a : Nat) (scs : List SubChunk) : Prop :=
  match scs with
  | [] => ∀ i, a ≤ i → i < w → C i = P i
  | sc :: rest => IsNextChunk C P w a sc ∧ ChunksFrom C P w (sc.start.toNat + sc.length.toNat) rest

theorem ChunksFrom.length_le {C P : Nat → Pixel} {w a : Nat} {scs : List SubChunk} (h : ChunksFrom C P w a scs)
    (ha : a ≤ w) : a + scs.length ≤ w := by
  induction scs generalizing a with
  | nil => exact ha
  | cons sc rest ih =>
    obtain ⟨hsc, hrest⟩ := h
    have := ih hrest hsc.inside
    have := hsc.start
    have := hsc.nonempty
    rw [List.length_cons]
    omega

theorem ChunksFrom.eq_nil_iff {C P : Nat → Pixel} {w a : Nat} {scs : List SubChunk} (h : ChunksFrom C P w a scs) :
    scs = [] ↔ ∀ i, a ≤ i → i < w → C i = P i := by
  cases scs with
  | nil => exact iff_of_true rfl h
  | cons sc rest =>
    have hn := h.1.nonempty
    have hs := h.1.start
    have hin := h.1.inside
    refine iff_of_false (List.cons_ne_nil _ _) fun heq => ?_
    exact h.1.changed _ (Nat.le_refl _) (by omega) (heq _ (by omega) (by omega))

/-! ### The registers of the differ -/

/-- D.* at D.idx, when the last run recorded ended at `a` (10_state.md R41 to R44): D.skip counts the unchanged pixels from
`a` on, D.len the changed ones after them, which begin at D.start. -/
structure DifAt (C P : Nat → Pixel) (a : Nat) (d : Dif) : Prop where
  idx : a + d.skip.toNat + d.len.toNat = d.idx.toNat
  start : 0 < d.len.toNat → d.start.toNat = a + d.skip.toNat
  unchanged : ∀ i, a ≤ i → i < a + d.skip.toNat → C i = P i
  changed : ∀ i, a + d.skip.toNat ≤ i → i < d.idx.toNat → C i ≠ P i
  gap : 0 < a → 1 ≤ d.skip.toNat

theorem DifAt.chunk {C P : Nat → Pixel} {w a : Nat} {d : Dif} (h : DifAt C P a d) (hlen : 0 < d.len.toNat)
    (hw : d.idx.toNat ≤ w) :
    IsNextChunk C P w a { skip := d.skip, start := d.start, length := d.len } := by
  have hs := h.start hlen
  have hi := h.idx
  refine ⟨hs, fun i ha hi => h.unchanged i ha (hs ▸ hi), fun i h1 h2 => h.changed i ?_ ?_, h.gap, hlen, ?_⟩
  all_goals
    dsimp only at *
    omega

/-- An unchanged pixel (R163) ends the run in progress, if there is one, and is counted into the gap before the next. -/
theorem DifAt.step_eq {C P : Nat → Pixel} {a : Nat} {d : Dif} (h : DifAt C P a d) (heq : C d.idx.toNat = P d.idx.toNat)
    (hi : d.idx.toNat < 65535) :
    DifAt C P (if 0 < d.len.toNat then d.idx.toNat else a) (difStep C P d).1 := by
  have hidx := h.idx
  by_cases hlen : 0 < d.len.toNat
  · have hstep : (difStep C P d).1 =
        { d with idx := BitVec.ofNat 16 (d.idx.toNat + 1), skip := 1, len := 0 } := by
      simp [difStep, heq, subChunkOpen, hlen]
    rw [if_pos hlen, hstep]
    refine ⟨?_, fun h0 => absurd h0 (by simp), fun i h1 h2 => ?_, fun i h1 h2 => ?_, fun _ => by simp⟩
    · simp; omega
    · rwa [show i = d.idx.toNat by simp at h2; omega]
    · simp at h1 h2; omega
  · have hstep : (difStep C P d).1 =
        { d with idx := BitVec.ofNat 16 (d.idx.toNat + 1), skip := BitVec.ofNat 16 (d.skip.toNat + 1), len := 0 } := by
      simp [difStep, heq, subChunkOpen, hlen]
    rw [if_neg hlen, hstep]
    refine ⟨?_, fun h0 => absurd h0 (by simp), fun i h1 h2 => ?_, fun i h1 h2 => ?_, fun _ => ?_⟩
    · simp; omega
    · by_cases hie : i = d.idx.toNat
      · rwa [hie]
      · refine h.unchanged i h1 ?_
        simp at h2
        omega
    · simp at h1 h2; omega
    · simp; omega

/-- A changed pixel (R164) begins a run or goes on with it. -/
theorem DifAt.step_ne {C P : Nat → Pixel} {a : Nat} {d : Dif} (h : DifAt C P a d) (hne : C d.idx.toNat ≠ P d.idx.toNat)
    (hi : d.idx.toNat < 65535) : DifAt C P a (difStep C P d).1 := by
  have hidx := h.idx
  have hstart := h.start
  have hstep : (difStep C P d).1 = { d with
      idx := BitVec.ofNat 16 (d.idx.toNat + 1)
      start := if subChunkOpen d then d.start else d.idx
      len := BitVec.ofNat 16 (d.len.toNat + 1) } := by
    simp [difStep, hne]
  rw [hstep]
  refine ⟨?_, fun _ => ?_, h.unchanged, fun i h1 h2 => ?_, h.gap⟩
  · simp; omega
  · by_cases hlen : 0 < d.len.toNat
    · simpa [subChunkOpen, hlen] using hstart hlen
    · simp [subChunkOpen, hlen]; omega
  · by_cases hie : i = d.idx.toNat
    · rwa [hie]
    · refine h.changed i h1 ?_
      simp at h2
      omega

theorem difSteps_chunks {C P : Nat → Pixel} {w a : Nat} {d : Dif} {n : Nat} (h : DifAt C P a d)
    (hn : d.idx.toNat + n = w) (hw : w ≤ 65535) : ChunksFrom C P w a (difSteps C P n d).2 := by
  induction n generalizing a d with
  | zero =>
    have hidx := h.idx
    rw [difSteps]
    by_cases hlen : 0 < d.len.toNat
    · rw [openRecord_open hlen]
      refine ⟨h.chunk hlen (by omega), fun i h1 h2 => ?_⟩
      have := h.start hlen
      dsimp only at h1
      omega
    · rw [openRecord_closed (BitVec.eq_of_toNat_eq (Nat.eq_zero_of_not_pos hlen))]
      exact fun i h1 h2 => h.unchanged i h1 (by omega)
  | succ n ih =>
    have hidx : (difStep C P d).1.idx.toNat = d.idx.toNat + 1 := by
      rw [difStep_idx, BitVec.toNat_ofNat]
      omega
    by_cases heq : C d.idx.toNat = P d.idx.toNat
    · have hlater := ih (h.step_eq heq (by omega)) (by omega)
      by_cases hlen : 0 < d.len.toNat
      · rw [if_pos hlen] at hlater
        have hend : d.start.toNat + d.len.toNat = d.idx.toNat := by
          have := h.start hlen
          have := h.idx
          omega
        have hrec : (difStep C P d).2 = [{ skip := d.skip, start := d.start, length := d.len }] := by
          simp [difStep, heq, openRecord_open hlen]
        rw [difSteps, hrec]
        exact ⟨h.chunk hlen (by omega), hend ▸ hlater⟩
      · rw [if_neg hlen] at hlater
        have hrec : (difStep C P d).2 = [] := by
          simp [difStep, heq, openRecord_closed (BitVec.eq_of_toNat_eq (Nat.eq_zero_of_not_pos hlen))]
        rw [difSteps, hrec]
        exact hlater
    · have hrec : (difStep C P d).2 = [] := by simp [difStep, heq]
      rw [difSteps, hrec]
      exact ih (h.step_ne heq (by omega)) (by omega)

/-- The sub-chunks of two lines are their maximal changed runs. -/
theorem differ_chunks (C P : Nat → Pixel) {w : Nat} (hw : w ≤ 65535) : ChunksFrom C P w 0 (differ C P w).2 := by
  refine difSteps_chunks ⟨rfl, fun h => absurd h (by decide), fun i h1 h2 => ?_, fun i h1 h2 => ?_, fun h => ?_⟩ ?_ hw
  · simp at h2
  · simp at h2
  · omega
  · exact Nat.zero_add w

theorem differ_length_le (C P : Nat → Pixel) {w : Nat} (hw : w ≤ 65535) : (differ C P w).2.length ≤ w := by
  have := (differ_chunks C P hw).length_le (Nat.zero_le w)
  omega

end Sys2Proof.Machine
end

section
/-! PROOF. The packets of a delta line: each sub-chunk's packets are its pure skips and its run, and one after the other
they cover the changed pixels of the line (42_rle_encoder_delta.md R188). -/

namespace Sys2Proof.Machine

/-! ### Lists of LC packets -/

/-- Packets attached with no skip, as all but the first of a sub-chunk are (R182). -/
def unskipped (pks : List Packet) : List LcPacket := pks.map fun pk => { skip := 0, pk := pk }

theorem unskipped_cons (pk : Packet) (pks : List Packet) :
    unskipped (pk :: pks) = { skip := 0, pk := pk } :: unskipped pks := rfl

theorem lcExtent_cons (skip : Byte) (pk : Packet) (lps : List LcPacket) :
    lcExtent ({ skip := skip, pk := pk } :: lps) = skip.toNat + pk.npix + lcExtent lps := rfl

theorem lcExtent_unskipped (pks : List Packet) : lcExtent (unskipped pks) = (expandAll pks).length := by
  induction pks with
  | nil => rfl
  | cons pk pks ih =>
    rw [unskipped_cons, lcExtent_cons, ih]
    simp

theorem lcExtent_pureSkips (q : Nat) : lcExtent (List.replicate q pureSkip) = 255 * q := by
  induction q with
  | zero => rfl
  | succ q ih =>
    rw [List.replicate_succ, lcExtent, ih]
    simp [pureSkip, Packet.npix, Config.skipMax]
    omega

/-- Every pixel that the packets cover, from column `x` on, is one of `Q`. -/
def CoversOnly (Q : Nat → Prop) (x : Nat) (lps : List LcPacket) : Prop :=
  match lps with
  | [] => True
  | lp :: rest =>
    (∀ k, k < lp.pk.npix → Q (x + lp.skip.toNat + k)) ∧ CoversOnly Q (x + lp.skip.toNat + lp.pk.npix) rest

theorem coversOnly_cons {Q : Nat → Prop} {x : Nat} {skip : Byte} {pk : Packet} {lps : List LcPacket} :
    CoversOnly Q x ({ skip := skip, pk := pk } :: lps) ↔
      (∀ k, k < pk.npix → Q (x + skip.toNat + k)) ∧ CoversOnly Q (x + skip.toNat + pk.npix) lps := Iff.rfl

theorem coversOnly_append {Q : Nat → Prop} {x : Nat} {ps qs : List LcPacket} :
    CoversOnly Q x (ps ++ qs) ↔ CoversOnly Q x ps ∧ CoversOnly Q (x + lcExtent ps) qs := by
  induction ps generalizing x with
  | nil => simp [CoversOnly, lcExtent]
  | cons lp ps ih => simp [CoversOnly, lcExtent, ih, and_assoc, Nat.add_assoc]

theorem CoversOnly.pureSkips (Q : Nat → Prop) (x q : Nat) : CoversOnly Q x (List.replicate q pureSkip) := by
  induction q generalizing x with
  | zero => trivial
  | succ q ih => exact ⟨fun k hk => absurd hk (Nat.not_lt_zero k), ih _⟩

theorem CoversOnly.unskipped {Q : Nat → Prop} {x : Nat} {pks : List Packet}
    (h : ∀ i, x ≤ i → i < x + (expandAll pks).length → Q i) : CoversOnly Q x (unskipped pks) := by
  induction pks generalizing x with
  | nil => trivial
  | cons pk pks ih =>
    simp only [expandAll_cons, List.length_append, expand_length] at h
    rw [unskipped_cons, coversOnly_cons, show (0 : Byte).toNat = 0 from rfl, Nat.add_zero]
    exact ⟨fun k hk => h _ (by omega) (by omega), ih fun i h1 h2 => h i (by omega) (by omega)⟩

/-- A packet of the encoder: 1 to 127 pixels, or the pure skip (R188 item 2). -/
def Bounded (lp : LcPacket) : Prop := (1 ≤ lp.pk.npix ∧ lp.pk.npix ≤ 127) ∨ lp = pureSkip

theorem length_le_lcExtent {lps : List LcPacket} (h : ∀ lp ∈ lps, Bounded lp) : lps.length ≤ lcExtent lps := by
  induction lps with
  | nil => exact Nat.le_refl 0
  | cons lp lps ih =>
    have hrest := ih fun p hp => h p (.tail _ hp)
    have hlp : 1 ≤ lp.skip.toNat + lp.pk.npix := by
      rcases h lp (.head _) with ⟨h1, -⟩ | rfl
      · omega
      · decide
    rw [List.length_cons, lcExtent]
    omega

/-- The last packet carries pixels (R188 item 4). -/
def EndsInPixels (lps : List LcPacket) : Prop := ∀ lp, lps.getLast? = some lp → 1 ≤ lp.pk.npix

theorem EndsInPixels.append {ps qs : List LcPacket} (hne : qs ≠ []) (h : EndsInPixels qs) : EndsInPixels (ps ++ qs) := by
  intro lp hlp
  rw [List.getLast?_append_of_ne_nil ps hne] at hlp
  exact h lp hlp

theorem EndsInPixels.of_forall {lps : List LcPacket} (h : ∀ lp ∈ lps, 1 ≤ lp.pk.npix) : EndsInPixels lps :=
  fun _ hlp => h _ (List.mem_of_getLast? hlp)

/-! ### One sub-chunk -/

/-- The skip that is left for the first packet of a sub-chunk, after its pure skips (R183). -/
def skipLeft (sc : SubChunk) : Nat := sc.skip.toNat - 255 * skipSplits sc.skip.toNat

theorem skipLeft_spec (sc : SubChunk) :
    skipLeft sc ≤ 255 ∧ 255 * skipSplits sc.skip.toNat + skipLeft sc = sc.skip.toNat := by
  by_cases h : 1 ≤ sc.skip.toNat
  · have := skipSplits_spec h
    simp only [skipLeft]
    omega
  · have h0 : sc.skip.toNat = 0 := by omega
    simp [skipLeft, h0, skipSplits]

/-- The run of a sub-chunk, with E.skip and E.first loaded for the attachment after it (R181, R182). -/
def chunkRun (L : Nat → Pixel) (e : Enc) (sc : SubChunk) : Enc × List Packet :=
  encodeRun L { e with skip := BitVec.ofNat 16 (skipLeft sc), first := true } sc.start.toNat sc.length.toNat
    Config.laDelta

theorem encodeSubChunk_eq (L : Nat → Pixel) (e : Enc) (sc : SubChunk) :
    (encodeSubChunk L e sc).2 = List.replicate (skipSplits sc.skip.toNat) pureSkip ++
      (attachSkips (chunkRun L e sc).1 (chunkRun L e sc).2).2 := rfl

theorem chunkRun_skip_first (L : Nat → Pixel) (e : Enc) (sc : SubChunk) :
    (chunkRun L e sc).1.skip = BitVec.ofNat 16 (skipLeft sc) ∧ (chunkRun L e sc).1.first = true :=
  runSteps_skip_first L _ _

/-- The first packet takes E.skip, the others none (R182). -/
theorem attachSkips_first {e : Enc} (he : e.first = true) (pk : Packet) (pks : List Packet) :
    (attachSkips e (pk :: pks)).2 = { skip := BitVec.ofNat 8 e.skip.toNat, pk := pk } :: unskipped pks := by
  rw [attachSkips, attachSkips_rest rfl, he, if_pos rfl]
  rfl

/-- The packets of a sub-chunk with pixels: its pure skips, and its run with the skip that is left on the first packet. -/
theorem encodeSubChunk_packets (L : Nat → Pixel) (e : Enc) {sc : SubChunk} (hpos : 1 ≤ sc.length.toNat)
    (hend : sc.start.toNat + sc.length.toNat ≤ 65535) :
    ∃ pk rest, Emitted L sc.start.toNat sc.length.toNat (pk :: rest) ∧
      (encodeSubChunk L e sc).2 = List.replicate (skipSplits sc.skip.toNat) pureSkip ++
        { skip := BitVec.ofNat 8 (skipLeft sc), pk := pk } :: unskipped rest := by
  have hem : Emitted L sc.start.toNat sc.length.toNat (chunkRun L e sc).2 := encodeRun_emitted L _ _ hend
  obtain ⟨hskip, hfirst⟩ := chunkRun_skip_first L e sc
  have hleft : (BitVec.ofNat 16 (skipLeft sc)).toNat = skipLeft sc := by
    have := (skipLeft_spec sc).1
    exact Nat.mod_eq_of_lt (by omega)
  rw [encodeSubChunk_eq]
  cases hrun : (chunkRun L e sc).2 with
  | nil =>
    have hnone : 0 = sc.length.toNat := (hrun ▸ hem).length
    omega
  | cons pk rest =>
    refine ⟨pk, rest, hrun ▸ hem, ?_⟩
    rw [attachSkips_first hfirst, hskip, hleft]

/-- What the packets of a sub-chunk are: bounded, the last of them with pixels, as long as the sub-chunk, and covering its
changed pixels. -/
structure EncodesChunk (sc : SubChunk) (lps : List LcPacket) : Prop where
  nonempty : lps ≠ []
  bounded : ∀ lp ∈ lps, Bounded lp
  ends : EndsInPixels lps
  extent : lcExtent lps = sc.skip.toNat + sc.length.toNat
  covers : ∀ (Q : Nat → Prop) (a : Nat), sc.start.toNat = a + sc.skip.toNat →
    (∀ i, sc.start.toNat ≤ i → i < sc.start.toNat + sc.length.toNat → Q i) → CoversOnly Q a lps

theorem encodeSubChunk_encodes (L : Nat → Pixel) (e : Enc) {sc : SubChunk} (hpos : 1 ≤ sc.length.toNat)
    (hend : sc.start.toNat + sc.length.toNat ≤ 65535) : EncodesChunk sc (encodeSubChunk L e sc).2 := by
  obtain ⟨pk, rest, hem, hpackets⟩ := encodeSubChunk_packets L e hpos hend
  obtain ⟨hleft, hsplit⟩ := skipLeft_spec sc
  have hlen := hem.length
  rw [expandAll_cons, List.length_append, expand_length] at hlen
  have hskip : (BitVec.ofNat 8 (skipLeft sc)).toNat = skipLeft sc := Nat.mod_eq_of_lt (by omega)
  have hrun : ∀ lp ∈ ({ skip := BitVec.ofNat 8 (skipLeft sc), pk := pk } : LcPacket) :: unskipped rest,
      1 ≤ lp.pk.npix ∧ lp.pk.npix ≤ 127 := by
    intro lp hlp
    rcases List.mem_cons.mp hlp with rfl | hlp
    · exact hem.bounds _ (.head _)
    · obtain ⟨q, hq, rfl⟩ := List.mem_map.mp hlp
      exact hem.bounds q (.tail _ hq)
  rw [hpackets]
  refine ⟨by simp, fun lp hlp => ?_, ?_, ?_, fun Q a hstart hQ => ?_⟩
  · rcases List.mem_append.mp hlp with hlp | hlp
    · exact .inr (List.eq_of_mem_replicate hlp)
    · exact .inl (hrun lp hlp)
  · exact .append (List.cons_ne_nil _ _) (.of_forall fun lp hlp => (hrun lp hlp).1)
  · rw [lcExtent_append, lcExtent_pureSkips, lcExtent_cons, lcExtent_unskipped, hskip]
    omega
  · refine coversOnly_append.mpr ⟨.pureSkips Q a _, ?_⟩
    rw [lcExtent_pureSkips, coversOnly_cons, hskip]
    have hcol : a + 255 * skipSplits sc.skip.toNat + skipLeft sc = sc.start.toNat := by omega
    rw [hcol]
    exact ⟨fun k hk => hQ _ (by omega) (by omega), .unskipped fun i h1 h2 => hQ i (by omega) (by omega)⟩

/-! ### The line -/

/-- The packets of a line depend on no register left before (10_state.md R54, R56). -/
theorem deltaLine_regs (L : Nat → Pixel) (e f : Enc) (scs : List SubChunk) :
    (deltaLine L e scs).2 = (deltaLine L f scs).2 := by
  cases scs with
  | nil => rfl
  | cons sc rest => rw [deltaLine, deltaLine, encodeSubChunk_regs L e f]

/-- What the packets of the sub-chunks from `a` on are. -/
structure EncodesLine (C P : Nat → Pixel) (w a : Nat) (scs : List SubChunk) (lps : List LcPacket) : Prop where
  eq_nil_iff : lps = [] ↔ scs = []
  bounded : ∀ lp ∈ lps, Bounded lp
  ends : EndsInPixels lps
  extent : a + lcExtent lps ≤ w
  covers : CoversOnly (fun i => C i ≠ P i) a lps

theorem deltaLine_encodes {C P : Nat → Pixel} {w a : Nat} {scs : List SubChunk} (h : ChunksFrom C P w a scs) (ha : a ≤ w)
    (hw : w ≤ 65535) (L : Nat → Pixel) (e : Enc) : EncodesLine C P w a scs (deltaLine L e scs).2 := by
  induction scs generalizing a e with
  | nil => exact ⟨iff_of_true rfl rfl, by simp [deltaLine], fun _ hlp => (nomatch hlp), ha, trivial⟩
  | cons sc rest ih =>
    obtain ⟨hsc, hrest⟩ := h
    have hnow := encodeSubChunk_encodes L e hsc.nonempty (Nat.le_trans hsc.inside hw)
    have hlater := ih hrest hsc.inside (encodeSubChunk L e sc).1
    have hnext : a + lcExtent (encodeSubChunk L e sc).2 = sc.start.toNat + sc.length.toNat := by
      rw [hnow.extent, hsc.start, Nat.add_assoc]
    rw [deltaLine]
    refine ⟨iff_of_false (by simp [hnow.nonempty]) (List.cons_ne_nil _ _), fun lp hlp => ?_, ?_, ?_, ?_⟩
    · rcases List.mem_append.mp hlp with hlp | hlp
      · exact hnow.bounded lp hlp
      · exact hlater.bounded lp hlp
    · by_cases hnil : (deltaLine L (encodeSubChunk L e sc).1 rest).2 = []
      · rw [hnil, List.append_nil]
        exact hnow.ends
      · exact hlater.ends.append hnil
    · rw [lcExtent_append, ← Nat.add_assoc, hnext]
      exact hlater.extent
    · exact coversOnly_append.mpr ⟨hnow.covers _ a hsc.start hsc.changed, hnext ▸ hlater.covers⟩

/-- What the packets of ENC_DELTA for two lines are. -/
theorem deltaLine_differ_encodes (C P L : Nat → Pixel) (e : Enc) {w : Nat} (hw : w ≤ 65535) :
    EncodesLine C P w 0 (differ C P w).2 (deltaLine L e (differ C P w).2).2 :=
  deltaLine_encodes (differ_chunks C P hw) (Nat.zero_le w) hw L e

/-- A line of `w` pixels has at most `w` LC packets. -/
theorem deltaLine_length_le (C P L : Nat → Pixel) (e : Enc) {w : Nat} (hw : w ≤ 65535) :
    (deltaLine L e (differ C P w).2).2.length ≤ w := by
  have h := deltaLine_differ_encodes C P L e hw
  have := length_le_lcExtent h.bounded
  have := h.extent
  omega

/-- Settles O51: every claim is one about the packets of all sub-chunks, an induction over the maximal changed runs. -/
theorem deltaPacketsAreBoundedAndCoverChanges : Obligations.DeltaPacketsAreBoundedAndCoverChanges := by
  rintro C P e w out hw rfl
  have h := deltaLine_differ_encodes C P C e hw
  refine ⟨deltaLine_regs C e State.reset.enc _, h.bounded, fun lp hlp => ?_, ?_, fun pre lp post hout k hk => ?_, ?_⟩
  · have hpix := h.ends lp hlp
    exact ⟨fun hpure => by simp [hpure, pureSkip, Packet.npix] at hpix, hpix⟩
  · rw [h.eq_nil_iff, (differ_chunks C P hw).eq_nil_iff]
    exact ⟨fun heq i hi => heq i (Nat.zero_le i) hi, fun heq i _ hi => heq i hi⟩
  · have hcov := h.covers
    rw [hout, coversOnly_append, Nat.zero_add] at hcov
    exact hcov.2.1 k hk
  · exact Nat.zero_add (lcExtent _) ▸ h.extent

end Sys2Proof.Machine
end

section
/-! PROOF. ENC_KEY, DIFF and ENC_DELTA in closed form, and what they count: a line of at most 65535 pixels has no more
packets and sub-chunks than pixels, so no count register wraps (10_state.md R28, R29). -/

namespace Sys2Proof.Machine

/-! ### The start of a command whose checks pass -/

theorem startCommand_run {code : BitVec 3} {s : State} (hf : s.status.fault = 0) (hw : s.cfg.w ≠ 0)
    (hh : isDecodeCode code = true → s.cfg.h ≠ 0) (body : State → Flow) :
    startCommand code body s = body (s.setOp code) := by
  rcases startCommand_cases code body s with ⟨h, -⟩ | ⟨-, h | ⟨hd, h⟩, -⟩ | ⟨-, -, -, h⟩
  · exact absurd hf h
  · exact absurd h hw
  · exact absurd h (hh hd)
  · exact h

/-! ### Counts of 16 bits -/

theorem toNat_ofNat_count {n : Nat} (h : n ≤ 65535) : (BitVec.ofNat 16 n).toNat = n := Nat.mod_eq_of_lt (by omega)

theorem changedFlag_count {n : Nat} (h : n ≤ 65535) : changedFlag (BitVec.ofNat 16 n) = decide (0 < n) := by
  rw [changedFlag, toNat_ofNat_count h]

/-! ### ENC_KEY -/

/-- The run of ENC_KEY over the whole line, with the registers it leaves (40_rle_encoder_key.md R141). -/
def keyRun (s : State) : Enc × List Packet :=
  encodeRun (linePixel (s.freeCtr + 1) .current s.lcur) s.enc 0 s.cfg.w.toNat 2

/-- The state in which ENC_KEY has counted its packets and not yet written OUT. -/
def keyCounted (s : State) (run : Enc × List Packet) : State :=
  { s with
    enc := run.1
    res := { s.res with pk := run.2.map .brun }
    status := { s.status with npk := BitVec.ofNat 16 run.2.length }
    freeCtr := s.freeCtr + 1 }

theorem keyRun_length_le (s : State) : (keyRun s).2.length ≤ 65535 := by
  have hw := s.cfg.w.isLt
  have := (encodeRun_emitted (linePixel (s.freeCtr + 1) .current s.lcur) s.enc 2 (s0 := 0) (n := s.cfg.w.toNat)
    (by omega)).length_le
  exact Nat.le_trans this (by omega)

theorem encKeyProc_eq (s : State) : encKeyProc s =
    if 255 < (keyRun s).2.length then raiseEncode .packetCountOverflow (keyCounted s (keyRun s))
    else .go ((keyCounted s (keyRun s)).appendOut (brunRecord (keyRun s).2)) := by
  have hcounted : State.emitAll { s.drawFree.clearPackets with enc := (keyRun s).1 }
      ((keyRun s).2.map ResPacket.brun) = keyCounted s (keyRun s) := by
    rw [emitAll_eq]
    simp [keyCounted, State.clearPackets, State.drawFree]
  have hnpk : (keyCounted s (keyRun s)).status.npk.toNat = (keyRun s).2.length := toNat_ofNat_count (keyRun_length_le s)
  rw [← hnpk, ← hcounted]
  rfl

/-! ### DIFF -/

/-- The differ's run of DIFF and ENC_DELTA over the two lines (41_line_differ.md R167). -/
def lineDiff (s : State) : Dif × List SubChunk :=
  differ (linePixel (s.freeCtr + 1) .current s.lcur) (linePixel (s.freeCtr + 1) .previous s.lprev) s.cfg.w.toNat

theorem lineDiff_length_le (s : State) : (lineDiff s).2.length ≤ 65535 := by
  have hw : s.cfg.w.toNat ≤ 65535 := Nat.le_of_lt_succ s.cfg.w.isLt
  exact Nat.le_trans (differ_length_le _ _ hw) hw

theorem diffLines_drawFree (s : State) : diffLines s.drawFree = { s with
    dif := (lineDiff s).1
    res := { s.res with sc := (lineDiff s).2 }
    status := { s.status with
      nsc := BitVec.ofNat 16 (lineDiff s).2.length
      changed := decide (0 < (lineDiff s).2.length) }
    freeCtr := s.freeCtr + 1 } := by
  rw [← changedFlag_count (lineDiff_length_le s)]
  rfl

/-! ### ENC_DELTA -/

/-- The packets of ENC_DELTA for the sub-chunks of the line, with the registers they leave (42_rle_encoder_delta.md R184). -/
def deltaRun (s : State) : Enc × List LcPacket :=
  deltaLine (linePixel (s.freeCtr + 1) .current s.lcur) { s.enc with la := 1 } (lineDiff s).2

/-- The state in which ENC_DELTA has counted its packets and not yet written OUT. -/
def deltaCounted (s : State) (d : Dif × List SubChunk) (line : Enc × List LcPacket) : State :=
  { s with
    enc := line.1
    dif := d.1
    res := { pk := line.2.map .lc, sc := d.2 }
    status := { s.status with
      npk := BitVec.ofNat 16 line.2.length
      nsc := BitVec.ofNat 16 d.2.length
      changed := decide (0 < d.2.length) }
    freeCtr := s.freeCtr + 1 }

theorem deltaRun_length_le (s : State) : (deltaRun s).2.length ≤ 65535 := by
  have hw : s.cfg.w.toNat ≤ 65535 := Nat.le_of_lt_succ s.cfg.w.isLt
  exact Nat.le_trans (deltaLine_length_le _ _ _ _ hw) hw

/-- ENC_DELTA after its checks: what it counts, then the three ways it ends (42_rle_encoder_delta.md R187). -/
theorem encDeltaProc_eq {s : State} {d : Dif × List SubChunk} {line : Enc × List LcPacket} (hd : lineDiff s = d)
    (hline : deltaRun s = line) : encDeltaProc s =
      if d.2 = [] then .go (deltaCounted s d line)
      else if 32767 < line.2.length then raiseEncode .packetCountOverflow (deltaCounted s d line)
      else .go ((deltaCounted s d line).appendOut (lcRecord line.2)) := by
  subst hd hline
  have hcounted : State.emitAll { (diffLines s.drawFree).clearPackets with enc := (deltaRun s).1 }
      ((deltaRun s).2.map ResPacket.lc) = deltaCounted s (lineDiff s) (deltaRun s) := by
    rw [emitAll_eq, diffLines_drawFree]
    simp [deltaCounted, State.clearPackets]
  have hnpk : (deltaCounted s (lineDiff s) (deltaRun s)).status.npk.toNat = (deltaRun s).2.length :=
    toNat_ofNat_count (deltaRun_length_le s)
  have hnsc : (deltaCounted s (lineDiff s) (deltaRun s)).status.nsc = 0 ↔ (lineDiff s).2 = [] := by
    rw [← List.length_eq_zero_iff, ← toNat_ofNat_count (lineDiff_length_le s)]
    exact BitVec.toNat_inj.symm
  generalize deltaCounted s (lineDiff s) (deltaRun s) = u at hcounted hnpk hnsc
  simp only [← hnpk, ← hnsc, ← hcounted]
  rfl

/-- Settles O41: the three clauses are the three ways the procedure ends once its counts are known to fit. -/
theorem encDeltaEncodesTheChanges : Obligations.EncDeltaEncodesTheChanges := by
  intro s d line hfault hw hd hline
  have hexec : exec .encDelta s = (encDeltaProc (s.setOp 3)).outcome :=
    congrArg Flow.outcome (startCommand_run hfault hw (fun h => absurd h (by decide)) encDeltaProc)
  have hnil : d.2 = [] → line.2 = [] := fun h => by
    rw [← hline, h]
    rfl
  have hdiff : lineDiff (s.setOp 3) = d := hd
  have hrun : deltaRun (s.setOp 3) = line := by
    rw [deltaRun, hdiff]
    exact hline
  rw [encDeltaProc_eq hdiff hrun] at hexec
  refine ⟨deltaCounted (s.setOp 3) d line, rfl, fun h => ?_, fun h hlen => ?_, fun hlen => ?_⟩
  · rw [hexec, if_pos h]
    exact ⟨rfl, hnil h⟩
  · rw [hexec, if_neg h, if_neg (Nat.not_lt.mpr hlen)]
    rfl
  · rw [hexec, if_neg (fun h => by simp [hnil h] at hlen), if_pos hlen]
    rfl

end Sys2Proof.Machine
end

section
/-! PROOF. What every instruction keeps, and where it can stop: the inversion of `exec` once for all sixteen instructions,
and the invariants of 10_state.md R28 to R30 and R46 and of 20_memory.md R63 and R66 drawn from it. -/

namespace Sys2Proof.Machine

/-! ### What every instruction keeps -/

theorem countsAgree_congr {s t : State} (hres : t.res = s.res) (hnpk : t.status.npk = s.status.npk)
    (hnsc : t.status.nsc = s.status.nsc) (hchanged : t.status.changed = s.status.changed) (h : s.countsAgree) :
    t.countsAgree := by
  rw [State.countsAgree, hres, hnpk, hnsc, hchanged]
  exact h

/-- What every instruction keeps: the bytes of FB behind the frame, X.ip and IN in order, and counts that agree with the
result lists. -/
structure Keeps (s t : State) : Prop where
  fb_outside : ∀ a, 2 * (s.cfg.w.toNat * s.cfg.h.toNat) ≤ a → t.fb.read a = s.fb.read a
  ip_le : s.dec.ip ≤ t.dec.ip
  ip_end : t.dec.ip = s.dec.ip ∨ t.dec.ip ≤ s.inp.length
  inp : t.inp = s.inp
  counts : s.countsAgree → t.countsAgree

theorem Decodes.keeps {s t : State} (h : Decodes s t) : Keeps s t where
  fb_outside := h.fb_outside
  ip_le := h.ip_le
  ip_end := h.ip_end
  inp := h.inp
  counts := countsAgree_congr h.res (congrArg _ h.status) (congrArg _ h.status) (congrArg _ h.status)

/-- Taking a fault touches nothing of it (60_exceptions.md R310). -/
theorem Keeps.raise {s t : State} (h : Keeps s t) (decoding : Bool) (f : FaultName) : Keeps s (raise decoding f t) :=
  ⟨h.fb_outside, h.ip_le, h.ip_end, h.inp, h.counts⟩

/-- CMD.OP is none of it. -/
theorem Keeps.of_setOp {s t : State} {code : BitVec 3} (h : Keeps (s.setOp code) t) : Keeps s t :=
  ⟨h.fb_outside, h.ip_le, h.ip_end, h.inp, h.counts⟩

/-- X.lc is none of it. -/
theorem Keeps.of_setLc {s t : State} {lc : Bool} (h : Keeps (s.setLc lc) t) : Keeps s t :=
  ⟨h.fb_outside, h.ip_le, h.ip_end, h.inp, h.counts⟩

theorem Keeps.setOp (s : State) (code : BitVec 3) : Keeps s (s.setOp code) := .of_setOp (Decodes.refl _).keeps

theorem Raised.keeps {F : FaultName → Prop} {s t : State} (h : Raised F s t) : Keeps s t := by
  obtain ⟨u, f, hu, -, rfl⟩ := h
  exact hu.keeps.raise true f

/-- A flow that keeps it, and gets stuck only if `S`. -/
def KeepsOr (S : Prop) (s : State) (f : Flow) : Prop := f.Sat (Keeps s) (Keeps s) S

theorem Flow.Sat.keepsOr {F : FaultName → Prop} {S : Prop} {G : State → Prop} {s : State} {f : Flow}
    (h : f.Sat G (Raised F s) S) (hG : ∀ t, G t → Decodes s t) : KeepsOr S s f :=
  h.mono (fun t ht => (hG t ht).keeps) (fun _ ht => ht.keeps) id

/-! ### The stream items -/

/-- A packet: what the grammar admits only inside a row or a line (30_encoding.md R106, R107). -/
def IsPacket (i : Instr) : Prop := ∀ p : Position, p.admits i = true → p = .brunPacket ∨ p = .lcPacket

/-- What `decode` finds at a position is admitted there (30_encoding.md R108). -/
theorem decode_admits {p : Position} {bytes rest : List Byte} {i : Instr} (hp : p ≠ .command)
    (h : decode p bytes = .ok (i, rest)) : p.admits i = true := by
  match p, bytes, h with
  | .command, _, _ => exact absurd rfl hp
  | .rowHead, _ :: _, rfl => rfl
  | .brunPacket, b :: _, rfl => unfold brunPacketOf; split <;> rfl
  | .frameHead, _ :: _ :: _, rfl => rfl
  | .lineHead, b0 :: b1 :: _, rfl =>
    unfold lineHeadOf
    split
    · rfl
    · next hw =>
      have : (u16le b0 b1).toNat < 32768 := by
        by_contra hge
        rw [sext16, if_neg hge] at hw
        have := (u16le b0 b1).isLt
        omega
      simp [Position.admits, this]
  | .pktsWord, _ :: _ :: _, rfl => rfl
  | .lcPacket, s :: b :: _, rfl => unfold lcPacketOf; split <;> rfl

/-- A stream item moves only what a decode moves, and only a packet can find X.r without a value. -/
theorem itemProc_keeps (i : Instr) (s : State) :
    KeepsOr (IsPacket i ∧ s.cfg.h.toNat ≤ s.dec.y.toNat) s (itemProc i s) := by
  have hskip (skip : Byte) : Decodes s (addSkip skip s) := .setX s _
  cases i with
  | rowhdr k => exact ((Decodes.setNpk s k.toNat).trans (.setX _ 0)).keeps
  | lines m => exact ((Decodes.setLines s m.toNat).trans (.setY _ 0)).keeps
  | lskip rows => exact (Decodes.setY s _).keeps
  | pkts k =>
    simp only [itemProc, pktsProc]
    split
    · exact (Decodes.refl s).keeps.raise true .lineOverrun
    · exact ((Decodes.setX s 0).trans (.setNpk _ k.toNat)).keeps
  | bRepeat n =>
    exact ((repeatBody_sat n s).mono (fun _ h => h) (fun _ h => h) fun hy =>
      ⟨fun p hp => .inl (by simpa [Position.admits] using hp), hy⟩).keepsOr fun _ h => h.toDecodes
  | bCopy n =>
    exact ((copyBody_sat n s).mono (fun _ h => h) (fun _ h => h) fun hy =>
      ⟨fun p hp => .inl (by simpa [Position.admits] using hp), hy⟩).keepsOr fun _ h => h.toDecodes
  | lCopy skip n =>
    exact ((copyBody_sat n (addSkip skip s)).mono (fun _ h => (hskip skip).trans h.toDecodes)
      (fun _ h => h.of_decodes (hskip skip)) fun hy =>
      ⟨fun p hp => .inr (by simpa [Position.admits] using hp), hy⟩).keepsOr fun _ h => h
  | lRepeat skip n =>
    exact ((repeatBody_sat n (addSkip skip s)).mono (fun _ h => (hskip skip).trans h.toDecodes)
      (fun _ h => h.of_decodes (hskip skip)) fun hy =>
      ⟨fun p hp => .inr (by simpa [Position.admits] using hp), hy⟩).keepsOr fun _ h => h
  | nop | encKey | diff | encDelta | decBrunRow | decBrunFrame | decLcLine | decLcFrame =>
    exact (Decodes.refl s).keeps

/-- A header that is cut short is read like the header of an item. -/
theorem readCutHeader_keeps (s : State) : KeepsOr False s (readCutHeader s) := by
  have h8 : (in8 s fun _ u => .go u).Sat (Decodes s) (Raised LineFault s) False :=
    in8_sat ⟨s, _, .refl s, .inl rfl, rfl⟩ fun _ h => .setIp_succ h
  have h16 : (in16 s fun _ u => .go u).Sat (Decodes s) (Raised LineFault s) False :=
    in16_sat (fun u hu => ⟨u, _, hu, .inl rfl, rfl⟩) fun _ h => .setIp_two h
  have hlc : (in8 s fun skip u => in8 (addSkip skip u) fun _ u => .go u).Sat (Decodes s) (Raised LineFault s) False := by
    refine in8_sat ⟨s, _, .refl s, .inl rfl, rfl⟩ fun skip h => ?_
    have h0 : Decodes s (addSkip skip (s.setIp (s.dec.ip + 1))) := (Decodes.setIp_succ h).trans (.setX _ _)
    exact in8_sat ⟨_, _, h0, .inl rfl, rfl⟩ fun _ h1 => h0.trans (.setIp_succ h1)
  unfold readCutHeader
  split
  · exact (Decodes.refl s).keeps
  · exact h8.keepsOr fun _ h => h
  · exact h8.keepsOr fun _ h => h
  · exact h16.keepsOr fun _ h => h
  · exact h16.keepsOr fun _ h => h
  · exact h16.keepsOr fun _ h => h
  · exact hlc.keepsOr fun _ h => h

/-! ### The commands -/

theorem decodeProc_keeps (i : Instr) (s : State) : KeepsOr False s (decodeProc i s) := by
  have of_lc {lc : Bool} {f : Flow} (h : KeepsOr False (s.setLc lc) f) : KeepsOr False s f :=
    h.mono (fun _ h => h.of_setLc) (fun _ h => h.of_setLc) id
  have hline (lc : Bool) : Decodes (s.setLc lc) (startLine lc s) := (Decodes.setY _ _).trans (.setX _ 0)
  have hframe (lc : Bool) : Decodes (s.setLc lc) (startFrame lc s) := Decodes.setY _ 0
  have start {F : FaultName → Prop} {u v : State} {f : Flow} (h : f.Sat (Decodes v) (Raised F v) False)
      (huv : Decodes u v) : KeepsOr False u f :=
    (h.mono (fun _ ht => huv.trans ht) (fun _ ht => ht.of_decodes huv) id).keepsOr fun _ h => h
  cases i with
  | decBrunRow => exact of_lc (start (brunRow_sat _ _) (hline false))
  | decBrunFrame =>
    exact of_lc (start (brunRows_sat _ 0 (s := startFrame false s) (Nat.le_of_eq (Nat.zero_add _))) (hframe false))
  | decLcLine => exact of_lc (start (pktsLine_sat _) (hline true))
  | decLcFrame => exact of_lc (start (lcFrame_sat _) (hframe true))
  | nop | encKey | diff | encDelta => exact (Decodes.refl s).keeps
  | rowhdr _ | bRepeat _ | bCopy _ | lines _ | lskip _ | pkts _ | lCopy _ _ | lRepeat _ _ =>
    exact (Decodes.refl s).keeps

/-- A state that differs in the encoder's and the differ's registers and results only keeps the rest. -/
theorem Keeps.of_results {s t : State} (hfb : t.fb = s.fb) (hdec : t.dec = s.dec) (hinp : t.inp = s.inp)
    (hcounts : s.countsAgree → t.countsAgree) : Keeps s t :=
  ⟨fun _ _ => by rw [hfb], by rw [hdec], .inl (by rw [hdec]), hinp, hcounts⟩

theorem keyCounted_keeps (s : State) : Keeps s (keyCounted s (keyRun s)) :=
  .of_results rfl rfl rfl fun ⟨_, hnsc, hchanged⟩ =>
    ⟨(toNat_ofNat_count (keyRun_length_le s)).trans (List.length_map _).symm, hnsc, hchanged⟩

theorem encKeyProc_keeps (s : State) : KeepsOr False s (encKeyProc s) := by
  rw [encKeyProc_eq]
  split
  · exact (keyCounted_keeps s).raise false .packetCountOverflow
  · exact ⟨(keyCounted_keeps s).fb_outside, Nat.le_refl _, .inl rfl, rfl, (keyCounted_keeps s).counts⟩

theorem diffLines_keeps (s : State) : Keeps s (diffLines s.drawFree) := by
  rw [diffLines_drawFree]
  exact .of_results rfl rfl rfl fun ⟨hnpk, _, _⟩ => ⟨hnpk, toNat_ofNat_count (lineDiff_length_le s), rfl⟩

theorem deltaCounted_keeps (s : State) : Keeps s (deltaCounted s (lineDiff s) (deltaRun s)) :=
  .of_results rfl rfl rfl fun _ =>
    ⟨(toNat_ofNat_count (deltaRun_length_le s)).trans (List.length_map _).symm,
      toNat_ofNat_count (lineDiff_length_le s), rfl⟩

theorem encDeltaProc_keeps (s : State) : KeepsOr False s (encDeltaProc s) := by
  rw [encDeltaProc_eq rfl rfl]
  split
  · exact deltaCounted_keeps s
  · split
    · exact (deltaCounted_keeps s).raise false .packetCountOverflow
    · exact ⟨(deltaCounted_keeps s).fb_outside, Nat.le_refl _, .inl rfl, rfl, (deltaCounted_keeps s).counts⟩

/-- The checks at the start of a command keep what its procedure keeps. -/
theorem startCommand_keeps {body : State → Flow} (h : ∀ s, KeepsOr False s (body s)) (code : BitVec 3) (s : State) :
    KeepsOr False s (startCommand code body s) := by
  rcases startCommand_cases code body s with ⟨-, hs⟩ | ⟨-, -, hs⟩ | ⟨-, -, -, hs⟩
  · rw [hs]
    exact Keeps.setOp s code
  · rw [hs]
    exact (Keeps.setOp s code).raise _ .badConfig
  · rw [hs]
    exact (h (s.setOp code)).mono (fun _ h => h.of_setOp) (fun _ h => h.of_setOp) id

/-! ### All instructions -/

/-- The flow behind `exec`, for every instruction. -/
def execFlow (i : Instr) (s : State) : Flow :=
  match i with
  | .nop => .go (s.setOp 0)
  | .encKey => startCommand 1 encKeyProc s
  | .diff => startCommand 2 (fun u => .go (diffLines u.drawFree)) s
  | .encDelta => startCommand 3 encDeltaProc s
  | .decBrunRow => startCommand 4 (decodeProc .decBrunRow) s
  | .decBrunFrame => startCommand 5 (decodeProc .decBrunFrame) s
  | .decLcLine => startCommand 6 (decodeProc .decLcLine) s
  | .decLcFrame => startCommand 7 (decodeProc .decLcFrame) s
  | .rowhdr _ | .bRepeat _ | .bCopy _ | .lines _ | .lskip _ | .pkts _ | .lCopy _ _ | .lRepeat _ _ => itemProc i s

theorem exec_eq_execFlow (i : Instr) (s : State) : exec i s = (execFlow i s).outcome := by
  cases i <;> rfl

/-- Every instruction keeps what `Keeps` says, and only a packet in a row outside the frame stops the machine. -/
theorem execFlow_keeps (i : Instr) (s : State) :
    KeepsOr (IsPacket i ∧ s.cfg.h.toNat ≤ s.dec.y.toNat) s (execFlow i s) := by
  have of_command {f : Flow} (h : KeepsOr False s f) : KeepsOr (IsPacket i ∧ s.cfg.h.toNat ≤ s.dec.y.toNat) s f :=
    h.mono (fun _ h => h) (fun _ h => h) False.elim
  cases i with
  | nop => exact Keeps.setOp s 0
  | encKey => exact of_command (startCommand_keeps encKeyProc_keeps 1 s)
  | diff => exact of_command (startCommand_keeps (body := fun u => .go (diffLines u.drawFree)) diffLines_keeps 2 s)
  | encDelta => exact of_command (startCommand_keeps encDeltaProc_keeps 3 s)
  | decBrunRow => exact of_command (startCommand_keeps (decodeProc_keeps .decBrunRow) 4 s)
  | decBrunFrame => exact of_command (startCommand_keeps (decodeProc_keeps .decBrunFrame) 5 s)
  | decLcLine => exact of_command (startCommand_keeps (decodeProc_keeps .decLcLine) 6 s)
  | decLcFrame => exact of_command (startCommand_keeps (decodeProc_keeps .decLcFrame) 7 s)
  | rowhdr _ | bRepeat _ | bCopy _ | lines _ | lskip _ | pkts _ | lCopy _ _ | lRepeat _ _ => exact itemProc_keeps _ s

theorem exec_keeps {i : Instr} {s t : State} (h : exec i s = .next t) : Keeps s t :=
  ((execFlow_keeps i s).next (exec_eq_execFlow i s ▸ h)).elim id id

/-- Settles O34: three of the things every instruction keeps. -/
theorem instructionsStayInsideFrameAndStream : Obligations.InstructionsStayInsideFrameAndStream :=
  fun _ _ _ h => ⟨(exec_keeps h).fb_outside, (exec_keeps h).ip_le, (exec_keeps h).ip_end, (exec_keeps h).inp⟩

/-! ### The counts, kept by every step -/

/-- The sequencing after an item moves the decoder's registers alone. -/
theorem advance_dec (i : Instr) (s : State) : ∃ d, advance i s = { s with dec := d } := by
  have hrow (u : State) : ∃ d, rowEnd u = { u with dec := d } := by
    unfold rowEnd
    split <;> exact ⟨_, rfl⟩
  have hline (u : State) : ∃ d, lineEnd u = { u with dec := d } := by
    rw [lineEnd_eq, nextLine, nextEntry]
    split
    · split <;> exact ⟨_, rfl⟩
    · exact ⟨_, rfl⟩
  have hnext {packet : Position} {atEnd : State → State} (hend : ∀ u, ∃ d, atEnd u = { u with dec := d }) (u : State) :
      ∃ d, nextPacket packet atEnd u = { u with dec := d } := by
    unfold nextPacket
    split
    · exact hend u
    · exact ⟨_, rfl⟩
  cases i with
  | rowhdr _ => exact hnext hrow s
  | bRepeat _ | bCopy _ => exact hnext hrow (packetDone s)
  | pkts _ => exact hnext hline s
  | lCopy _ _ | lRepeat _ _ => exact hnext hline (packetDone s)
  | lines _ =>
    rw [advance_lines, nextEntry]
    split <;> exact ⟨_, rfl⟩
  | lskip _ => exact ⟨_, rfl⟩
  | nop | encKey | diff | encDelta | decBrunRow | decBrunFrame | decLcLine | decLcFrame => exact ⟨_, rfl⟩

theorem afterItem_countsAgree (i : Instr) {s : State} (h : s.countsAgree) : (afterItem i s).countsAgree := by
  unfold afterItem
  split
  · exact h
  · obtain ⟨d, hd⟩ := advance_dec i s
    rw [hd]
    exact h

theorem hostAccess_countsAgree {a : HostAccess} {s t : State} (h : hostAccess a s = .next t) (hs : s.countsAgree) :
    t.countsAgree := by
  by_cases ha : a = .reset
  · subst ha
    cases h
    exact ⟨rfl, rfl, rfl⟩
  · obtain ⟨-, hstatus, -, -, hres, -⟩ := hostAccess_frame h ha
    exact countsAgree_congr hres (congrArg _ hstatus) (congrArg _ hstatus) (congrArg _ hstatus) hs

theorem mapNext_eq_next {f : State → State} {o : Host.Outcome State Fault Refusal} {t : State}
    (h : mapNext f o = .next t) : ∃ u, o = .next u ∧ f u = t := by
  cases o with
  | next u => exact ⟨u, rfl, Host.Outcome.next.inj h⟩
  | fault r => cases h
  | refused r => cases h

/-- Settles O59: by what the step finds to do, an access, a command, an item or a header cut short. -/
theorem stepsKeepCountsAgreeing : Obligations.StepsKeepCountsAgreeing := by
  intro s t hs h
  by_cases hp : s.dec.pos = .command
  · match hh : s.host with
    | [] =>
      rw [step, fetch_idle hp hh] at h
      cases h
      exact hs
    | .writeOp code :: rest =>
      rw [step, fetch_command hp hh] at h
      exact (exec_keeps h).counts hs
    | .access a :: rest =>
      rw [step, fetch_access hp hh] at h
      exact hostAccess_countsAgree h hs
  · cases hd : decode s.dec.pos (s.inp.drop s.dec.ip) with
    | error e =>
      rw [step_of_cut hp hd] at h
      exact (((readCutHeader_keeps s).next h).elim id id).counts hs
    | ok item =>
      obtain ⟨i, rest⟩ := item
      rw [step_of_decode hp hd] at h
      obtain ⟨u, hu, rfl⟩ := mapNext_eq_next h
      exact afterItem_countsAgree i ((exec_keeps hu).counts hs)

/-! ### Where a step can stop -/

theorem Flow.Sat.fault {G E : State → Prop} {S : Prop} {f : Flow} (hf : f.Sat G E S) {r : Fault}
    (h : f.outcome = .fault r) : S := by
  cases f with
  | go s => cases h
  | ended s => cases h
  | stuck q => exact hf

theorem Flow.outcome_ne_refused (f : Flow) (r : Refusal) : f.outcome ≠ .refused r := by
  intro h
  cases f <;> cases h

theorem exec_ne_refused (i : Instr) (s : State) (r : Refusal) : exec i s ≠ .refused r :=
  exec_eq_execFlow i s ▸ Flow.outcome_ne_refused _ r

theorem exec_fault {i : Instr} {s : State} {r : Fault} (h : exec i s = .fault r) :
    IsPacket i ∧ s.cfg.h.toNat ≤ s.dec.y.toNat :=
  (execFlow_keeps i s).fault (exec_eq_execFlow i s ▸ h)

theorem command_admits_commandOf (code : BitVec 3) : Position.command.admits (commandOf code) = true := by
  revert code
  decide

/-- A command is no packet, so it never stops the machine. -/
theorem command_not_isPacket (code : BitVec 3) : ¬ IsPacket (commandOf code) := fun h => by
  simpa using h .command (command_admits_commandOf code)

theorem mapNext_eq_fault {f : State → State} {o : Host.Outcome State Fault Refusal} {r : Fault}
    (h : mapNext f o = .fault r) : o = .fault r := by
  cases o with
  | next u => cases h
  | fault q => exact h
  | refused q => cases h

theorem mapNext_eq_refused {f : State → State} {o : Host.Outcome State Fault Refusal} {r : Refusal}
    (h : mapNext f o = .refused r) : o = .refused r := by
  cases o with
  | next u => cases h
  | fault q => cases h
  | refused q => exact h

theorem hostAccess_fault {a : HostAccess} {s : State} {r : Fault} (h : hostAccess a s = .fault r) : r = .noSuchPixel := by
  cases a with
  | writeLcur i p | writeLprev i p | writeFb r x p =>
    simp only [hostAccess] at h
    split at h
    · cases h
    · cases h; rfl
  | writeW _ | writeH _ | writeBpp _ | writeArg _ | writeIp _ => cases h
  | replaceIn _ | extendIn _ | truncateIn _ | clearOut | reset => cases h

theorem hostAccess_ne_refused (a : HostAccess) (s : State) (r : Refusal) : hostAccess a s ≠ .refused r := by
  intro h
  cases a with
  | writeLcur i p | writeLprev i p | writeFb r x p =>
    simp only [hostAccess] at h
    split at h <;> cases h
  | writeW _ | writeH _ | writeBpp _ | writeArg _ | writeIp _ => cases h
  | replaceIn _ | extendIn _ | truncateIn _ | clearOut | reset => cases h

/-- A sound decode that stands before a packet stands in a row of the frame. -/
theorem decodeSound_row {s : State} (h : s.decodeSound) (hp : s.dec.pos = .brunPacket ∨ s.dec.pos = .lcPacket) :
    s.dec.y.toNat < s.cfg.h.toNat := by
  rcases hp with hp | hp
  · obtain ⟨-, -, -, -, -, hpos⟩ := h (by simp [hp])
    rw [hp] at hpos
    exact hpos.2.1
  · obtain ⟨-, -, -, -, -, hpos⟩ := h (by simp [hp])
    rw [hp] at hpos
    exact hpos.2.1

theorem step_ne_refused (s : State) (r : Refusal) : step s ≠ .refused r := by
  intro h
  unfold step at h
  split at h
  · cases h
  · exact hostAccess_ne_refused _ _ r h
  · exact exec_ne_refused _ _ r h
  · exact exec_ne_refused _ _ r (mapNext_eq_refused h)
  · exact Flow.outcome_ne_refused _ r h

theorem step_fault_of_sound {s : State} {r : Fault} (hs : s.decodeSound) (h : step s = .fault r) :
    r = .noSuchPixel ∧ s.dec.pos = .command ∧
      ∃ a rest, s.host = .access a :: rest ∧ hostAccess a { s with host := rest } = .fault r := by
  by_cases hp : s.dec.pos = .command
  · match hh : s.host with
    | [] =>
      rw [step, fetch_idle hp hh] at h
      cases h
    | .writeOp code :: rest =>
      rw [step, fetch_command hp hh] at h
      exact absurd (exec_fault h).1 (command_not_isPacket code)
    | .access a :: rest =>
      rw [step, fetch_access hp hh] at h
      exact ⟨hostAccess_fault h, hp, a, rest, rfl, h⟩
  · cases hd : decode s.dec.pos (s.inp.drop s.dec.ip) with
    | error e =>
      rw [step_of_cut hp hd] at h
      exact ((readCutHeader_keeps s).fault h).elim
    | ok item =>
      obtain ⟨i, rest⟩ := item
      rw [step_of_decode hp hd] at h
      obtain ⟨hpacket, hy⟩ := exec_fault (mapNext_eq_fault h)
      exact absurd (decodeSound_row hs (hpacket _ (decode_admits hp hd))) (Nat.not_lt.mpr hy)

/-- A packet with pixels that fits its row gets stuck where X.r has no value (10_state.md R48, log 11). -/
theorem packet_rowUndefined {s : State} {n : Nat} {p : Pixel} {rest : List Byte} (hn : 1 ≤ n)
    (hy : s.cfg.h.toNat ≤ s.dec.y.toNat) (hx : s.dec.x.toNat + n ≤ s.cfg.w.toNat)
    (hs : s.inp.drop s.dec.ip = p.b0 :: p.b1 :: rest) :
    repeatBody n s = .stuck .rowUndefined ∧ copyBody n s = .stuck .rowUndefined := by
  obtain ⟨n, rfl⟩ := Nat.exists_eq_add_of_le' hn
  have ho : ¬ overrunsRow (n + 1) s = true := by
    rw [overrunsRow_iff]
    omega
  have hread := inPix_of_drop (s := s) (p := p) (rest := rest) hs
  have hplace (q : Pixel) (col : Nat) : placePixel q col (s.setIp (s.dec.ip + 2)) = .stuck .rowUndefined :=
    placePixel_stuck (s := s.setIp (s.dec.ip + 2)) hy q col
  constructor
  · rw [repeatBody, if_neg ho, hread, placeRun, hplace]
    rfl
  · rw [copyBody, if_neg ho, placeCopy, hread, hplace]
    rfl

theorem addSkip_zero (s : State) : addSkip 0 s = s := by
  simp [addSkip, State.setX]

/-- Settles O60: a stop needs a packet whose row is outside the frame, or a host write to a missing pixel. -/
theorem soundStepsStopOnlyOnAMissingPixel : Obligations.SoundStepsStopOnlyOnAMissingPixel := by
  refine ⟨fun s hs => ⟨fun r h => step_fault_of_sound hs h, step_ne_refused s⟩, fun s n p rest hn hy hx hin => ?_⟩
  obtain ⟨hrepeat, hcopy⟩ := packet_rowUndefined hn hy hx hin
  have hlc : exec (.lCopy 0 n) s = (copyBody n s).outcome :=
    congrArg (fun u => (copyBody n u).outcome) (addSkip_zero s)
  have hlr : exec (.lRepeat 0 n) s = (repeatBody n s).outcome :=
    congrArg (fun u => (repeatBody n u).outcome) (addSkip_zero s)
  have hbr : exec (.bRepeat n) s = (repeatBody n s).outcome := rfl
  have hbc : exec (.bCopy n) s = (copyBody n s).outcome := rfl
  rw [hbr, hbc, hlc, hlr, hrepeat, hcopy]
  exact ⟨rfl, rfl, rfl, rfl⟩

end Sys2Proof.Machine
end

section
/-! PROOF. The LC decoder on legal bytes, from the packet up to the frame: what each procedure reads and paints when the
stream holds what the encodings of 30_encoding.md state (44_rle_decoder_lc.md R224 to R231). -/

namespace Sys2Proof.Machine

/-! ### Counts and words in the stream -/

theorem sext8_of_le {n : Nat} (h : n ≤ 127) : sext8 (BitVec.ofNat 8 n) = n := by
  have hn : (BitVec.ofNat 8 n).toNat = n := Nat.mod_eq_of_lt (by omega)
  rw [sext8, hn, if_pos (by omega)]

theorem sext8_neg {n : Nat} (h1 : 1 ≤ n) (h128 : n ≤ 128) : sext8 (BitVec.ofNat 8 (256 - n)) = -n := by
  have hn : (BitVec.ofNat 8 (256 - n)).toNat = 256 - n := Nat.mod_eq_of_lt (by omega)
  rw [sext8, hn, if_neg (by omega)]
  omega

theorem sext16_of_lt {n : Nat} (h : n < 32768) : sext16 (BitVec.ofNat 16 n) = n := by
  have hn : (BitVec.ofNat 16 n).toNat = n := Nat.mod_eq_of_lt (by omega)
  rw [sext16, hn, if_pos h]

theorem sext16_neg {n : Nat} (h1 : 1 ≤ n) (h : n ≤ 32768) : sext16 (BitVec.ofNat 16 (65536 - n)) = -n := by
  have hn : (BitVec.ofNat 16 (65536 - n)).toNat = 65536 - n := Nat.mod_eq_of_lt (by omega)
  rw [sext16, hn, if_neg (by omega)]
  omega

/-- The two bytes of a word read back as the word (20_memory.md R67, R70). -/
theorem in16_of_u16bytes {s : State} {w : BitVec 16} {rest : List Byte} (h : s.inp.drop s.dec.ip = u16bytes w ++ rest)
    (k : BitVec 16 → State → Flow) : in16 s k = k w (s.setIp (s.dec.ip + 2)) := by
  have hw : u16le (BitVec.ofNat 8 w.toNat) (BitVec.ofNat 8 (w.toNat / 256)) = w := by
    have := w.isLt
    apply BitVec.eq_of_toNat_eq
    simp only [u16le, BitVec.toNat_ofNat]
    omega
  rw [in16_of_drop (b0 := BitVec.ofNat 8 w.toNat) (b1 := BitVec.ofNat 8 (w.toNat / 256)) h, hw]

theorem pixelBytes_length (ps : List Pixel) : (pixelBytes ps).length = 2 * ps.length := by
  induction ps with
  | nil => rfl
  | cons p ps ih =>
    rw [pixelBytes, List.flatMap_cons, List.length_append]
    change 2 + (pixelBytes ps).length = _
    rw [ih, List.length_cons]
    omega

/-! ### What decoding moves -/

/-- FB holds `m`, `n` more bytes of IN are read, and X.x stands at `x`. -/
def State.painted (s : State) (m : Memory) (n x : Nat) : State := ((s.setFb m).setIp (s.dec.ip + n)).setX x

@[simp] theorem State.painted_fb (s : State) (m : Memory) (n x : Nat) : (s.painted m n x).fb = m := rfl
@[simp] theorem State.painted_cfg (s : State) (m : Memory) (n x : Nat) : (s.painted m n x).cfg = s.cfg := rfl
@[simp] theorem State.painted_inp (s : State) (m : Memory) (n x : Nat) : (s.painted m n x).inp = s.inp := rfl
@[simp] theorem State.painted_ip (s : State) (m : Memory) (n x : Nat) : (s.painted m n x).dec.ip = s.dec.ip + n := rfl
@[simp] theorem State.painted_x (s : State) (m : Memory) (n x : Nat) :
    (s.painted m n x).dec.x = BitVec.ofNat 17 x := rfl
@[simp] theorem State.painted_y (s : State) (m : Memory) (n x : Nat) : (s.painted m n x).dec.y = s.dec.y := rfl
@[simp] theorem State.painted_npk (s : State) (m : Memory) (n x : Nat) : (s.painted m n x).dec.npk = s.dec.npk := rfl

theorem State.painted_self (s : State) : s.painted s.fb 0 s.dec.x.toNat = s := by
  simp [State.painted, State.setX, State.setIp, State.setFb]

/-- Of two paintings, one after the other, the second says what FB holds and where X.x stands. -/
theorem painted_setNpk_painted (s : State) (m m' : Memory) (n n' x x' k k' : Nat) :
    (((s.painted m n x).setNpk k).painted m' n' x').setNpk k' = (s.painted m' (n + n') x').setNpk k' := by
  simp [State.painted, State.setNpk, State.setX, State.setIp, State.setFb, Nat.add_assoc]

theorem fbAddr_col (w r x : Nat) : fbAddr w r 0 + Config.bpp * x = fbAddr w r x := by
  simp only [fbAddr, Config.bpp]
  omega

/-- After a whole line: X.npk has run out besides, and X.y stands at `y`. -/
def State.lineDone (s : State) (m : Memory) (n x y : Nat) : State := ((s.painted m n x).setNpk 0).setY y

/-! ### Packets -/

theorem serLc_copy (skip : Byte) (ps : List Pixel) :
    serLc { skip := skip, pk := .copyOf ps } = skip :: BitVec.ofNat 8 ps.length :: pixelBytes ps := rfl

theorem serLc_repeat (skip : Byte) (n : Nat) (p : Pixel) :
    serLc { skip := skip, pk := .repeatOf n p } = skip :: BitVec.ofNat 8 (256 - n) :: p.bytes := rfl

/-- The header of an LC packet: the skip has moved X.x, and the count picks the body (R224). -/
theorem lcPacket_of_drop {s : State} {skip b : Byte} {rest : List Byte} (h : s.inp.drop s.dec.ip = skip :: b :: rest) :
    lcPacket s = if sext8 b < 0 then repeatBody (-sext8 b).toNat (s.painted s.fb 2 (s.dec.x.toNat + skip.toNat))
      else copyBody (sext8 b).toNat (s.painted s.fb 2 (s.dec.x.toNat + skip.toNat)) := by
  rw [lcPacket, in8_of_drop h,
    in8_of_drop (s := addSkip skip (s.setIp (s.dec.ip + 1))) (b := b) (rest := rest) (drop_succ_of_drop h)]
  rfl

/-- A legal packet that fits its row is painted after its skip (R225, R227). -/
theorem lcPacket_eq {s : State} {lp : LcPacket} {rest : List Byte} (hlegal : lp.lcLegal = true)
    (hy : s.dec.y.toNat < s.cfg.h.toNat) (hx : s.dec.x.toNat + lp.skip.toNat + lp.pk.npix ≤ s.cfg.w.toNat)
    (hs : s.inp.drop s.dec.ip = serLc lp ++ rest) :
    lcPacket s = .go (s.painted
      (writePixels s.fb (fbAddr s.cfg.w.toNat (s.cfg.h.toNat - 1 - s.dec.y.toNat) (s.dec.x.toNat + lp.skip.toNat))
        lp.pk.expand)
      (serLc lp).length (s.dec.x.toNat + lp.skip.toNat + lp.pk.npix)) := by
  obtain ⟨skip, pk⟩ := lp
  dsimp only at hx ⊢
  have hw := s.cfg.w.isLt
  have hx17 : (s.painted s.fb 2 (s.dec.x.toNat + skip.toNat)).dec.x.toNat = s.dec.x.toNat + skip.toNat :=
    Nat.mod_eq_of_lt (by omega)
  cases pk with
  | copyOf ps =>
    have hlen : ps.length ≤ 127 := by simpa [LcPacket.lcLegal] using hlegal
    change s.dec.x.toNat + skip.toNat + ps.length ≤ s.cfg.w.toNat at hx
    rw [serLc_copy] at hs
    have hbody := copyBody_eq (ps := ps) (rest := rest) (s := s.painted s.fb 2 (s.dec.x.toNat + skip.toNat)) hy
      (by rw [hx17]; exact hx) (drop_succ_of_drop (drop_succ_of_drop hs))
    have hbytes : (serLc { skip := skip, pk := .copyOf ps }).length = 2 + 2 * ps.length := by
      rw [serLc_copy, List.length_cons, List.length_cons, pixelBytes_length]
      omega
    rw [lcPacket_of_drop hs, sext8_of_le hlen, if_neg (by omega), Int.toNat_natCast, hbody, hx17, hbytes, State.painted_ip,
      Nat.add_assoc s.dec.ip]
    rfl
  | repeatOf n p =>
    have hn : 1 ≤ n ∧ n ≤ 128 := by simpa [LcPacket.lcLegal] using hlegal
    change s.dec.x.toNat + skip.toNat + n ≤ s.cfg.w.toNat at hx
    rw [serLc_repeat] at hs
    have hbody := repeatBody_eq (n := n) (p := p) (rest := rest) (s := s.painted s.fb 2 (s.dec.x.toNat + skip.toNat)) hy
      (by rw [hx17]; exact hx) (drop_succ_of_drop (drop_succ_of_drop hs))
    rw [lcPacket_of_drop hs, sext8_neg hn.1 hn.2, if_pos (by omega), Int.neg_neg, Int.toNat_natCast, hbody, hx17]
    rfl

/-- The packets of a line from column X.x on (R228). -/
theorem lcPackets_eq {lps : List LcPacket} {s : State} {rest : List Byte} (hlegal : ∀ lp ∈ lps, lp.lcLegal = true)
    (hnpk : s.dec.npk.toNat = lps.length) (hy : s.dec.y.toNat < s.cfg.h.toNat)
    (hx : s.dec.x.toNat + lcExtent lps ≤ s.cfg.w.toNat) (hs : s.inp.drop s.dec.ip = lps.flatMap serLc ++ rest) :
    lcPackets lps.length s = .go ((s.painted
      (paintLine s.fb (fbAddr s.cfg.w.toNat (s.cfg.h.toNat - 1 - s.dec.y.toNat) 0) s.dec.x.toNat lps)
      (lps.flatMap serLc).length (s.dec.x.toNat + lcExtent lps)).setNpk 0) := by
  induction lps generalizing s with
  | nil =>
    have h0 : s.dec.npk = BitVec.ofNat 16 0 := BitVec.eq_of_toNat_eq hnpk
    have hself : (s.painted s.fb 0 s.dec.x.toNat).setNpk 0 = s := by
      rw [State.painted_self, State.setNpk, ← h0]
    exact congrArg Flow.go hself.symm
  | cons lp lps ih =>
    have hw := s.cfg.w.isLt
    rw [lcExtent] at hx
    rw [List.flatMap_cons, List.append_assoc] at hs
    have hx17 : (BitVec.ofNat 17 (s.dec.x.toNat + lp.skip.toNat + lp.pk.npix)).toNat =
        s.dec.x.toNat + lp.skip.toNat + lp.pk.npix := Nat.mod_eq_of_lt (by omega)
    rw [List.length_cons, lcPackets, lcPacket_eq (hlegal lp (.head _)) hy (by omega) hs, Flow.andThen_go, ih]
    · rw [painted_setNpk_painted]
      simp only [State.setNpk_cfg, State.setNpk_fb, State.setNpk_dec_x, State.setNpk_dec_y, State.painted_fb,
        State.painted_cfg, State.painted_x, State.painted_y, hx17, paintLine, fbAddr_col, lcExtent, List.flatMap_cons,
        List.length_append]
      simp only [Nat.add_assoc]
    · exact fun p hp => hlegal p (.tail _ hp)
    · have := s.dec.npk.isLt
      simp only [State.setNpk_dec_npk, State.painted_npk, BitVec.toNat_ofNat, hnpk, List.length_cons]
      rw [List.length_cons] at hnpk
      omega
    · exact hy
    · simp only [State.setNpk_dec_x, State.painted_x, State.setNpk_cfg, State.painted_cfg, hx17]
      omega
    · exact drop_add_of_drop hs

/-! ### Lines -/

/-- A line whose row is in the frame (R226, R228). -/
theorem lcLine_eq {lps : List LcPacket} {s : State} {k : BitVec 16} {rest : List Byte} (hk : k.toNat = lps.length)
    (hlegal : ∀ lp ∈ lps, lp.lcLegal = true) (hy : s.dec.y.toNat < s.cfg.h.toNat) (hx : lcExtent lps ≤ s.cfg.w.toNat)
    (hs : s.inp.drop s.dec.ip = lps.flatMap serLc ++ rest) :
    lcLine k s = .go (s.lineDone
      (paintLine s.fb (fbAddr s.cfg.w.toNat (s.cfg.h.toNat - 1 - s.dec.y.toNat) 0) 0 lps)
      (lps.flatMap serLc).length (lcExtent lps) (s.dec.y.toNat + 1)) := by
  have ho : ¬ overrunsFrame s = true := by
    rw [overrunsFrame_iff]
    omega
  have hnpk : ((s.setX 0).setNpk k.toNat).dec.npk.toNat = lps.length := by
    rw [State.setNpk_dec_npk, BitVec.ofNat_toNat, BitVec.setWidth_eq, hk]
  rw [lcLine, pktsProc, if_neg ho, Flow.andThen_go, hnpk,
    lcPackets_eq (s := (s.setX 0).setNpk k.toNat) hlegal hnpk hy (by simpa using hx) hs]
  simp [State.lineDone, State.painted, State.setNpk, State.setX, State.setIp, State.setFb, State.setY]

/-- A line record, its PKTS word first (R223). -/
theorem pktsLine_eq {lps : List LcPacket} {s : State} {rest : List Byte} (hlen : lps.length ≤ 65535)
    (hlegal : ∀ lp ∈ lps, lp.lcLegal = true) (hy : s.dec.y.toNat < s.cfg.h.toNat) (hx : lcExtent lps ≤ s.cfg.w.toNat)
    (hs : s.inp.drop s.dec.ip = lcRecord lps ++ rest) :
    (in16 s fun k u => lcLine k u) = .go (s.lineDone
      (paintLine s.fb (fbAddr s.cfg.w.toNat (s.cfg.h.toNat - 1 - s.dec.y.toNat) 0) 0 lps)
      (lcRecord lps).length (lcExtent lps) (s.dec.y.toNat + 1)) := by
  rw [lcRecord, List.append_assoc] at hs
  rw [in16_of_u16bytes hs, lcLine_eq (s := s.setIp (s.dec.ip + 2)) (toNat_ofNat_count hlen) hlegal hy hx
    (drop_add_of_drop hs), lcRecord, List.length_append, u16bytes_length]
  simp [State.lineDone, State.painted, State.setNpk, State.setX, State.setIp, State.setFb, State.setY, Nat.add_assoc]

/-! ### Line entries -/

/-- A line entry lands in the row its skip leads to (R229). -/
theorem lcEntry_eq {e : LineEntry} {s : State} {rest : List Byte} (hskip : e.skipRows ≤ 32768)
    (hrow : s.dec.y.toNat + e.skipRows < s.cfg.h.toNat) (hline : legalLine e.limit s.cfg.w.toNat e.packets)
    (hs : s.inp.drop s.dec.ip = e.bytes ++ rest) :
    lcEntry s = .go (s.lineDone
      (paintLine s.fb (fbAddr s.cfg.w.toNat (s.cfg.h.toNat - 1 - (s.dec.y.toNat + e.skipRows)) 0) 0 e.packets)
      e.bytes.length (lcExtent e.packets) (s.dec.y.toNat + e.skipRows + 1)) := by
  obtain ⟨hlen, hlegal, hx⟩ := hline
  by_cases h0 : e.skipRows = 0
  · rw [LineEntry.limit, if_pos h0] at hlen
    have hbytes : e.bytes = lcRecord e.packets := by rw [LineEntry.bytes, if_pos h0, List.nil_append]
    have hcount : e.packets.length < 32768 := Nat.lt_succ_of_le hlen
    rw [hbytes] at hs ⊢
    rw [h0, Nat.add_zero, ← pktsLine_eq (by omega) hlegal (by omega) hx hs, lcEntry]
    rw [lcRecord, List.append_assoc] at hs
    rw [in16_of_u16bytes hs, in16_of_u16bytes hs, sext16_of_lt hcount, if_neg (by omega)]
  · rw [LineEntry.limit, if_neg h0] at hlen
    have hbytes : e.bytes = u16bytes (BitVec.ofNat 16 (65536 - e.skipRows)) ++ lcRecord e.packets := by
      rw [LineEntry.bytes, if_neg h0, encode]
    rw [hbytes, List.append_assoc] at hs
    have hh := s.cfg.h.isLt
    have hy17 : ((s.setIp (s.dec.ip + 2)).setY (s.dec.y.toNat + e.skipRows)).dec.y.toNat = s.dec.y.toNat + e.skipRows :=
      Nat.mod_eq_of_lt (by omega)
    have hpkts := pktsLine_eq (lps := e.packets) (rest := rest)
      (s := (s.setIp (s.dec.ip + 2)).setY (s.dec.y.toNat + e.skipRows)) hlen hlegal (by rw [hy17]; exact hrow) hx
      (drop_add_of_drop hs)
    rw [hy17] at hpkts
    rw [lcEntry, in16_of_u16bytes hs, sext16_neg (by omega) hskip, if_pos (by omega), Int.neg_neg, Int.toNat_natCast,
      lskipProc, Flow.andThen_go, State.setIp_dec_y, hpkts, hbytes, List.length_append, u16bytes_length]
    simp [State.lineDone, State.painted, State.setNpk, State.setX, State.setIp, State.setFb, State.setY, Nat.add_assoc]

/-- What line entries leave, the first of them counted from X.y. -/
def State.entriesDone (s : State) (es : List LineEntry) : State :=
  { s with
    fb := paintEntries s.cfg.w.toNat s.cfg.h.toNat s.fb s.dec.y.toNat es
    dec := { s.dec with
      ip := s.dec.ip + (es.flatMap LineEntry.bytes).length
      x := BitVec.ofNat 17 (lastExtent s.dec.x.toNat es)
      y := BitVec.ofNat 17 (s.dec.y.toNat + entryRows es)
      npk := if es = [] then s.dec.npk else 0
      lines := 0 } }

theorem entriesDone_nil {s : State} (h : s.dec.lines.toNat = 0) : s.entriesDone [] = s := by
  have h0 : s.dec.lines = 0 := BitVec.eq_of_toNat_eq h
  simp [State.entriesDone, paintEntries, lastExtent, entryRows, ← h0]

/-- The line entries of a frame (R229). -/
theorem lcEntries_eq {es : List LineEntry} {s : State} {rest : List Byte}
    (hlegal : legalEntries s.cfg.w.toNat s.cfg.h.toNat s.dec.y.toNat es) (hlines : s.dec.lines.toNat = es.length)
    (hs : s.inp.drop s.dec.ip = es.flatMap LineEntry.bytes ++ rest) :
    lcEntries es.length s = .go (s.entriesDone es) := by
  induction es generalizing s with
  | nil => exact congrArg Flow.go (entriesDone_nil hlines).symm
  | cons e es ih =>
    obtain ⟨hskip, hrow, hline, hrest⟩ := hlegal
    rw [List.flatMap_cons, List.append_assoc] at hs
    have hw := s.cfg.w.isLt
    have hh := s.cfg.h.isLt
    have hx17 : (BitVec.ofNat 17 (lcExtent e.packets)).toNat = lcExtent e.packets :=
      Nat.mod_eq_of_lt (by have := hline.2.2; omega)
    have hy17 : (BitVec.ofNat 17 (s.dec.y.toNat + e.skipRows + 1)).toNat = s.dec.y.toNat + e.skipRows + 1 :=
      Nat.mod_eq_of_lt (by omega)
    rw [List.length_cons, lcEntries, lcEntry_eq hskip hrow hline hs, Flow.andThen_go, ih]
    · simp only [State.entriesDone, State.lineDone, State.painted, State.setLines, State.setNpk, State.setX, State.setIp,
        State.setFb, State.setY, hx17, hy17, paintEntries, lastExtent, entryRows, List.flatMap_cons, List.length_append]
      simp [Nat.add_assoc]
    · simpa [State.lineDone, hy17] using hrest
    · have := s.dec.lines.isLt
      rw [List.length_cons] at hlines
      simp only [State.setLines_dec_lines, BitVec.toNat_ofNat]
      change (s.dec.lines.toNat - 1) % 2 ^ 16 = es.length
      omega
    · exact drop_add_of_drop hs

/-! ### The frame -/

/-- Legal line entries are at most as many as the rows they have left. -/
theorem legalEntries_length {w h y : Nat} {es : List LineEntry} (hlegal : legalEntries w h y es) (hy : y ≤ h) :
    y + es.length ≤ h := by
  induction es generalizing y with
  | nil => exact hy
  | cons e es ih =>
    obtain ⟨-, hrow, -, hrest⟩ := hlegal
    have := ih hrest hrow
    rw [List.length_cons]
    omega

/-- Settles O45: the frame procedure reads its line count and then the entries, each of which lands in its row. -/
theorem decLcFramePaintsEveryLegalFrame : Obligations.DecLcFramePaintsEveryLegalFrame := by
  intro s es rest hfault hw hh hlegal hs
  have hexec : exec .decLcFrame s = (lcFrame (startFrame true (s.setOp 7))).outcome :=
    congrArg Flow.outcome (startCommand_run hfault hw (fun _ => hh) _)
  have hcount : es.length ≤ 65535 := by
    have := legalEntries_length hlegal (Nat.zero_le _)
    have := s.cfg.h.isLt
    omega
  rw [lcPayload, encode, List.append_assoc] at hs
  have hlines : (BitVec.ofNat 16 (BitVec.ofNat 16 es.length).toNat).toNat = es.length := by
    rw [toNat_ofNat_count hcount, toNat_ofNat_count hcount]
  have hentries := lcEntries_eq (es := es) (rest := rest)
    (s := (((startFrame true (s.setOp 7)).setIp (s.dec.ip + 2)).setLines (BitVec.ofNat 16 es.length).toNat).setY 0)
    hlegal hlines (drop_add_of_drop hs)
  rw [hexec, lcFrame, in16_of_u16bytes (s := startFrame true (s.setOp 7)) hs, linesProc, Flow.andThen_go]
  change (lcEntries (BitVec.ofNat 16 (BitVec.ofNat 16 es.length).toNat).toNat _).outcome = _
  rw [hlines]
  refine (congrArg Flow.outcome hentries).trans ?_
  simp [State.entriesDone, startFrame, State.setLines, State.setY, State.setIp, State.setLc, State.setOp, lcPayload,
    encode, Nat.add_assoc]

end Sys2Proof.Machine
end

section
/-! PROOF. The tier 1 statements: the reset state, and a row or line command whose row is not in the frame. -/

namespace Sys2Proof.Machine

/-! ### RESET -/

/-- Between commands the soundness of a decode demands nothing. -/
theorem decodeSound_of_command {s : State} (h : s.dec.pos = .command) : s.decodeSound := fun hp => absurd h hp

/-- Settles O10: the memories and the result lists are empty, no decode is in progress, and no fault is recorded. -/
theorem resetStateIsSound : Obligations.ResetStateIsSound := by
  obtain ⟨hcur, hprev, hfb⟩ := reset_memories_wf
  refine ⟨?_, decodeSound_of_command rfl, ⟨rfl, rfl, rfl⟩, Nat.zero_le 5⟩
  rw [State.memoriesCanonical, hcur, hprev, hfb]
  rfl

/-! ### A row outside the frame (60_exceptions.md R304, R307) -/

theorem startLine_overruns {s : State} {lc : Bool} (h : s.cfg.h.toNat ≤ s.cmd.arg.toNat) :
    overrunsFrame (startLine lc s) = true := by
  have hy : (startLine lc s).dec.y.toNat = s.cmd.arg.toNat := Nat.mod_eq_of_lt (by have := s.cmd.arg.isLt; omega)
  rw [overrunsFrame_iff, hy]
  exact h

/-- The line start answers with LineOverrun before it reads a packet (R226). -/
theorem lcLine_overrun {s : State} (h : overrunsFrame s = true) (k : BitVec 16) :
    lcLine k s = raiseDecode .lineOverrun s := by
  rw [lcLine, pktsProc, if_pos h]
  rfl

/-- A word that is not there ends the command with X.ip at the end of IN, or where it stood beyond it (R67, R302). -/
theorem in16_cut {s : State} (h : s.inp.length ≤ s.dec.ip + 1) (k : BitVec 16 → State → Flow) :
    in16 s k = raiseDecode .truncatedStream (s.setIp (max s.dec.ip s.inp.length)) := by
  by_cases hend : s.inp.length ≤ s.dec.ip
  · rw [in16, in8_eq_none hend, Nat.max_eq_left hend]
    rfl
  · have hlt : s.dec.ip < s.inp.length := Nat.lt_of_not_le hend
    rw [in16, in8_eq_some hlt, in8_eq_none (s := s.setIp (s.dec.ip + 1)) h, Nat.max_eq_right (Nat.le_of_lt hlt),
      Nat.le_antisymm h hlt]

/-- Settles O35: both commands load X.lc, X.y and X.x first; the row check comes before the first byte in DEC_BRUN_ROW and
after PKTS in DEC_LC_LINE. -/
theorem rowOutsideTheFrameRaisesLineOverrun : Obligations.RowOutsideTheFrameRaisesLineOverrun := by
  intro s hfault hw hh harg
  have hline : exec .decLcLine s = (in16 (startLine true (s.setOp 6)) fun k u => lcLine k u).outcome :=
    congrArg Flow.outcome (startCommand_run hfault hw (fun _ => hh) _)
  refine ⟨?_, fun b0 b1 rest hin => ?_, fun hcut => ?_⟩
  · have hrow : exec .decBrunRow s = (brunRow s.cmd.arg.toNat (startLine false (s.setOp 4))).outcome :=
      congrArg Flow.outcome (startCommand_run hfault hw (fun _ => hh) _)
    have hover : overrunsFrame ((startLine false (s.setOp 4)).setY s.cmd.arg.toNat) = true :=
      startLine_overruns (s := s.setOp 4) (lc := false) harg
    rw [hrow, brunRow, if_pos hover]
    rfl
  · have hover : overrunsFrame ((startLine true (s.setOp 6)).setIp (s.dec.ip + 2)) = true :=
      startLine_overruns (s := s.setOp 6) (lc := true) harg
    rw [hline, in16_of_drop (s := startLine true (s.setOp 6)) hin]
    exact congrArg Flow.outcome (lcLine_overrun hover _)
  · rw [hline, in16_cut (s := startLine true (s.setOp 6)) hcut]
    rfl

end Sys2Proof.Machine
end

section
/-! PROOF. The byte view of the memories (20_memory.md R61 to R64): what reads back after the writes of the host and of
painting, and what lies outside them. -/

namespace Sys2Proof.Machine

/-! ### MemRead and MemWrite -/

/-- MemWrite leaves every byte outside the ones it names alone. -/
theorem read_memWrite_ne (m : Memory) (a : Nat) (bytes : List Byte) {k : Nat} (h : k < a ∨ a + bytes.length ≤ k) :
    (memWrite m a bytes).read k = m.read k := by
  induction bytes generalizing m a with
  | nil => rfl
  | cons b rest ih =>
    rw [List.length_cons] at h
    rw [memWrite, ih _ _ (by omega), Memory.read_write_ne _ _ (by omega)]

theorem memRead_memWrite_same (m : Memory) (a : Nat) (bytes : List Byte) :
    memRead (memWrite m a bytes) a bytes.length = bytes.map some := by
  induction bytes generalizing m a with
  | nil => rfl
  | cons b rest ih =>
    rw [memWrite, List.length_cons, memRead, ih, read_memWrite_ne _ _ _ (by omega), Memory.read_write_same, List.map_cons]

/-- MemRead returns the bytes it names, in order. -/
theorem memRead_getElem? (m : Memory) (a : Nat) {n k : Nat} (h : k < n) :
    (memRead m a n)[k]? = some (m.read (a + k)) := by
  induction n generalizing a k with
  | zero => omega
  | succ n ih =>
    cases k with
    | zero => rfl
    | succ k =>
      rw [memRead, List.getElem?_cons_succ, ih (a + 1) (by omega), Nat.add_assoc, Nat.add_comm 1 k]

/-! ### Pixels as pairs of bytes -/

/-- A pixel has a value exactly when both its bytes have. -/
theorem readPixel_eq_some_iff (m : Memory) (a : Nat) (p : Pixel) :
    readPixel m a = some p ↔ m.read a = some p.b0 ∧ m.read (a + 1) = some p.b1 := by
  obtain ⟨b0, b1⟩ := p
  cases h0 : m.read a <;> cases h1 : m.read (a + 1) <;> simp [readPixel, h0, h1]

theorem readPixel_congr {m n : Memory} {a : Nat} (h0 : m.read a = n.read a) (h1 : m.read (a + 1) = n.read (a + 1)) :
    readPixel m a = readPixel n a := by
  rw [readPixel, readPixel, h0, h1]

theorem linePixel_writePixel_same (draw : Nat) (buffer : LineBuffer) (m : Memory) (i : Nat) (p : Pixel) :
    linePixel draw buffer (writePixel m (lineAddr i) p) i = p := by
  rw [linePixel, read_writePixel_fst, read_writePixel_snd]
  rfl

/-- Two pixels of a line share no byte (R61). -/
theorem linePixel_writePixel_ne (draw : Nat) (buffer : LineBuffer) (m : Memory) {i k : Nat} (p : Pixel) (h : k ≠ i) :
    linePixel draw buffer (writePixel m (lineAddr i) p) k = linePixel draw buffer m k := by
  have hbytes : ∀ a, a = lineAddr k ∨ a = lineAddr k + 1 → (writePixel m (lineAddr i) p).read a = m.read a := by
    intro a ha
    simp only [lineAddr, Config.bpp] at ha ⊢
    exact read_writePixel_ne m p (by omega)
  rw [linePixel, linePixel, hbytes _ (.inl rfl), hbytes _ (.inr rfl)]

/-! ### Pixels of FB -/

theorem fbAddr_eq (w r x : Nat) : fbAddr w r x = 2 * (r * w + x) := rfl

/-- A pixel of the image that is not among the `n` pixels from column `x` of row `r` on shares no byte with them (R63). -/
theorem fbAddr_disjoint {w r x n r' x' : Nat} (hn : x + n ≤ w) (hx : x' < w) (h : r' ≠ r ∨ x' < x ∨ x + n ≤ x') :
    fbAddr w r' x' + 2 ≤ fbAddr w r x ∨ fbAddr w r x + Config.bpp * n ≤ fbAddr w r' x' := by
  simp only [fbAddr, Config.bpp]
  rcases Nat.lt_trichotomy r' r with hlt | rfl | hlt
  · have hrow : (r' + 1) * w ≤ r * w := Nat.mul_le_mul_right w hlt
    rw [Nat.succ_mul] at hrow
    omega
  · omega
  · have hrow : (r + 1) * w ≤ r' * w := Nat.mul_le_mul_right w hlt
    rw [Nat.succ_mul] at hrow
    omega

theorem readPixel_writePixels_ne (m : Memory) (a : Nat) (ps : List Pixel) {k : Nat}
    (h : k + 2 ≤ a ∨ a + Config.bpp * ps.length ≤ k) : readPixel (writePixels m a ps) k = readPixel m k :=
  readPixel_congr (read_writePixels_ne m a ps (by omega)) (read_writePixels_ne m a ps (by omega))

/-- Settles O28: a painted pixel reads back in its place, and the pixels of FB share no byte. -/
theorem paintedPixelsReadBack : Obligations.PaintedPixelsReadBack := by
  intro s r x ps hfit
  refine ⟨fun k hk => ?_, fun r' x' hx hout => ?_, fun a ha => ?_⟩
  · have hcol : fbAddr s.cfg.w.toNat r (x + k) = fbAddr s.cfg.w.toNat r x + Config.bpp * k := by
      simp only [fbAddr, Config.bpp]
      omega
    exact (congrArg (readPixel _) hcol).trans (readPixel_writePixels s.fb _ ps k hk)
  · exact readPixel_writePixels_ne s.fb _ ps (fbAddr_disjoint hfit hx hout)
  · refine read_writePixels_ne s.fb _ ps ?_
    simp only [Config.bpp]
    omega

/-! ### The accesses of the host -/

/-- Settles O7: each of the three writes is a pixel write at the pixel's own two bytes. -/
theorem hostPixelWritesReadBack : Obligations.HostPixelWritesReadBack := by
  refine fun s p => ⟨fun i hi => ?_, fun i hi => ?_, fun r x hr hx => ?_⟩
  · refine ⟨_, if_pos hi, ?_, fun k hk => ?_, rfl⟩
    · exact linePixel_writePixel_same _ _ s.lcur i p
    · exact linePixel_writePixel_ne _ _ s.lcur p hk
  · refine ⟨_, if_pos hi, ?_, fun k hk => ?_, rfl⟩
    · exact linePixel_writePixel_same _ _ s.lprev i p
    · exact linePixel_writePixel_ne _ _ s.lprev p hk
  · refine ⟨_, if_pos ⟨hr, hx⟩, ?_, fun r' x' hx' hne => ?_, rfl⟩
    · exact readPixel_writePixel_same s.fb _ p
    · exact readPixel_writePixel_ne s.fb p (fbAddr_disjoint (n := 1) hx hx' (by omega))

/-- Settles O8: a pixel is its two bytes, MemRead and MemWrite go byte by byte, and CFG.W is no part of FB. -/
theorem frameBufferByteView : Obligations.FrameBufferByteView := by
  refine ⟨fun m a bytes => ⟨memRead_memWrite_same m a bytes, fun k hk => read_memWrite_ne m a bytes hk⟩,
    fun m a n k hk => memRead_getElem? m a hk, fun s r x p => ⟨?_, ?_, fun k hk => ?_⟩, fun s r x p => ?_,
    fun s t v r x h => ?_⟩
  · exact read_writePixel_fst s.fb _ p
  · exact read_writePixel_snd s.fb _ p
  · exact read_writePixel_ne s.fb p hk
  · rw [State.fbPixel, readPixel_eq_some_iff, fbAddr_eq]
    simp [memRead]
  · cases h
    exact ⟨rfl, rfl⟩

end Sys2Proof.Machine
end

section
/-! PROOF. The reads of IN (20_memory.md R66, R67): In8, and the two byte reads of In16 and InPix. -/

namespace Sys2Proof.Machine

/-- Two bytes read one after the other, each through In8: the shape of In16 and InPix (R67). -/
def in8Twice (s : State) (k : Byte → Byte → State → Flow) : Flow := in8 s fun b0 s => in8 s fun b1 s => k b0 b1 s

theorem in16_eq_in8Twice (s : State) (k : BitVec 16 → State → Flow) :
    in16 s k = in8Twice s fun b0 b1 => k (u16le b0 b1) := rfl

theorem inPix_eq_in8Twice (s : State) (k : Pixel → State → Flow) : inPix s k = in8Twice s fun b0 b1 => k ⟨b0, b1⟩ := rfl

/-- With no byte left, the first read faults and nothing has been read. -/
theorem in8Twice_eq_none {s : State} (h : s.inp.length ≤ s.dec.ip) (k : Byte → Byte → State → Flow) :
    in8Twice s k = raiseDecode .truncatedStream s :=
  in8_eq_none h _

/-- With one byte left, the second read faults: X.ip has advanced by 1, and the byte read is discarded. -/
theorem in8Twice_of_drop_singleton {s : State} {b0 : Byte} (h : s.inp.drop s.dec.ip = [b0])
    (k : Byte → Byte → State → Flow) : in8Twice s k = raiseDecode .truncatedStream (s.setIp (s.dec.ip + 1)) := by
  have hend : (s.setIp (s.dec.ip + 1)).inp.length ≤ (s.setIp (s.dec.ip + 1)).dec.ip :=
    List.drop_eq_nil_iff.mp (drop_succ_of_drop h)
  rw [in8Twice, in8_of_drop h, in8_eq_none hend]

/-- Settles O11: In8 by whether a byte is left, In16 and InPix by whether two, one or none are. -/
theorem streamReadsAreByteByByte : Obligations.StreamReadsAreByteByByte := by
  refine fun s => ⟨fun k h => in8_eq_none h k, fun k h => in8_eq_some h k, fun k b0 b1 rest h => in16_of_drop h k,
    fun k b0 b1 rest h => inPix_of_drop (p := ⟨b0, b1⟩) h k, fun k b0 h => ?_, fun k b0 h => ?_, fun k h => ?_,
    fun k h => ?_⟩
  · rw [in16_eq_in8Twice]
    exact in8Twice_of_drop_singleton h _
  · rw [inPix_eq_in8Twice]
    exact in8Twice_of_drop_singleton h _
  · rw [in16_eq_in8Twice]
    exact in8Twice_eq_none h _
  · rw [inPix_eq_in8Twice]
    exact in8Twice_eq_none h _

end Sys2Proof.Machine
end

section
/-! PROOF. No instruction reads FB (20_memory.md R69): what a procedure does, and which pixels it paints, does not depend
on what FB holds. Stated once for the procedures of all sixteen instructions, and with it that every step keeps the
canonical form of the memories. -/

namespace Sys2Proof.Machine

/-! ### Pixel writes in order -/

/-- Pixels written one after the other, each at its byte address. -/
def applyWrites (m : Memory) (writes : List (Nat × Pixel)) : Memory :=
  match writes with
  | [] => m
  | (a, p) :: rest => applyWrites (writePixel m a p) rest

theorem applyWrites_append (m : Memory) (ws vs : List (Nat × Pixel)) :
    applyWrites m (ws ++ vs) = applyWrites (applyWrites m ws) vs := by
  induction ws generalizing m with
  | nil => rfl
  | cons w ws ih => exact ih _

theorem applyWrites_wf {m : Memory} (h : m.wf = true) (ws : List (Nat × Pixel)) : (applyWrites m ws).wf = true := by
  induction ws generalizing m with
  | nil => exact h
  | cons w ws ih => exact ih (writePixel_wf h w.1 w.2)

/-- Both memories keep their byte at `a`, or both hold the same byte there, after the same writes. -/
theorem read_applyWrites_pair (m n : Memory) (ws : List (Nat × Pixel)) (a : Nat) :
    ((applyWrites m ws).read a = m.read a ∧ (applyWrites n ws).read a = n.read a) ∨
      ∃ b, (applyWrites m ws).read a = some b ∧ (applyWrites n ws).read a = some b := by
  induction ws generalizing m n with
  | nil => exact .inl ⟨rfl, rfl⟩
  | cons w ws ih =>
    rcases ih (writePixel m w.1 w.2) (writePixel n w.1 w.2) with ⟨hm, hn⟩ | hlater
    · rcases read_writePixel_pair m n w.1 a w.2 with ⟨hm', hn'⟩ | ⟨b, hm', hn'⟩
      · exact .inl ⟨hm.trans hm', hn.trans hn'⟩
      · exact .inr ⟨b, hm.trans hm', hn.trans hn'⟩
    · exact .inr hlater

/-! ### Procedures that only paint -/

/-- LCUR and LPREV are as before. -/
def SameLines (s t : State) : Prop := t.lcur = s.lcur ∧ t.lprev = s.lprev

theorem SameLines.trans {s t u : State} (h : SameLines s t) (k : SameLines t u) : SameLines s u :=
  ⟨k.1.trans h.1, k.2.trans h.2⟩

/-- A flow with other contents of FB. -/
def Flow.withFb (m : Memory) (f : Flow) : Flow :=
  match f with
  | .go s => .go (s.setFb m)
  | .ended s => .ended (s.setFb m)
  | .stuck r => .stuck r

/-- A change of the state that neither reads nor writes FB, and leaves the line buffers alone. -/
def Unpainted (g : State → State) : Prop := ∀ s, SameLines s (g s) ∧ ∀ m, g (s.setFb m) = (g s).setFb m

/-- A procedure that uses FB to paint only: from each state it goes the same way and writes the same pixels whatever FB
holds, and it leaves the line buffers alone. -/
def PaintsOnly (k : State → Flow) : Prop :=
  ∀ s, ∃ (f : Flow) (writes : List (Nat × Pixel)),
    f.Sat (SameLines s) (SameLines s) True ∧ ∀ m, k (s.setFb m) = f.withFb (applyWrites m writes)

theorem PaintsOnly.go {g : State → State} (hg : Unpainted g) : PaintsOnly fun s => .go (g s) := fun s =>
  ⟨.go (g s), [], (hg s).1, fun m => congrArg Flow.go ((hg s).2 m)⟩

theorem PaintsOnly.ended {g : State → State} (hg : Unpainted g) : PaintsOnly fun s => .ended (g s) := fun s =>
  ⟨.ended (g s), [], (hg s).1, fun m => congrArg Flow.ended ((hg s).2 m)⟩

/-- A fault is recorded whatever FB holds (60_exceptions.md R310). -/
theorem PaintsOnly.raise {g : State → State} (hg : Unpainted g) (decoding : Bool) (F : FaultName) :
    PaintsOnly fun s => .ended (raise decoding F (g s)) :=
  .ended fun s => ⟨(hg s).1, fun m => congrArg (Machine.raise decoding F) ((hg s).2 m)⟩

theorem PaintsOnly.andThen {k l : State → Flow} (hk : PaintsOnly k) (hl : PaintsOnly l) :
    PaintsOnly fun s => (k s).andThen l := by
  intro s
  obtain ⟨f, ws, hf, hkf⟩ := hk s
  cases f with
  | go u =>
    obtain ⟨f', vs, hf', hlf⟩ := hl u
    refine ⟨f', ws ++ vs, hf'.mono (fun _ h => hf.trans h) (fun _ h => hf.trans h) id, fun m => ?_⟩
    rw [applyWrites_append]
    exact (congrArg (Flow.andThen · l) (hkf m)).trans (hlf _)
  | ended u => exact ⟨.ended u, ws, hf, fun m => congrArg (Flow.andThen · l) (hkf m)⟩
  | stuck r => exact ⟨.stuck r, ws, trivial, fun m => congrArg (Flow.andThen · l) (hkf m)⟩

theorem PaintsOnly.comp {k : State → Flow} {g : State → State} (hk : PaintsOnly k) (hg : Unpainted g) :
    PaintsOnly fun s => k (g s) :=
  (PaintsOnly.go hg).andThen hk

theorem PaintsOnly.ite {c : State → Prop} [DecidablePred c] {k l : State → Flow} (hc : ∀ s m, c (s.setFb m) ↔ c s)
    (hk : PaintsOnly k) (hl : PaintsOnly l) : PaintsOnly fun s => if c s then k s else l s := by
  intro s
  by_cases h : c s
  · obtain ⟨f, ws, hf, hkf⟩ := hk s
    exact ⟨f, ws, hf, fun m => (if_pos ((hc s m).mpr h)).trans (hkf m)⟩
  · obtain ⟨f, ws, hf, hlf⟩ := hl s
    exact ⟨f, ws, hf, fun m => (if_neg fun h' => h ((hc s m).mp h')).trans (hlf m)⟩

/-- What is read of a state outside FB may choose how the procedure goes on. -/
theorem PaintsOnly.read {α : Type} {r : State → α} {k : α → State → Flow} (hr : ∀ s m, r (s.setFb m) = r s)
    (hk : ∀ a, PaintsOnly (k a)) : PaintsOnly fun s => k (r s) s := by
  intro s
  obtain ⟨f, ws, hf, hkf⟩ := hk (r s) s
  exact ⟨f, ws, hf, fun m => (congrArg (k · (s.setFb m)) (hr s m)).trans (hkf m)⟩

/-- The decoder's registers are set without a look at FB. -/
theorem unpainted_setDec {d : State → Dec} (hd : ∀ s m, d (s.setFb m) = d s) :
    Unpainted fun s => { s with dec := d s } :=
  fun s => ⟨⟨rfl, rfl⟩, fun m => congrArg (fun e => ({ s.setFb m with dec := e } : State)) (hd s m)⟩

theorem unpainted_id : Unpainted fun s => s := fun _ => ⟨⟨rfl, rfl⟩, fun _ => rfl⟩

/-! ### The reads of IN -/

theorem in8_paintsOnly {k : Byte → State → Flow} (hk : ∀ b, PaintsOnly (k b)) : PaintsOnly fun s => in8 s k := by
  intro s
  by_cases h : s.dec.ip < s.inp.length
  · obtain ⟨f, ws, hf, hkf⟩ := (hk s.inp[s.dec.ip]).comp (g := fun u => u.setIp (u.dec.ip + 1))
      (unpainted_setDec fun _ _ => rfl) s
    exact ⟨f, ws, hf, fun m => (in8_eq_some (s := s.setFb m) h k).trans (hkf m)⟩
  · obtain ⟨f, ws, hf, hkf⟩ := PaintsOnly.raise unpainted_id true .truncatedStream s
    exact ⟨f, ws, hf, fun m => (in8_eq_none (s := s.setFb m) (Nat.le_of_not_lt h) k).trans (hkf m)⟩

theorem in16_paintsOnly {k : BitVec 16 → State → Flow} (hk : ∀ w, PaintsOnly (k w)) : PaintsOnly fun s => in16 s k :=
  in8_paintsOnly fun _ => in8_paintsOnly fun _ => hk _

theorem inPix_paintsOnly {k : Pixel → State → Flow} (hk : ∀ p, PaintsOnly (k p)) : PaintsOnly fun s => inPix s k :=
  in8_paintsOnly fun _ => in8_paintsOnly fun _ => hk _

/-! ### Placing pixels and the bodies of the packets -/

/-- The one operation that touches FB writes a pixel at an address that FB has no part in. -/
theorem placePixel_paintsOnly (p : Pixel) (col : Nat) : PaintsOnly (placePixel p col) := by
  intro s
  by_cases hy : s.dec.y.toNat < s.cfg.h.toNat
  · refine ⟨.go s, [(fbAddr s.cfg.w.toNat (s.cfg.h.toNat - 1 - s.dec.y.toNat) col, p)], ⟨rfl, rfl⟩, fun m => ?_⟩
    exact placePixel_eq (s := s.setFb m) hy p col
  · exact ⟨.stuck .rowUndefined, [], trivial, fun m => placePixel_stuck (s := s.setFb m) (Nat.le_of_not_lt hy) p col⟩

theorem placeRun_paintsOnly (n : Nat) (p : Pixel) (col : Nat) : PaintsOnly (placeRun n p col) := by
  induction n generalizing col with
  | zero => exact .go unpainted_id
  | succ n ih => exact (placePixel_paintsOnly p col).andThen (ih (col + 1))

theorem placeCopy_paintsOnly (n col : Nat) : PaintsOnly (placeCopy n col) := by
  induction n generalizing col with
  | zero => exact .go unpainted_id
  | succ n ih => exact inPix_paintsOnly fun q => (placePixel_paintsOnly q col).andThen (ih (col + 1))

theorem unpainted_moveX (n : Nat) : Unpainted fun s => s.setX (s.dec.x.toNat + n) :=
  unpainted_setDec fun _ _ => rfl

theorem repeatBody_paintsOnly (n : Nat) : PaintsOnly (repeatBody n) :=
  .ite (c := fun s => overrunsRow n s = true) (fun _ _ => Iff.rfl) (.raise unpainted_id true .rowOverrun)
    (inPix_paintsOnly fun p =>
      (PaintsOnly.read (r := fun s => s.dec.x.toNat) (fun _ _ => rfl) (placeRun_paintsOnly n p)).andThen
        (.go (unpainted_moveX n)))

theorem copyBody_paintsOnly (n : Nat) : PaintsOnly (copyBody n) :=
  .ite (c := fun s => overrunsRow n s = true) (fun _ _ => Iff.rfl) (.raise unpainted_id true .rowOverrun)
    ((PaintsOnly.read (r := fun s => s.dec.x.toNat) (fun _ _ => rfl) (placeCopy_paintsOnly n)).andThen
      (.go (unpainted_moveX n)))

theorem pktsProc_paintsOnly (k : BitVec 16) : PaintsOnly (pktsProc k) :=
  .ite (c := fun s => overrunsFrame s = true) (fun _ _ => Iff.rfl) (.raise unpainted_id true .lineOverrun)
    (.go (unpainted_setDec fun _ _ => rfl))

theorem itemProc_paintsOnly (i : Instr) : PaintsOnly (itemProc i) := by
  cases i with
  | rowhdr _ | lines _ | lskip _ => exact .go fun _ => ⟨⟨rfl, rfl⟩, fun _ => rfl⟩
  | bRepeat n => exact repeatBody_paintsOnly n
  | bCopy n => exact copyBody_paintsOnly n
  | pkts k => exact pktsProc_paintsOnly k
  | lCopy skip n => exact (copyBody_paintsOnly n).comp (unpainted_moveX skip.toNat)
  | lRepeat skip n => exact (repeatBody_paintsOnly n).comp (unpainted_moveX skip.toNat)
  | nop | encKey | diff | encDelta | decBrunRow | decBrunFrame | decLcLine | decLcFrame => exact .go unpainted_id

/-- A procedure may be chosen by the grammar position. -/
theorem PaintsOnly.of_pos {k : State → Flow}
    (h : ∀ p, ∃ l, PaintsOnly l ∧ ∀ s, s.dec.pos = p → k s = l s) : PaintsOnly k := by
  intro s
  obtain ⟨l, hl, hkl⟩ := h s.dec.pos
  obtain ⟨f, ws, hf, hlf⟩ := hl s
  exact ⟨f, ws, hf, fun m => (hkl (s.setFb m) rfl).trans (hlf m)⟩

/-- A header that is cut short is read byte by byte, and nothing is painted (60_exceptions.md R302). -/
theorem readCutHeader_paintsOnly : PaintsOnly readCutHeader := by
  have h8 : PaintsOnly fun s => in8 s fun _ u => .go u := in8_paintsOnly fun _ => .go unpainted_id
  have h16 : PaintsOnly fun s => in16 s fun _ u => .go u := in16_paintsOnly fun _ => .go unpainted_id
  have hlc : PaintsOnly fun s => in8 s fun skip u => in8 (addSkip skip u) fun _ v => .go v :=
    in8_paintsOnly fun skip => h8.comp (unpainted_moveX skip.toNat)
  refine .of_pos fun p => ?_
  cases p with
  | command => exact ⟨_, .go unpainted_id, fun s hp => by simp only [readCutHeader, hp]⟩
  | rowHead | brunPacket => exact ⟨_, h8, fun s hp => by simp only [readCutHeader, hp]⟩
  | frameHead | lineHead | pktsWord => exact ⟨_, h16, fun s hp => by simp only [readCutHeader, hp]⟩
  | lcPacket => exact ⟨_, hlc, fun s hp => by simp only [readCutHeader, hp]⟩

/-! ### The procedures of the decode commands -/

theorem brunPacket_paintsOnly : PaintsOnly brunPacket :=
  in8_paintsOnly fun b =>
    .ite (c := fun _ => 0 ≤ sext8 b) (fun _ _ => Iff.rfl) (repeatBody_paintsOnly _) (copyBody_paintsOnly _)

theorem lcPacket_paintsOnly : PaintsOnly lcPacket :=
  in8_paintsOnly fun skip => PaintsOnly.comp (g := addSkip skip) (in8_paintsOnly fun b =>
    .ite (c := fun _ => sext8 b < 0) (fun _ _ => Iff.rfl) (repeatBody_paintsOnly _) (copyBody_paintsOnly _))
    (unpainted_moveX skip.toNat)

/-- The loop over the packets of a row or line, X.npk going down with each (R204, 44_rle_decoder_lc.md R228). -/
theorem packets_paintsOnly {packet : State → Flow} {packets : Nat → State → Flow} (hzero : packets 0 = .go)
    (hsucc : ∀ n, packets (n + 1) = fun s =>
      (packet s).andThen fun u => packets n (u.setNpk (u.dec.npk.toNat - 1)))
    (hpacket : PaintsOnly packet) (n : Nat) : PaintsOnly (packets n) := by
  induction n with
  | zero => exact hzero ▸ .go unpainted_id
  | succ n ih =>
    rw [hsucc]
    exact hpacket.andThen (ih.comp (unpainted_setDec fun _ _ => rfl))

theorem brunPackets_paintsOnly (n : Nat) : PaintsOnly (brunPackets n) :=
  packets_paintsOnly (packets := brunPackets) rfl (fun _ => rfl) brunPacket_paintsOnly n

theorem lcPackets_paintsOnly (n : Nat) : PaintsOnly (lcPackets n) :=
  packets_paintsOnly (packets := lcPackets) rfl (fun _ => rfl) lcPacket_paintsOnly n

theorem brunRow_paintsOnly (y : Nat) : PaintsOnly (brunRow y) :=
  PaintsOnly.comp (g := fun s => s.setY y)
    (.ite (c := fun s => overrunsFrame s = true) (fun _ _ => Iff.rfl) (.raise unpainted_id true .lineOverrun)
      (in8_paintsOnly fun k => (itemProc_paintsOnly (.rowhdr k)).andThen
        (.read (r := fun s => s.dec.npk.toNat) (fun _ _ => rfl) brunPackets_paintsOnly)))
    (unpainted_setDec fun _ _ => rfl)

theorem brunRows_paintsOnly (n y : Nat) : PaintsOnly (brunRows n y) := by
  induction n generalizing y with
  | zero => exact .go unpainted_id
  | succ n ih => exact (brunRow_paintsOnly y).andThen (ih (y + 1))

theorem lcLine_paintsOnly (k : BitVec 16) : PaintsOnly (lcLine k) :=
  (pktsProc_paintsOnly k).andThen
    ((PaintsOnly.read (r := fun s => s.dec.npk.toNat) (fun _ _ => rfl) lcPackets_paintsOnly).andThen
      (.go (unpainted_setDec fun _ _ => rfl)))

theorem lcEntry_paintsOnly : PaintsOnly lcEntry :=
  in16_paintsOnly fun w =>
    .ite (c := fun _ => sext16 w < 0) (fun _ _ => Iff.rfl)
      ((itemProc_paintsOnly (.lskip (-sext16 w).toNat)).andThen (in16_paintsOnly lcLine_paintsOnly))
      (lcLine_paintsOnly w)

theorem lcEntries_paintsOnly (n : Nat) : PaintsOnly (lcEntries n) := by
  induction n with
  | zero => exact .go unpainted_id
  | succ n ih =>
    exact lcEntry_paintsOnly.andThen (ih.comp (unpainted_setDec fun _ _ => rfl))

theorem lcFrame_paintsOnly : PaintsOnly lcFrame :=
  in16_paintsOnly fun m => (itemProc_paintsOnly (.lines m)).andThen
    (.read (r := fun s => s.dec.lines.toNat) (fun _ _ => rfl) lcEntries_paintsOnly)

theorem unpainted_startLine (lc : Bool) : Unpainted (startLine lc) := fun _ => ⟨⟨rfl, rfl⟩, fun _ => rfl⟩

theorem unpainted_startFrame (lc : Bool) : Unpainted (startFrame lc) := fun _ => ⟨⟨rfl, rfl⟩, fun _ => rfl⟩

theorem decodeProc_paintsOnly (i : Instr) : PaintsOnly (decodeProc i) := by
  cases i with
  | decBrunRow =>
    exact .read (r := fun s => s.cmd.arg.toNat) (fun _ _ => rfl) fun y =>
      (brunRow_paintsOnly y).comp (unpainted_startLine false)
  | decBrunFrame =>
    exact .read (r := fun s => s.cfg.h.toNat) (fun _ _ => rfl) fun n =>
      (brunRows_paintsOnly n 0).comp (unpainted_startFrame false)
  | decLcLine => exact (in16_paintsOnly lcLine_paintsOnly).comp (unpainted_startLine true)
  | decLcFrame => exact lcFrame_paintsOnly.comp (unpainted_startFrame true)
  | nop | encKey | diff | encDelta => exact .go unpainted_id
  | rowhdr _ | bRepeat _ | bCopy _ | lines _ | lskip _ | pkts _ | lCopy _ _ | lRepeat _ _ => exact .go unpainted_id

/-! ### The encode commands, and all instructions -/

theorem encKeyProc_paintsOnly : PaintsOnly encKeyProc := by
  have hcounted : Unpainted fun s => keyCounted s (keyRun s) := fun _ => ⟨⟨rfl, rfl⟩, fun _ => rfl⟩
  rw [funext encKeyProc_eq]
  exact .ite (c := fun s => 255 < (keyRun s).2.length) (fun _ _ => Iff.rfl) (.raise hcounted false .packetCountOverflow)
    (.go fun _ => ⟨⟨rfl, rfl⟩, fun _ => rfl⟩)

theorem encDeltaProc_paintsOnly : PaintsOnly encDeltaProc := by
  have hcounted : Unpainted fun s => deltaCounted s (lineDiff s) (deltaRun s) := fun _ => ⟨⟨rfl, rfl⟩, fun _ => rfl⟩
  rw [funext fun s => encDeltaProc_eq (s := s) rfl rfl]
  exact .ite (c := fun s => (lineDiff s).2 = []) (fun _ _ => Iff.rfl) (.go hcounted)
    (.ite (c := fun s => 32767 < (deltaRun s).2.length) (fun _ _ => Iff.rfl)
      (.raise hcounted false .packetCountOverflow) (.go fun _ => ⟨⟨rfl, rfl⟩, fun _ => rfl⟩))

/-- The checks at the start of a command look at STATUS.FAULT and CFG alone (45_host_commands.md R253). -/
theorem startCommand_paintsOnly {body : State → Flow} (h : PaintsOnly body) (code : BitVec 3) :
    PaintsOnly (startCommand code body) :=
  PaintsOnly.comp (g := fun s => s.setOp code)
    (.ite (c := fun s => s.status.fault ≠ 0) (fun _ _ => Iff.rfl) (.ended unpainted_id)
      (.ite (c := fun s => s.cfg.w = 0 ∨ (isDecodeCode code ∧ s.cfg.h = 0)) (fun _ _ => Iff.rfl)
        (.raise unpainted_id (isDecodeCode code) .badConfig) h))
    fun _ => ⟨⟨rfl, rfl⟩, fun _ => rfl⟩

/-- No instruction reads FB (20_memory.md R69). -/
theorem execFlow_paintsOnly (i : Instr) : PaintsOnly (execFlow i) := by
  have hitem := itemProc_paintsOnly i
  cases i with
  | nop => exact .go fun _ => ⟨⟨rfl, rfl⟩, fun _ => rfl⟩
  | encKey => exact startCommand_paintsOnly encKeyProc_paintsOnly 1
  | diff =>
    exact startCommand_paintsOnly (body := fun u => .go (diffLines u.drawFree))
      (.go fun _ => ⟨⟨rfl, rfl⟩, fun _ => rfl⟩) 2
  | encDelta => exact startCommand_paintsOnly encDeltaProc_paintsOnly 3
  | decBrunRow => exact startCommand_paintsOnly (decodeProc_paintsOnly .decBrunRow) 4
  | decBrunFrame => exact startCommand_paintsOnly (decodeProc_paintsOnly .decBrunFrame) 5
  | decLcLine => exact startCommand_paintsOnly (decodeProc_paintsOnly .decLcLine) 6
  | decLcFrame => exact startCommand_paintsOnly (decodeProc_paintsOnly .decLcFrame) 7
  | rowhdr _ | bRepeat _ | bCopy _ | lines _ | lskip _ | pkts _ | lCopy _ _ | lRepeat _ _ => exact hitem

/-- Settles O33: the two runs are one flow with the same pixel writes on two memories. -/
theorem noInstructionReadsTheFrameBuffer : Obligations.NoInstructionReadsTheFrameBuffer := by
  intro i s m
  obtain ⟨f, ws, -, hf⟩ := execFlow_paintsOnly i s
  have hs : exec i s = (f.withFb (applyWrites s.fb ws)).outcome := by
    rw [exec_eq_execFlow, ← hf s.fb]
    rfl
  have hm : exec i { s with fb := m } = (f.withFb (applyWrites m ws)).outcome := by
    rw [exec_eq_execFlow, ← hf m]
    rfl
  rw [hs, hm]
  cases f with
  | go u | ended u => exact ⟨rfl, read_applyWrites_pair s.fb m ws⟩
  | stuck r => rfl

/-! ### The canonical form of the memories, kept by every step -/

theorem memoriesCanonical_iff (s : State) :
    s.memoriesCanonical = true ↔ s.lcur.wf = true ∧ s.lprev.wf = true ∧ s.fb.wf = true := by
  simp [State.memoriesCanonical, and_assoc]

/-- What only paints keeps the canonical form: the line buffers are untouched, and FB takes pixel writes. -/
theorem PaintsOnly.keeps_canonical {k : State → Flow} (hk : PaintsOnly k) {s t : State} (h : (k s).outcome = .next t)
    (hs : s.memoriesCanonical = true) : t.memoriesCanonical = true := by
  obtain ⟨f, ws, hlines, hf⟩ := hk s
  obtain ⟨hcur, hprev, hfb⟩ := (memoriesCanonical_iff s).mp hs
  rw [show k s = f.withFb (applyWrites s.fb ws) from hf s.fb] at h
  cases f with
  | go u | ended u =>
    obtain ⟨hc, hp⟩ := hlines
    cases h
    exact (memoriesCanonical_iff _).mpr ⟨hc ▸ hcur, hp ▸ hprev, applyWrites_wf hfb ws⟩
  | stuck r => cases h

theorem exec_keeps_canonical {i : Instr} {s t : State} (h : exec i s = .next t) (hs : s.memoriesCanonical = true) :
    t.memoriesCanonical = true :=
  (execFlow_paintsOnly i).keeps_canonical (exec_eq_execFlow i s ▸ h) hs

theorem hostAccess_keeps_canonical {a : HostAccess} {s t : State} (h : hostAccess a s = .next t)
    (hs : s.memoriesCanonical = true) : t.memoriesCanonical = true := by
  obtain ⟨hcur, hprev, hfb⟩ := (memoriesCanonical_iff s).mp hs
  exact (memoriesCanonical_iff t).mpr (hostAccess_wf h hcur hprev hfb)

theorem afterItem_canonical (i : Instr) (s : State) : (afterItem i s).memoriesCanonical = s.memoriesCanonical := by
  unfold afterItem
  split
  · rfl
  · obtain ⟨d, hd⟩ := advance_dec i s
    rw [hd]
    rfl

/-- An invariant of the block: what the host's accesses, the instructions, the sequencing after an item and the reads of a
header cut short each keep, and the list of the host's actions has no part in, is kept by every step. -/
theorem step_keeps {P : State → Prop} (hhost : ∀ s rest, P s → P { s with host := rest })
    (haccess : ∀ a s t, hostAccess a s = .next t → P s → P t) (hexec : ∀ i s t, exec i s = .next t → P s → P t)
    (hafter : ∀ i s, P s → P (afterItem i s)) (hip : ∀ s n, P s → P (s.setIp n))
    (hcut : ∀ s t, (readCutHeader s).outcome = .next t → P s → P t) {s t : State} (h : step s = .next t) (hs : P s) :
    P t := by
  by_cases hp : s.dec.pos = .command
  · match hh : s.host with
    | [] =>
      rw [step, fetch_idle hp hh] at h
      cases h
      exact hs
    | .writeOp code :: rest =>
      rw [step, fetch_command hp hh] at h
      exact hexec _ _ _ h (hhost s rest hs)
    | .access a :: rest =>
      rw [step, fetch_access hp hh] at h
      exact haccess _ _ _ h (hhost s rest hs)
  · cases hd : decode s.dec.pos (s.inp.drop s.dec.ip) with
    | error e =>
      rw [step_of_cut hp hd] at h
      exact hcut _ _ h hs
    | ok item =>
      obtain ⟨i, rest⟩ := item
      rw [step_of_decode hp hd] at h
      obtain ⟨u, hu, rfl⟩ := mapNext_eq_next h
      exact hafter i u (hexec _ _ _ hu (hip s _ hs))

/-- Settles O9: instructions and header reads only paint, a host access writes pixels, and the rest touches no memory. -/
theorem stepsKeepMemoriesCanonical : Obligations.StepsKeepMemoriesCanonical := fun _ _ hs h =>
  step_keeps (P := fun s => s.memoriesCanonical = true) (fun _ _ hs => hs)
    (fun _ _ _ h hs => hostAccess_keeps_canonical h hs) (fun _ _ _ h hs => exec_keeps_canonical h hs)
    (fun i s hs => (afterItem_canonical i s).trans hs) (fun _ _ hs => hs)
    (fun _ _ h hs => readCutHeader_paintsOnly.keeps_canonical h hs) h hs

end Sys2Proof.Machine
end

section
/-! PROOF. The encodings of 30_encoding.md: `decode` and `encode` are inverse to each other at every grammar position, and a
table word placed in the state is what the next step fetches. -/

namespace Sys2Proof.Machine

/-! ### Count bytes: every byte is the encoding of one count, in either dialect (R100, R101) -/

theorem ofNat_toNat_byte (b : Byte) : BitVec.ofNat 8 b.toNat = b := BitVec.eq_of_toNat_eq (Nat.mod_eq_of_lt b.isLt)

theorem neg8_sub_toNat (b : Byte) : neg8 (256 - b.toNat) = b := by
  have := b.isLt
  rw [neg8, Nat.sub_sub_self (by omega), ofNat_toNat_byte]

theorem brunPacketOf_ofNat {n : Nat} (h : n ≤ 127) : brunPacketOf (BitVec.ofNat 8 n) = .bRepeat n := by
  rw [brunPacketOf, sext8_of_le h, if_pos (by omega), Int.toNat_natCast]

theorem brunPacketOf_neg8 {n : Nat} (h1 : 1 ≤ n) (h128 : n ≤ 128) : brunPacketOf (neg8 n) = .bCopy n := by
  rw [brunPacketOf, neg8, sext8_neg h1 h128, if_neg (by omega), Int.neg_neg, Int.toNat_natCast]

theorem lcPacketOf_ofNat (s : Byte) {n : Nat} (h : n ≤ 127) : lcPacketOf s (BitVec.ofNat 8 n) = .lCopy s n := by
  rw [lcPacketOf, sext8_of_le h, if_neg (by omega), Int.toNat_natCast]

theorem lcPacketOf_neg8 (s : Byte) {n : Nat} (h1 : 1 ≤ n) (h128 : n ≤ 128) : lcPacketOf s (neg8 n) = .lRepeat s n := by
  rw [lcPacketOf, neg8, sext8_neg h1 h128, if_pos (by omega), Int.neg_neg, Int.toNat_natCast]

theorem brunPacketOf_of_lt {b : Byte} (h : b.toNat < 128) : brunPacketOf b = .bRepeat b.toNat := by
  simpa only [ofNat_toNat_byte] using brunPacketOf_ofNat (n := b.toNat) (by omega)

theorem brunPacketOf_of_ge {b : Byte} (h : 128 ≤ b.toNat) : brunPacketOf b = .bCopy (256 - b.toNat) := by
  have := b.isLt
  simpa only [neg8_sub_toNat] using brunPacketOf_neg8 (n := 256 - b.toNat) (by omega) (by omega)

theorem lcPacketOf_of_lt (s : Byte) {b : Byte} (h : b.toNat < 128) : lcPacketOf s b = .lCopy s b.toNat := by
  simpa only [ofNat_toNat_byte] using lcPacketOf_ofNat s (n := b.toNat) (by omega)

theorem lcPacketOf_of_ge (s : Byte) {b : Byte} (h : 128 ≤ b.toNat) : lcPacketOf s b = .lRepeat s (256 - b.toNat) := by
  have := b.isLt
  simpa only [neg8_sub_toNat] using lcPacketOf_neg8 s (n := 256 - b.toNat) (by omega) (by omega)

theorem decode_brunPacket {b : Byte} {i : Instr} (h : brunPacketOf b = i) (rest : List Byte) :
    decode .brunPacket (b :: rest) = .ok (i, rest) := by
  rw [← h]
  rfl

theorem decode_lcPacket {s b : Byte} {i : Instr} (h : lcPacketOf s b = i) (rest : List Byte) :
    decode .lcPacket (s :: b :: rest) = .ok (i, rest) := by
  rw [← h]
  rfl

/-- Settles O12: BRUN reads a count byte below 0x80 as REPEAT and LC as COPY, and from 0x80 on the other way round. -/
theorem signConventionsAreOpposite : Obligations.SignConventionsAreOpposite := fun _ skip rest =>
  ⟨fun h => ⟨decode_brunPacket (brunPacketOf_of_lt h) rest, decode_lcPacket (lcPacketOf_of_lt skip h) rest⟩,
    fun h => ⟨decode_brunPacket (brunPacketOf_of_ge h) rest, decode_lcPacket (lcPacketOf_of_ge skip h) rest⟩⟩

/-! ### Words (R98, R99, R103) -/

theorem u16le_u16bytes (w : BitVec 16) : u16le (BitVec.ofNat 8 w.toNat) (BitVec.ofNat 8 (w.toNat / 256)) = w := by
  have := w.isLt
  apply BitVec.eq_of_toNat_eq
  simp only [u16le, BitVec.toNat_ofNat]
  omega

theorem u16le_toNat (b0 b1 : Byte) : (u16le b0 b1).toNat = b0.toNat + 256 * b1.toNat :=
  Nat.mod_eq_of_lt (by have := b0.isLt; have := b1.isLt; omega)

theorem u16bytes_u16le (b0 b1 : Byte) : u16bytes (u16le b0 b1) = [b0, b1] := by
  have h0 : BitVec.ofNat 8 (b0.toNat + 256 * b1.toNat) = b0 :=
    BitVec.eq_of_toNat_eq (by have := b0.isLt; rw [BitVec.toNat_ofNat]; omega)
  have h1 : (b0.toNat + 256 * b1.toNat) / 256 = b1.toNat := by have := b0.isLt; omega
  rw [u16bytes, u16le_toNat, h0, h1, ofNat_toNat_byte]

theorem lineHeadOf_of_lt {w : BitVec 16} (h : w.toNat < 32768) : lineHeadOf w = .pkts w := by
  rw [lineHeadOf, sext16, if_pos h, if_neg (by omega)]

theorem lineHeadOf_neg {rows : Nat} (h1 : 1 ≤ rows) (h : rows ≤ 32768) :
    lineHeadOf (BitVec.ofNat 16 (65536 - rows)) = .lskip rows := by
  rw [lineHeadOf, sext16_neg h1 h, if_pos (by omega), Int.neg_neg, Int.toNat_natCast]

theorem ofNat_neg_sub_toNat (w : BitVec 16) : BitVec.ofNat 16 (65536 - (65536 - w.toNat)) = w :=
  BitVec.eq_of_toNat_eq (by have := w.isLt; rw [BitVec.toNat_ofNat]; omega)

theorem lineHeadOf_of_ge {w : BitVec 16} (h : 32768 ≤ w.toNat) : lineHeadOf w = .lskip (65536 - w.toNat) := by
  have := w.isLt
  simpa only [ofNat_neg_sub_toNat] using lineHeadOf_neg (rows := 65536 - w.toNat) (by omega) (by omega)

/-! ### Decoding an encoding -/

/-- A position that reads a word reads back the two bytes of one (R70, R103). -/
theorem decode_u16bytes {p : Position} {item : BitVec 16 → Instr}
    (hp : ∀ b0 b1 rest, decode p (b0 :: b1 :: rest) = .ok (item (u16le b0 b1), rest)) (w : BitVec 16) (rest : List Byte) :
    decode p (u16bytes w ++ rest) = .ok (item w, rest) := by
  rw [u16bytes, List.cons_append, List.cons_append, List.nil_append, hp, u16le_u16bytes]

/-- Settles O13, by cases on the instruction: its position reads back the bytes that `encode` writes. -/
theorem decodeInvertsEncode : Obligations.DecodeInvertsEncode := by
  intro p i rest h
  obtain ⟨hwf, hp⟩ := Bool.and_eq_true_iff.mp h
  cases i with
  | rowhdr k =>
    obtain rfl : p = .rowHead := of_decide_eq_true hp
    rfl
  | bRepeat n =>
    obtain rfl : p = .brunPacket := of_decide_eq_true hp
    exact decode_brunPacket (brunPacketOf_ofNat (of_decide_eq_true hwf)) rest
  | bCopy n =>
    obtain rfl : p = .brunPacket := of_decide_eq_true hp
    obtain ⟨h1, h128⟩ := Bool.and_eq_true_iff.mp hwf
    exact decode_brunPacket (brunPacketOf_neg8 (of_decide_eq_true h1) (of_decide_eq_true h128)) rest
  | lines m =>
    obtain rfl : p = .frameHead := of_decide_eq_true hp
    exact decode_u16bytes (fun _ _ _ => rfl) m rest
  | lskip rows =>
    obtain rfl : p = .lineHead := of_decide_eq_true hp
    obtain ⟨h1, hmax⟩ := Bool.and_eq_true_iff.mp hwf
    rw [encode, decode_u16bytes (item := lineHeadOf) (fun _ _ _ => rfl),
      lineHeadOf_neg (of_decide_eq_true h1) (of_decide_eq_true hmax)]
  | pkts k =>
    obtain rfl | ⟨rfl, hk⟩ : p = .pktsWord ∨ p = .lineHead ∧ k.toNat < 32768 := by simpa [Position.admits] using hp
    · exact decode_u16bytes (fun _ _ _ => rfl) k rest
    · rw [encode, decode_u16bytes (item := lineHeadOf) (fun _ _ _ => rfl), lineHeadOf_of_lt hk]
  | lCopy s n =>
    obtain rfl : p = .lcPacket := of_decide_eq_true hp
    exact decode_lcPacket (lcPacketOf_ofNat s (of_decide_eq_true hwf)) rest
  | lRepeat s n =>
    obtain rfl : p = .lcPacket := of_decide_eq_true hp
    obtain ⟨h1, h128⟩ := Bool.and_eq_true_iff.mp hwf
    exact decode_lcPacket (lcPacketOf_neg8 s (of_decide_eq_true h1) (of_decide_eq_true h128)) rest
  | nop | encKey | diff | encDelta | decBrunRow | decBrunFrame | decLcLine | decLcFrame =>
    obtain rfl : p = .command := of_decide_eq_true hp
    rfl

/-- Settles O15: `decode` evaluates on each of the written-out words. -/
theorem writtenOutWordsDecode : Obligations.WrittenOutWordsDecode := by
  unfold Obligations.WrittenOutWordsDecode
  decide

/-! ### Encoding what was decoded -/

/-- `header` is the encoding of the instruction, and its operands are in range (R91, R105). -/
def IsEncodedAs (i : Instr) (header : List Byte) : Prop := encode i = header ∧ i.wellFormed = true

theorem commandOf_isEncodedAs {b : Byte} (h : b.toNat < 8) : IsEncodedAs (commandOf (BitVec.ofNat 3 b.toNat)) [b] := by
  have hcode : ∀ code : BitVec 3, encode (commandOf code) = [BitVec.ofNat 8 code.toNat] ∧
      (commandOf code).wellFormed = true := by decide
  obtain ⟨henc, hwf⟩ := hcode (BitVec.ofNat 3 b.toNat)
  rw [BitVec.toNat_ofNat, Nat.mod_eq_of_lt h, ofNat_toNat_byte] at henc
  exact ⟨henc, hwf⟩

theorem brunPacketOf_isEncodedAs (b : Byte) : IsEncodedAs (brunPacketOf b) [b] := by
  have := b.isLt
  rcases Nat.lt_or_ge b.toNat 128 with h | h
  · rw [brunPacketOf_of_lt h, IsEncodedAs, encode, ofNat_toNat_byte]
    exact ⟨rfl, decide_eq_true (by omega)⟩
  · rw [brunPacketOf_of_ge h, IsEncodedAs, encode, neg8_sub_toNat]
    exact ⟨rfl, Bool.and_eq_true_iff.mpr ⟨decide_eq_true (by omega), decide_eq_true (by omega)⟩⟩

theorem lcPacketOf_isEncodedAs (s b : Byte) : IsEncodedAs (lcPacketOf s b) [s, b] := by
  have := b.isLt
  rcases Nat.lt_or_ge b.toNat 128 with h | h
  · rw [lcPacketOf_of_lt s h, IsEncodedAs, encode, ofNat_toNat_byte]
    exact ⟨rfl, decide_eq_true (by omega)⟩
  · rw [lcPacketOf_of_ge s h, IsEncodedAs, encode, neg8_sub_toNat]
    exact ⟨rfl, Bool.and_eq_true_iff.mpr ⟨decide_eq_true (by omega), decide_eq_true (by omega)⟩⟩

theorem lineHeadOf_isEncodedAs (w : BitVec 16) : IsEncodedAs (lineHeadOf w) (u16bytes w) := by
  have := w.isLt
  rcases Nat.lt_or_ge w.toNat 32768 with h | h
  · rw [lineHeadOf_of_lt h]
    exact ⟨rfl, rfl⟩
  · rw [lineHeadOf_of_ge h, IsEncodedAs, encode, ofNat_neg_sub_toNat]
    exact ⟨rfl, Bool.and_eq_true_iff.mpr ⟨decide_eq_true (by omega), decide_eq_true (by omega)⟩⟩

/-- At the command position a byte is a command exactly when it is a 3-bit code (R251). -/
theorem decode_command_of_lt {b : Byte} (h : b.toNat < 8) (rest : List Byte) :
    decode .command (b :: rest) = .ok (commandOf (BitVec.ofNat 3 b.toNat), rest) := if_pos h

theorem decode_command_of_ge {b : Byte} (h : 8 ≤ b.toNat) (rest : List Byte) :
    decode .command (b :: rest) = .error .notACommandCode := if_neg (Nat.not_lt.mpr h)

theorem decode_command_eq_ok {b : Byte} {bytes rest : List Byte} {i : Instr}
    (h : decode .command (b :: bytes) = .ok (i, rest)) :
    b.toNat < 8 ∧ i = commandOf (BitVec.ofNat 3 b.toNat) ∧ rest = bytes := by
  rcases Nat.lt_or_ge b.toNat 8 with hb | hb
  · rw [decode_command_of_lt hb] at h
    cases h
    exact ⟨hb, rfl, rfl⟩
  · rw [decode_command_of_ge hb] at h
    cases h

/-- `decode` takes the header bytes of a well-formed instruction off the front (R108). -/
theorem decode_isEncodedAs {p : Position} {bytes rest : List Byte} {i : Instr} (h : decode p bytes = .ok (i, rest)) :
    ∃ header, IsEncodedAs i header ∧ bytes = header ++ rest := by
  match p, bytes, h with
  | .command, b :: _, h =>
    obtain ⟨hb, rfl, rfl⟩ := decode_command_eq_ok h
    exact ⟨[b], commandOf_isEncodedAs hb, rfl⟩
  | .rowHead, b :: _, rfl => exact ⟨[b], ⟨rfl, rfl⟩, rfl⟩
  | .brunPacket, b :: _, rfl => exact ⟨[b], brunPacketOf_isEncodedAs b, rfl⟩
  | .frameHead, b0 :: b1 :: _, rfl => exact ⟨[b0, b1], ⟨u16bytes_u16le b0 b1, rfl⟩, rfl⟩
  | .lineHead, b0 :: b1 :: _, rfl =>
    exact ⟨[b0, b1], u16bytes_u16le b0 b1 ▸ lineHeadOf_isEncodedAs (u16le b0 b1), rfl⟩
  | .pktsWord, b0 :: b1 :: _, rfl => exact ⟨[b0, b1], ⟨u16bytes_u16le b0 b1, rfl⟩, rfl⟩
  | .lcPacket, s :: b :: _, rfl => exact ⟨[s, b], lcPacketOf_isEncodedAs s b, rfl⟩

/-- The command position admits what decodes there; the stream positions do by `decode_admits`. -/
theorem decode_command_admits {bytes rest : List Byte} {i : Instr} (h : decode .command bytes = .ok (i, rest)) :
    Position.command.admits i = true := by
  cases bytes with
  | nil => cases h
  | cons b bytes =>
    obtain ⟨-, rfl, -⟩ := decode_command_eq_ok h
    exact command_admits_commandOf _

theorem decode_eq_ok {p : Position} {bytes rest : List Byte} {i : Instr} (h : decode p bytes = .ok (i, rest)) :
    bytes = encode i ++ rest ∧ i.wellFormedAt p = true := by
  obtain ⟨_, ⟨rfl, hwf⟩, hbytes⟩ := decode_isEncodedAs h
  have hp : p.admits i = true := by
    by_cases hc : p = .command
    · subst hc
      exact decode_command_admits h
    · exact decode_admits hc h
  exact ⟨hbytes, Bool.and_eq_true_iff.mpr ⟨hwf, hp⟩⟩

/-- Every header of two bytes has a meaning at a stream position: no stream encoding is illegal (R110). -/
theorem decode_total {p : Position} (hp : p ≠ .command) (b0 b1 : Byte) (bytes : List Byte) :
    ∃ i rest, decode p (b0 :: b1 :: bytes) = .ok (i, rest) := by
  cases p with
  | command => exact absurd rfl hp
  | rowHead | brunPacket | frameHead | lineHead | pktsWord | lcPacket => exact ⟨_, _, rfl⟩

/-- Settles O14: `decode` takes off the bytes `encode` writes, and refuses only what is cut short or no command code. -/
theorem encodeInvertsDecode : Obligations.EncodeInvertsDecode := by
  refine ⟨fun p bytes rest i h => decode_eq_ok h, fun p bytes hp hlen => ?_, fun bytes b => ⟨fun h => ?_, fun h => ?_⟩⟩
  · match bytes, hlen with
    | b0 :: b1 :: bytes, _ => exact decode_total hp b0 b1 bytes
  · by_contra hb
    rw [decode_command_of_lt (Nat.lt_of_not_le hb)] at h
    cases h
  · exact decode_command_of_ge h bytes

/-! ### A table word placed where the next step fetches it (log 3) -/

/-- What decodes does not depend on the bytes behind those given. -/
theorem decode_append {p : Position} {bytes rest : List Byte} {i : Instr} (h : decode p bytes = .ok (i, rest))
    (more : List Byte) : decode p (bytes ++ more) = .ok (i, rest ++ more) := by
  obtain ⟨rfl, hwf⟩ := decode_eq_ok h
  rw [List.append_assoc]
  exact decodeInvertsEncode p i _ hwf

theorem decodeTableWord_eq_some {nbits w : Nat} {i : Instr} (h : decodeTableWord nbits w = some i) :
    ∃ rest, decode (tablePosition nbits w) (tableBytes nbits w) = .ok (i, rest) := by
  unfold decodeTableWord at h
  split at h
  · next j rest hd =>
    cases h
    exact ⟨rest, hd⟩
  · cases h

theorem tableBytes_eq_cons {nbits : Nat} (h : 0 < nbits) (w : Nat) :
    ∃ bytes, tableBytes nbits w = BitVec.ofNat 8 w :: bytes := by
  obtain ⟨n, hn⟩ : ∃ n, (nbits + 7) / 8 = n + 1 := ⟨(nbits + 7) / 8 - 1, by omega⟩
  rw [tableBytes, hn, bytesOf]
  exact ⟨_, List.cons_append⟩

/-- Bytes stored at an address are read from there on. -/
theorem drop_storeAt (inp : List Byte) (ip : Nat) (bytes : List Byte) :
    (storeAt inp ip bytes).drop ip = bytes ++ inp.drop (ip + bytes.length) := by
  have hpad : (inp.take ip ++ List.replicate (ip - inp.length) 0).length = ip := by
    rw [List.length_append, List.length_take, List.length_replicate]
    omega
  rw [storeAt, List.append_assoc, List.drop_left' hpad]

theorem withFetchWord_command (s : State) {nbits w : Nat} (h : tablePosition nbits w = .command) :
    s.withFetchWord nbits w =
      { s.setPos .command with host := .writeOp (BitVec.ofNat 3 (w % 256)) :: s.host } := by
  rw [State.withFetchWord, placeTableWord, h]

theorem withFetchWord_item (s : State) {nbits w : Nat} (h : tablePosition nbits w ≠ .command) :
    s.withFetchWord nbits w =
      { s.setPos (tablePosition nbits w) with inp := storeAt s.inp s.dec.ip (tableBytes nbits w) } := by
  rw [State.withFetchWord, placeTableWord]
  cases hp : tablePosition nbits w with
  | command => exact absurd hp h
  | rowHead | brunPacket | frameHead | lineHead | pktsWord | lcPacket => rfl

/-- A placed command is the host's next action. -/
theorem fetch_withFetchWord_command (s : State) {nbits w : Nat} {i : Instr} (hn : 0 < nbits)
    (hi : decodeTableWord nbits w = some i) (hp : tablePosition nbits w = .command) :
    fetch (s.withFetchWord nbits w) = .command i (s.setPos .command) := by
  obtain ⟨rest, hd⟩ := decodeTableWord_eq_some hi
  obtain ⟨bytes, hbytes⟩ := tableBytes_eq_cons hn w
  rw [hp, hbytes] at hd
  obtain ⟨-, rfl, -⟩ := decode_command_eq_ok hd
  rw [withFetchWord_command s hp]
  rfl

/-- A placed item lies at X.ip, with the decoder at the position it is read at. -/
theorem fetch_withFetchWord_item (s : State) {nbits w : Nat} {i : Instr}
    (hi : decodeTableWord nbits w = some i) (hp : tablePosition nbits w ≠ .command) :
    fetch (s.withFetchWord nbits w) =
      .item i ((s.withFetchWord nbits w).setIp (s.dec.ip + (encode i).length)) := by
  obtain ⟨rest, hd⟩ := decodeTableWord_eq_some hi
  rw [withFetchWord_item s hp, fetch_item hp]
  refine fetchItem_of_decode hp (rest := rest ++ s.inp.drop (s.dec.ip + (tableBytes nbits w).length)) ?_
  exact (congrArg (decode _) (drop_storeAt _ _ _)).trans (decode_append hd _)

/-- Settles O16, for a command and for an item. -/
theorem placedTableWordIsFetched : Obligations.PlacedTableWordIsFetched :=
  fun s _ _ _ hn hi => ⟨fetch_withFetchWord_command s hn hi, fetch_withFetchWord_item s hi⟩

end Sys2Proof.Machine
end

section
/-! PROOF. The steps of the run encoder one by one (40_rle_encoder_key.md R132 to R137), ENC_KEY over a whole line (R141),
and how the packets of a run cut it up (R143 items 1, 2 and 6). -/

namespace Sys2Proof.Machine

/-! ### One equation per rule of the table -/

theorem encStep_copy_tail {L : Nat → Pixel} {e : Enc} (hm : e.mode = .copy) (ht : tailMatches L e = true) :
    encStep L e = stepSwitch L e := by
  simp [encStep, hm, ht]

theorem encStep_copy_full {L : Nat → Pixel} {e : Enc} (hm : e.mode = .copy) (ht : tailMatches L e = false)
    (hc : e.count.toNat = 127) : encStep L e = (freshPacket .copy e, [.copyOf (slice L e.start.toNat 127)]) := by
  simp [encStep, hm, ht, hc, Config.countMax]

theorem encStep_copy_room {L : Nat → Pixel} {e : Enc} (hm : e.mode = .copy) (ht : tailMatches L e = false)
    (hc : e.count.toNat ≠ 127) : encStep L e = (extendPacket e, []) := by
  simp [encStep, hm, ht, hc, Config.countMax]

theorem encStep_repeated_full {L : Nat → Pixel} {e : Enc} (hm : e.mode = .repeated)
    (hp : L e.idx.toNat = L e.start.toNat) (hc : e.count.toNat = 127) :
    encStep L e = (freshPacket .repeated e, [.repeatOf 127 (L e.start.toNat)]) := by
  simp [encStep, hm, hp, hc, Config.countMax]

theorem encStep_repeated_room {L : Nat → Pixel} {e : Enc} (hm : e.mode = .repeated)
    (hp : L e.idx.toNat = L e.start.toNat) (hc : e.count.toNat ≠ 127) : encStep L e = (extendPacket e, []) := by
  simp [encStep, hm, hp, hc, Config.countMax]

theorem encStep_repeated_other {L : Nat → Pixel} {e : Enc} (hm : e.mode = .repeated)
    (hp : L e.idx.toNat ≠ L e.start.toNat) :
    encStep L e = (freshPacket .copy e, [.repeatOf e.count.toNat (L e.start.toNat)]) := by
  simp [encStep, hm, hp]

/-- A flush that stays in its mode writes only E.start, E.count and E.idx (R133, R135). -/
theorem freshPacket_of_mode {m : Mode} {e : Enc} (hm : e.mode = m) :
    freshPacket m e = { e with start := e.idx, count := 1, idx := BitVec.ofNat 16 (e.idx.toNat + 1) } := by
  subst hm
  rfl

/-- The condition of R132, its pixels counted back from the new one. -/
theorem tailMatches_iff_back (L : Nat → Pixel) (e : Enc) :
    tailMatches L e = true ↔
      e.la.toNat ≤ e.count.toNat ∧ ∀ k, 1 ≤ k → k ≤ e.la.toNat → L (e.idx.toNat - k) = L e.idx.toNat := by
  rw [tailMatches_iff]
  refine and_congr_right fun _ => ⟨fun h k h1 hk => ?_, fun h k hk => h (k + 1) (Nat.le_add_left 1 k) hk⟩
  obtain ⟨j, rfl⟩ := Nat.exists_eq_add_of_le' h1
  exact h j hk

theorem tailMatches_eq_false_iff (L : Nat → Pixel) (e : Enc) :
    tailMatches L e = false ↔
      e.count.toNat < e.la.toNat ∨ ∃ k, 1 ≤ k ∧ k ≤ e.la.toNat ∧ L (e.idx.toNat - k) ≠ L e.idx.toNat := by
  rw [← Bool.not_eq_true, tailMatches_iff_back, not_and_or, Nat.not_le]
  push Not
  rfl

theorem count_eq_max_iff (e : Enc) : e.count = 127 ↔ e.count.toNat = 127 := BitVec.toNat_inj.symm

/-- Settles O46: each clause is the equation of its rule. -/
theorem runEncoderStepsByItsTable : Obligations.RunEncoderStepsByItsTable := by
  intro L e
  rw [Ne, count_eq_max_iff]
  refine ⟨fun hm hla ht => ?_, fun hm ht => ?_, fun hm hp => ?_, fun hm hp => ?_, fun hc => ?_, fun hc => ?_⟩
  · exact encStep_copy_tail hm ((tailMatches_iff_back L e).mpr ⟨hla, ht⟩)
  · have hf := (tailMatches_eq_false_iff L e).mpr ht
    exact ⟨fun hc => freshPacket_of_mode hm ▸ encStep_copy_full hm hf hc, encStep_copy_room hm hf⟩
  · exact ⟨fun hc => freshPacket_of_mode hm ▸ encStep_repeated_full hm hp hc, encStep_repeated_room hm hp⟩
  · exact encStep_repeated_other hm hp
  · exact if_pos hc
  · simp [flushRun, hc]

/-! ### The run as a whole -/

/-- Settles O39: the two clauses are the two ways the procedure ends. -/
theorem encKeyEncodesTheLine : Obligations.EncKeyEncodesTheLine := by
  intro s run hfault hw hrun
  have hexec : exec .encKey s = (encKeyProc (s.setOp 1)).outcome :=
    congrArg Flow.outcome (startCommand_run hfault hw (fun h => absurd h (by decide)) encKeyProc)
  have hkey : keyRun (s.setOp 1) = run := hrun
  rw [encKeyProc_eq, hkey] at hexec
  refine ⟨fun hlen => ?_, fun hlen => ?_⟩
  · rw [hexec, if_neg (Nat.not_lt.mpr hlen)]
    rfl
  · rw [hexec, if_pos hlen]
    rfl

theorem Emitted.eq_nil_iff {L : Nat → Pixel} {a n : Nat} {pks : List Packet} (h : Emitted L a n pks) :
    pks = [] ↔ n = 0 := by
  constructor
  · rintro rfl
    exact h.length.symm
  · rintro rfl
    exact List.eq_nil_of_length_eq_zero (Nat.le_zero.mp h.length_le)

/-- Settles O47, from the packets emitted over the whole run. -/
theorem runPacketsPartitionTheRun : Obligations.RunPacketsPartitionTheRun := by
  intro L e s0 n la _ hend
  have h := encodeRun_emitted L e la hend
  exact ⟨h.pixels, h.bounds, h.length_le, h.eq_nil_iff⟩

end Sys2Proof.Machine
end

section
/-! PROOF. The packets of a run are a function of its pixel values (40_rle_encoder_key.md R143 item 3): two encoders with
the same pixels ahead of them stay in step. -/

namespace Sys2Proof.Machine

/-- Two encoders, each with its line, that agree in their registers but for the place in the line: the packet pending and
the `n` pixels still to come are the same on both lines. -/
structure SameAhead (L M : Nat → Pixel) (n : Nat) (e f : Enc) : Prop where
  mode : f.mode = e.mode
  count : f.count = e.count
  la : f.la = e.la
  pending : Pending L e
  pending' : Pending M f
  fits : e.idx.toNat + n ≤ 65535
  fits' : f.idx.toNat + n ≤ 65535
  pixels : ∀ k, k < e.count.toNat + n → L (e.start.toNat + k) = M (f.start.toNat + k)

theorem encStep_idx {L : Nat → Pixel} {e : Enc} (hi : e.idx.toNat < 65535) :
    (encStep L e).1.idx.toNat = e.idx.toNat + 1 := by
  rw [(encStep_frame L e).1, BitVec.toNat_ofNat]
  omega

/-- How far a step moves E.start and how much is pending after it show in the packets emitted. -/
theorem encStep_start_count {L : Nat → Pixel} {e : Enc} (hs : Pending L e) (hi : e.idx.toNat < 65535) :
    (encStep L e).1.start.toNat = e.start.toNat + (expandAll (encStep L e).2).length ∧
      (expandAll (encStep L e).2).length + (encStep L e).1.count.toNat = e.count.toNat + 1 := by
  obtain ⟨hp, m, hm, hstart⟩ := encStep_emitted hs hi
  have hidx := encStep_idx (L := L) hi
  have hends := hs.ends
  have hends' := hp.ends
  rw [hm.length]
  omega

namespace SameAhead

variable {L M : Nat → Pixel} {n : Nat} {e f : Enc}

theorem slice_eq (h : SameAhead L M n e f) {m : Nat} (hm : m ≤ e.count.toNat) :
    slice L e.start.toNat m = slice M f.start.toNat m :=
  slice_congr fun k hk => h.pixels k (by omega)

theorem start_pixel (h : SameAhead L M n e f) (hn : 1 ≤ e.count.toNat + n) :
    L e.start.toNat = M f.start.toNat := h.pixels 0 hn

/-- The pixels of the pending packet, counted back from the new one, are the same. -/
theorem back_pixel (h : SameAhead L M (n + 1) e f) {k : Nat} (hk : k ≤ e.count.toNat) :
    L (e.idx.toNat - k) = M (f.idx.toNat - k) := by
  have hpix := h.pixels (e.count.toNat - k) (by omega)
  rw [← h.pending.ends, ← h.pending'.ends, h.count, Nat.add_sub_assoc hk, Nat.add_sub_assoc hk]
  exact hpix

theorem idx_pixel (h : SameAhead L M (n + 1) e f) : L e.idx.toNat = M f.idx.toNat := h.back_pixel (Nat.zero_le _)

theorem tailMatches_eq (h : SameAhead L M (n + 1) e f) : tailMatches M f = tailMatches L e := by
  apply Bool.eq_iff_iff.mpr
  rw [tailMatches_iff, tailMatches_iff, h.la, h.count, h.idx_pixel]
  refine and_congr_right fun hla => forall₂_congr fun k hk => ?_
  rw [h.back_pixel (by omega)]

/-- The same rule applies on both lines, and it emits the same packets. -/
theorem encStep_mode_packets (h : SameAhead L M (n + 1) e f) :
    (encStep M f).1.mode = (encStep L e).1.mode ∧ (encStep M f).2 = (encStep L e).2 := by
  have hstart := h.start_pixel (by omega)
  have hidx := h.idx_pixel
  have hcount : f.count.toNat = e.count.toNat := congrArg BitVec.toNat h.count
  rcases encStep_cases L e with ⟨hm, ht, he⟩ | ⟨hm, ht, hc, he⟩ | ⟨hm, ht, hc, he⟩ | ⟨hm, hp, hc, he⟩ |
      ⟨hm, hp, hc, he⟩ | ⟨hm, hp, he⟩
  all_goals have hm' := h.mode.trans hm
  · rw [he, encStep_copy_tail hm' (h.tailMatches_eq.trans ht)]
    exact ⟨rfl, by simp only [stepSwitch, h.count, h.la, h.slice_eq (Nat.sub_le _ e.la.toNat)]⟩
  · rw [he, encStep_copy_full hm' (h.tailMatches_eq.trans ht) (hcount.trans hc), h.slice_eq (Nat.le_of_eq hc.symm)]
    exact ⟨rfl, rfl⟩
  · rw [he, encStep_copy_room hm' (h.tailMatches_eq.trans ht) (hcount ▸ hc)]
    exact ⟨h.mode, rfl⟩
  · rw [hidx, hstart] at hp
    rw [he, encStep_repeated_full hm' hp (hcount.trans hc), hstart]
    exact ⟨rfl, rfl⟩
  · rw [hidx, hstart] at hp
    rw [he, encStep_repeated_room hm' hp (hcount ▸ hc)]
    exact ⟨h.mode, rfl⟩
  · rw [hidx, hstart] at hp
    rw [he, encStep_repeated_other hm' hp, hstart, hcount]
    exact ⟨rfl, rfl⟩

/-- A step leaves the two encoders with the same ahead of them. -/
theorem after_encStep (h : SameAhead L M (n + 1) e f) : SameAhead L M n (encStep L e).1 (encStep M f).1 := by
  obtain ⟨hmode, hpackets⟩ := h.encStep_mode_packets
  have hfits := h.fits
  have hfits' := h.fits'
  have hcount : f.count.toNat = e.count.toNat := congrArg BitVec.toNat h.count
  obtain ⟨hs, hc⟩ := encStep_start_count h.pending (by omega)
  obtain ⟨hs', hc'⟩ := encStep_start_count h.pending' (by omega)
  rw [hpackets] at hs' hc'
  refine ⟨hmode, BitVec.eq_of_toNat_eq (by omega), ?_, (encStep_emitted h.pending (by omega)).1,
    (encStep_emitted h.pending' (by omega)).1, ?_, ?_, fun k hk => ?_⟩
  · exact (encStep_frame M f).2.1.trans (h.la.trans (encStep_frame L e).2.1.symm)
  · rw [encStep_idx (by omega)]
    omega
  · rw [encStep_idx (by omega)]
    omega
  · rw [hs, hs', Nat.add_assoc, Nat.add_assoc]
    exact h.pixels _ (by omega)

/-- What the flush emits is the same on both lines. -/
theorem flushRun_eq (h : SameAhead L M n e f) : flushRun L e = flushRun M f := by
  unfold flushRun
  rw [h.count, h.mode, h.slice_eq (Nat.le_refl _)]
  split
  · next hc => rw [h.start_pixel (Nat.le_add_right_of_le hc)]
  · rfl

theorem runSteps_packets (h : SameAhead L M n e f) : (runSteps L n e).2 = (runSteps M n f).2 := by
  induction n generalizing e f with
  | zero => exact h.flushRun_eq
  | succ n ih => rw [runSteps, runSteps, h.encStep_mode_packets.2, ih h.after_encStep]

end SameAhead

theorem startRun_start_toNat (e : Enc) {s0 n : Nat} (la : BitVec 2) (h : s0 + n ≤ 65535) :
    (startRun e s0 n la).start.toNat = s0 := toNat_ofNat_count (Nat.le_of_add_right_le h)

theorem startRun_idx_toNat (e : Enc) {s0 n : Nat} (la : BitVec 2) (h : s0 + n ≤ 65535) :
    (startRun e s0 n la).idx.toNat = s0 := startRun_start_toNat e la h

/-- Settles O48: two runs over the same pixels start with the same ahead of them, and every step keeps that. -/
theorem runPacketsDependOnTheRunAlone : Obligations.RunPacketsDependOnTheRunAlone := by
  intro L M e f s0 u0 n la _ hs hu hpix
  have hahead : SameAhead L M n (startRun e s0 n la) (startRun f u0 n la) := by
    refine ⟨rfl, rfl, rfl, .startRun e s0 n la, .startRun f u0 n la, ?_, ?_, fun k hk => ?_⟩
    · rw [startRun_idx_toNat e la hs]
      exact hs
    · rw [startRun_idx_toNat f la hu]
      exact hu
    · rw [startRun_start_toNat e la hs, startRun_start_toNat f la hu]
      exact hpix k (Nat.zero_add n ▸ hk)
  exact hahead.runSteps_packets

end Sys2Proof.Machine
end

section
/-! PROOF. No two adjacent REPEATs of a run could be merged, except at the cap (40_rle_encoder_key.md R143 item 4): what is
pending may at every step follow the packet emitted last. -/

namespace Sys2Proof.Machine

/-- `pk` may stand after `prev` in a run, `none` for the start of the run (R143 item 4): a REPEAT after a REPEAT of the
same pixel only if that one is full, and a REPEAT of 1 only there. -/
def MayFollow (prev : Option Packet) : Packet → Prop
  | .copyOf _ => True
  | .repeatOf j p => (∀ k, prev = some (.repeatOf k p) → k = 127) ∧ (j = 1 → prev = some (.repeatOf 127 p))

/-- Every packet of the list may follow the one before it, the first one `prev`. -/
def RepeatsApart (prev : Option Packet) : List Packet → Prop
  | [] => True
  | pk :: rest => MayFollow prev pk ∧ RepeatsApart (some pk) rest

/-- The packet pending may be emitted after `prev`: a REPEAT as it stands, and a COPY also if it becomes a REPEAT of its
first pixel. -/
structure PendingFollows (L : Nat → Pixel) (prev : Option Packet) (e : Enc) : Prop where
  repeated : e.mode = .repeated → MayFollow prev (.repeatOf e.count.toNat (L e.start.toNat))
  copy : e.mode = .copy → ∀ k, prev ≠ some (.repeatOf k (L e.start.toNat))

theorem repeatsApart_append {prev : Option Packet} {ps qs : List Packet} :
    RepeatsApart prev (ps ++ qs) ↔ RepeatsApart prev ps ∧ RepeatsApart (ps.getLast?.or prev) qs := by
  induction ps generalizing prev with
  | nil => exact (iff_of_eq (true_and _)).symm
  | cons p ps ih =>
    have hlast : (p :: ps).getLast?.or prev = ps.getLast?.or (some p) := by
      rw [List.getLast?_cons, Option.some_or, Option.or_some]
    rw [hlast, List.cons_append, RepeatsApart, RepeatsApart, ih, and_assoc]

/-- A REPEAT of at least two pixels may stand anywhere but after a REPEAT of the same pixel. -/
theorem MayFollow.of_ne {prev : Option Packet} {j : Nat} {p : Pixel} (hj : 2 ≤ j)
    (h : ∀ k, prev ≠ some (.repeatOf k p)) :
    MayFollow prev (.repeatOf j p) :=
  ⟨fun k hk => absurd hk (h k), fun h1 => by omega⟩

/-- A longer REPEAT may stand where a shorter one may. -/
theorem MayFollow.longer {prev : Option Packet} {i j : Nat} {p : Pixel} (h : MayFollow prev (.repeatOf i p))
    (hj : 2 ≤ j) :
    MayFollow prev (.repeatOf j p) :=
  ⟨h.1, fun h1 => by omega⟩

/-- After a full REPEAT a REPEAT of 1 of the same pixel may stand (R135). -/
theorem MayFollow.full (p : Pixel) : MayFollow (some (.repeatOf 127 p)) (.repeatOf 1 p) :=
  ⟨fun k hk => by cases hk; rfl, fun _ => rfl⟩

theorem PendingFollows.fresh_copy {L : Nat → Pixel} {prev : Option Packet} {e : Enc}
    (h : ∀ k, prev ≠ some (.repeatOf k (L e.idx.toNat))) : PendingFollows L prev (freshPacket .copy e) :=
  ⟨(nomatch ·), fun _ => h⟩

theorem extendPacket_count {e : Enc} (hc : e.count.toNat ≠ 127) :
    (extendPacket e).count.toNat = e.count.toNat + 1 := by
  have := e.count_le
  simp [extendPacket]
  omega

theorem stepSwitch_count {L : Nat → Pixel} (e : Enc) : (stepSwitch L e).1.count.toNat = e.la.toNat + 1 := by
  have := e.la.isLt
  simp [stepSwitch]
  omega

/-- The pending packet that takes the new pixel may still be emitted where it stands (R134, R135). -/
theorem PendingFollows.extend {L : Nat → Pixel} {prev : Option Packet} {e : Enc} (h : PendingFollows L prev e)
    (hs : Pending L e) (hc : e.count.toNat ≠ 127) : PendingFollows L prev (extendPacket e) := by
  refine ⟨fun hm => ?_, h.copy⟩
  rw [extendPacket_count hc]
  exact (h.repeated hm).longer (Nat.succ_le_succ (hs.nonempty hm))

/-- The switch to REPEAT (R132) comes after the COPY emitted for what stands before the tail; where nothing does, the
REPEAT takes the place and the first pixel of the COPY. -/
theorem PendingFollows.switch {L : Nat → Pixel} {prev : Option Packet} {e : Enc} (h : PendingFollows L prev e)
    (hs : Pending L e) (hm : e.mode = .copy) (ht : tailMatches L e = true) (hla : 1 ≤ e.la.toNat) :
    RepeatsApart prev (stepSwitch L e).2 ∧ PendingFollows L ((stepSwitch L e).2.getLast?.or prev) (stepSwitch L e).1 := by
  have hcount : 2 ≤ (stepSwitch L e).1.count.toNat := by
    rw [stepSwitch_count]
    omega
  by_cases hhead : 1 ≤ e.count.toNat - e.la.toNat
  · have hout : (stepSwitch L e).2 = [.copyOf (slice L e.start.toNat (e.count.toNat - e.la.toNat))] := if_pos hhead
    rw [hout]
    exact ⟨⟨trivial, trivial⟩, fun _ => .of_ne hcount (fun k => by simp), (nomatch ·)⟩
  · have hout : (stepSwitch L e).2 = [] := if_neg hhead
    have hstart : (stepSwitch L e).1.start.toNat = e.start.toNat := by
      have := ((tailMatches_iff L e).mp ht).1
      have := hs.ends
      have := e.idx.isLt
      simp [stepSwitch]
      omega
    rw [hout]
    exact ⟨trivial, fun _ => .of_ne hcount (hstart ▸ h.copy hm), (nomatch ·)⟩

/-- Every step emits what may follow and leaves pending what may follow that. -/
theorem PendingFollows.after_encStep {L : Nat → Pixel} {prev : Option Packet} {e : Enc} (h : PendingFollows L prev e)
    (hs : Pending L e) (hla : 1 ≤ e.la.toNat) :
    RepeatsApart prev (encStep L e).2 ∧ PendingFollows L ((encStep L e).2.getLast?.or prev) (encStep L e).1 := by
  rcases encStep_cases L e with ⟨hm, ht, he⟩ | ⟨hm, ht, hc, he⟩ | ⟨hm, ht, hc, he⟩ | ⟨hm, hp, hc, he⟩ |
      ⟨hm, hp, hc, he⟩ | ⟨hm, hp, he⟩
  all_goals rw [he]
  · exact h.switch hs hm ht hla
  · exact ⟨⟨trivial, trivial⟩, .fresh_copy (fun k => by simp)⟩
  · exact ⟨trivial, h.extend hs hc⟩
  · exact ⟨⟨hc ▸ h.repeated hm, trivial⟩, fun _ => hp ▸ .full _, (nomatch ·)⟩
  · exact ⟨trivial, h.extend hs hc⟩
  · exact ⟨⟨h.repeated hm, trivial⟩, .fresh_copy fun k hk => hp (Packet.repeatOf.inj (Option.some.inj hk)).2.symm⟩

theorem PendingFollows.flushRun {L : Nat → Pixel} {prev : Option Packet} {e : Enc} (h : PendingFollows L prev e) :
    RepeatsApart prev (flushRun L e) := by
  unfold Machine.flushRun
  split
  · cases hm : e.mode with
    | copy => exact ⟨trivial, trivial⟩
    | repeated => exact ⟨h.repeated hm, trivial⟩
  · trivial

theorem PendingFollows.runSteps {L : Nat → Pixel} {prev : Option Packet} {e : Enc} {n : Nat}
    (h : PendingFollows L prev e) (hs : Pending L e) (hla : 1 ≤ e.la.toNat) (hi : e.idx.toNat + n ≤ 65535) :
    RepeatsApart prev (runSteps L n e).2 := by
  induction n generalizing prev e with
  | zero => exact h.flushRun
  | succ n ih =>
    obtain ⟨hnow, hlater⟩ := h.after_encStep hs hla
    refine repeatsApart_append.mpr ⟨hnow, ih hlater (encStep_emitted hs (by omega)).1 ?_ ?_⟩
    · rw [(encStep_frame L e).2.1]
      exact hla
    · rw [encStep_idx (by omega)]
      omega

theorem encodeRun_repeatsApart (L : Nat → Pixel) (e : Enc) {s0 n : Nat} {la : BitVec 2} (hla : 1 ≤ la.toNat)
    (h : s0 + n ≤ 65535) : RepeatsApart none (encodeRun L e s0 n la).2 := by
  have hstart : PendingFollows L none (startRun e s0 n la) := ⟨(nomatch ·), fun _ _ => (nomatch ·)⟩
  exact hstart.runSteps (.startRun e s0 n la) hla (by rwa [startRun_idx_toNat e la h])

/-- Settles O49: each packet of a run may follow the one before it. -/
theorem noTwoRepeatsCouldMerge : Obligations.NoTwoRepeatsCouldMerge := by
  intro L e s0 n la hla hend
  have hapart := encodeRun_repeatsApart L e (la := la) (by rcases hla with rfl | rfl <;> decide) hend
  have hfollow : ∀ pre pk post, (encodeRun L e s0 n la).2 = pre ++ pk :: post → MayFollow pre.getLast? pk := by
    intro pre pk post hout
    rw [hout, repeatsApart_append, Option.or_none] at hapart
    exact hapart.2.1
  refine ⟨fun pre post k j p hout => ?_, fun pre post p hout => ?_⟩
  · have hj := hfollow (pre ++ [.repeatOf k p]) (.repeatOf j p) post (by rw [hout, List.append_assoc]; rfl)
    exact hj.1 k List.getLast?_concat
  · exact List.getLast?_eq_some_iff.mp ((hfollow pre _ post hout).2 rfl)

end Sys2Proof.Machine
end

section
/-! PROOF. The sub-chunks of two lines by number (41_line_differ.md R168), and DIFF over a whole line (R167). -/

namespace Sys2Proof.Machine

/-! ### The sub-chunks by number -/

/-- Where `ends` lists the ends of the runs recorded, sub-chunk number `k` is the next run from `ends k` on, and behind the
last one nothing is changed. -/
theorem ChunksFrom.at_ends {C P : Nat → Pixel} {w a : Nat} {scs : List SubChunk} (h : ChunksFrom C P w a scs)
    {ends : Nat → Nat} (hzero : ends 0 = a)
    (hsucc : ∀ k (hk : k < scs.length), ends (k + 1) = scs[k].start.toNat + scs[k].length.toNat) :
    (∀ k (hk : k < scs.length), IsNextChunk C P w (ends k) scs[k]) ∧
    (∀ i, ends scs.length ≤ i → i < w → C i = P i) := by
  induction scs generalizing a ends with
  | nil => exact ⟨fun k hk => absurd hk (Nat.not_lt_zero k), hzero ▸ h⟩
  | cons sc rest ih =>
    obtain ⟨hsc, hrest⟩ := h
    obtain ⟨hchunks, hafter⟩ := ih hrest (ends := fun k => ends (k + 1)) (hsucc 0 (Nat.zero_lt_succ _))
      (fun k hk => hsucc (k + 1) (Nat.succ_lt_succ hk))
    refine ⟨fun k hk => ?_, hafter⟩
    cases k with
    | zero => exact hzero ▸ hsc
    | succ k => exact hchunks k (Nat.lt_of_succ_lt_succ hk)

/-- Behind a run every sub-chunk takes two pixels or more, one of its gap and one of its own; at the start of the line
(`a = 0`) the first gap may be empty. -/
theorem ChunksFrom.two_mul_length_le {C P : Nat → Pixel} {w a : Nat} {scs : List SubChunk} (h : ChunksFrom C P w a scs)
    (ha : a ≤ w) : a + 2 * scs.length ≤ w + (1 - a) := by
  induction scs generalizing a with
  | nil =>
    rw [List.length_nil]
    omega
  | cons sc rest ih =>
    obtain ⟨hsc, hrest⟩ := h
    have hlater := ih hrest hsc.inside
    have hstart := hsc.start
    have hgap := hsc.gap
    have hnonempty := hsc.nonempty
    rw [List.length_cons]
    omega

/-- Settles O50: each item is a field of the run that the sub-chunk is, or a fact about the whole list of runs. -/
theorem subChunksAreTheMaximalChangedRuns : Obligations.SubChunksAreTheMaximalChangedRuns := by
  rintro C P w out ends hw rfl hzero hsucc
  have hruns := differ_chunks C P hw
  obtain ⟨hchunk, hafter⟩ := hruns.at_ends hzero hsucc
  have hend : ∀ k (hk : k < (differ C P w).2.length), 1 ≤ ends (k + 1) := fun k hk => by
    rw [hsucc k hk]
    exact Nat.le_add_left_of_le (hchunk k hk).nonempty
  refine ⟨fun k hk => (hchunk k hk).start, fun k hk i h1 h2 => (hchunk k hk).changed i h1 (hsucc k hk ▸ h2),
    fun k hk => (hchunk k hk).unchanged, hafter, fun k hk => ⟨fun hpos => (hchunk k hk).gap ?_, (hchunk k hk).nonempty⟩,
    ?_, ?_⟩
  · obtain ⟨j, rfl⟩ := Nat.exists_eq_add_of_le' hpos
    exact hend j (Nat.lt_of_succ_lt hk)
  · simpa using hruns.eq_nil_iff
  · have := hruns.two_mul_length_le (Nat.zero_le w)
    omega

/-! ### The command -/

/-- Settles O40: without a fault and with a width, DIFF is its procedure, which records the differ's run over the line. -/
theorem diffReportsTheSubChunks : Obligations.DiffReportsTheSubChunks := by
  rintro s run hfault hw rfl
  have hexec : exec .diff s = .next (diffLines (s.setOp 2).drawFree) :=
    congrArg Flow.outcome (startCommand_run hfault hw (fun h => absurd h (by decide)) fun u => .go (diffLines u.drawFree))
  rw [hexec, diffLines_drawFree]
  rfl

end Sys2Proof.Machine
end

section
/-! PROOF. Replaying the packets of a delta line (42_rle_encoder_delta.md R188 item 3): the packets of a sub-chunk paint
exactly its run of the current line, and the sub-chunks are all that the two lines differ in. -/

namespace Sys2Proof.Machine

/-! ### Painting LC packets -/

/-- Painting is confined to the columns that the packets cover, skips included. -/
theorem read_paintLine_ne (m : Memory) (base x : Nat) (lps : List LcPacket) {k : Nat}
    (h : k < base + Config.bpp * x ∨ base + Config.bpp * (x + lcExtent lps) ≤ k) :
    (paintLine m base x lps).read k = m.read k := by
  induction lps generalizing m x with
  | nil => rfl
  | cons lp rest ih =>
    simp only [lcExtent, Config.bpp] at h
    rw [paintLine, ih _ _ (by simp only [Config.bpp]; omega)]
    refine read_writePixels_ne _ _ _ ?_
    rw [expand_length]
    simp only [Config.bpp]
    omega

theorem readPixel_paintLine_ne (m : Memory) (base x : Nat) (lps : List LcPacket) {k : Nat}
    (h : k + 2 ≤ base + Config.bpp * x ∨ base + Config.bpp * (x + lcExtent lps) ≤ k) :
    readPixel (paintLine m base x lps) k = readPixel m k :=
  readPixel_congr (read_paintLine_ne m base x lps (by omega)) (read_paintLine_ne m base x lps (by omega))

/-- A pure skip paints nothing (R183). -/
theorem paintLine_pureSkips (m : Memory) (base x q : Nat) :
    paintLine m base x (List.replicate q pureSkip) = m := by
  induction q generalizing x with
  | zero => rfl
  | succ q ih => exact ih _

/-- Packets without skips paint their pixels side by side. -/
theorem paintLine_unskipped (m : Memory) (base x : Nat) (pks : List Packet) :
    paintLine m base x (unskipped pks) = writePixels m (base + Config.bpp * x) (expandAll pks) := by
  induction pks generalizing m x with
  | nil => rfl
  | cons pk pks ih =>
    rw [unskipped_cons, paintLine, ih, expandAll_cons, writePixels_append, expand_length,
      show (0 : Byte).toNat = 0 from rfl, Nat.add_zero, Nat.mul_add, Nat.add_assoc]

/-- A skip moves the packet it is attached to, and with it those behind. -/
theorem paintLine_skip (m : Memory) (base x : Nat) (skip : Byte) (pk : Packet) (rest : List LcPacket) :
    paintLine m base x ({ skip := skip, pk := pk } :: rest) =
      paintLine m base (x + skip.toNat) ({ skip := 0, pk := pk } :: rest) := rfl

/-! ### One sub-chunk -/

/-- The packets of a sub-chunk, replayed from the end `a` of the one before, paint its run of `L` in its place: the pure
skips and the skip that is left add up to the gap (R182, R183). -/
theorem paintLine_encodeSubChunk (m : Memory) (base : Nat) {a : Nat} (L : Nat → Pixel) (e : Enc) {sc : SubChunk}
    (hstart : sc.start.toNat = a + sc.skip.toNat) (hpos : 1 ≤ sc.length.toNat)
    (hend : sc.start.toNat + sc.length.toNat ≤ 65535) :
    paintLine m base a (encodeSubChunk L e sc).2 =
      writePixels m (base + Config.bpp * sc.start.toNat) (slice L sc.start.toNat sc.length.toNat) := by
  obtain ⟨pk, rest, hem, hpackets⟩ := encodeSubChunk_packets L e hpos hend
  obtain ⟨hleft, hsplit⟩ := skipLeft_spec sc
  have hskip : (BitVec.ofNat 8 (skipLeft sc)).toNat = skipLeft sc := Nat.mod_eq_of_lt (by omega)
  have hcol : a + 255 * skipSplits sc.skip.toNat + skipLeft sc = sc.start.toNat := by omega
  rw [hpackets, paintLine_append, paintLine_pureSkips, lcExtent_pureSkips, paintLine_skip, hskip, hcol,
    ← unskipped_cons, paintLine_unskipped, hem.pixels]

/-! ### The line -/

/-- A slice of a line painted in its place reads back column by column. -/
theorem readPixel_writePixels_slice (m : Memory) (base : Nat) (L : Nat → Pixel) {a n x : Nat} (ha : a ≤ x)
    (hx : x < a + n) :
    readPixel (writePixels m (base + Config.bpp * a) (slice L a n)) (base + Config.bpp * x) = some (L x) := by
  obtain ⟨k, rfl⟩ := Nat.exists_eq_add_of_le ha
  rw [Nat.mul_add, ← Nat.add_assoc, readPixel_writePixels _ _ _ k (by rw [slice_length]; omega)]
  simp [slice]

/-- Replayed from column `a` on, where the row holds the previous line, the packets of the sub-chunks from `a` on leave the
current line: a column before the first run or in it is settled by that run and left alone by the later ones, and a column
behind it is left alone by that run. -/
theorem readPixel_paintLine_deltaLine {C P : Nat → Pixel} {w a base : Nat} {scs : List SubChunk} {m : Memory}
    (h : ChunksFrom C P w a scs) (hw : w ≤ 65535) (e : Enc)
    (hm : ∀ x, a ≤ x → x < w → readPixel m (base + Config.bpp * x) = some (P x)) {x : Nat} (ha : a ≤ x) (hx : x < w) :
    readPixel (paintLine m base a (deltaLine C e scs).2) (base + Config.bpp * x) = some (C x) := by
  induction scs generalizing a m e with
  | nil => rw [h x ha hx]; exact hm x ha hx
  | cons sc rest ih =>
    obtain ⟨hsc, hrest⟩ := h
    have hend := Nat.le_trans hsc.inside hw
    have hgap := hsc.start
    have hnext : a + lcExtent (encodeSubChunk C e sc).2 = sc.start.toNat + sc.length.toNat := by
      rw [(encodeSubChunk_encodes C e hsc.nonempty hend).extent, hsc.start, Nat.add_assoc]
    rw [deltaLine, paintLine_append, hnext, paintLine_encodeSubChunk m base C e hsc.start hsc.nonempty hend]
    by_cases hbehind : sc.start.toNat + sc.length.toNat ≤ x
    · refine ih hrest _ (fun i hi hiw => ?_) hbehind
      rw [readPixel_writePixels_ne _ _ _ (by rw [slice_length]; simp only [Config.bpp]; omega)]
      exact hm i (by omega) hiw
    · rw [readPixel_paintLine_ne _ _ _ _ (by simp only [Config.bpp]; omega)]
      by_cases hin : sc.start.toNat ≤ x
      · exact readPixel_writePixels_slice m base C hin (by omega)
      · rw [readPixel_writePixels_ne _ _ _ (by simp only [Config.bpp]; omega), hsc.unchanged x ha (by omega)]
        exact hm x ha hx

/-- Settles O52: the pixels are those of the replay of all sub-chunks from column 0 on, and the bytes outside the row are
outside the extent of the packets. -/
theorem deltaPacketsReplayToTheCurrentLine : Obligations.DeltaPacketsReplayToTheCurrentLine := by
  intro C P e w base m hw hm
  have hextent := (deltaLine_differ_encodes C P C e hw).extent
  refine ⟨fun x hx => ?_, fun k hk => ?_⟩
  · exact readPixel_paintLine_deltaLine (differ_chunks C P hw) hw e (fun i _ hi => hm i hi) (Nat.zero_le x) hx
  · refine read_paintLine_ne m base 0 _ ?_
    simp only [Config.bpp]
    omega

end Sys2Proof.Machine
end

section
/-! PROOF. The items of the BRUN dialect one by one: ROWHDR, B.REPEAT and B.COPY when they complete
(43_rle_decoder_brun.md R201 to R203), and the packets of both dialects when the stream ends inside their payload
(60_exceptions.md R302). -/

namespace Sys2Proof.Machine

/-! ### Items that complete -/

/-- Settles O20: ROWHDR loads two registers, and with no byte left its read has raised the fault before. -/
theorem rowhdrLoadsPacketCount : Obligations.RowhdrLoadsPacketCount := by
  refine ⟨fun s k => rfl, fun s hp hend => ?_⟩
  have hcut : decode s.dec.pos (s.inp.drop s.dec.ip) = .error .headerCut := by
    rw [hp, List.drop_eq_nil_of_le hend]
    rfl
  have hread : readCutHeader s = in8 s fun _ u => .go u := by
    unfold readCutHeader
    rw [hp]
  rw [step_of_cut (by simp [hp]) hcut, hread, in8_eq_none hend]
  rfl

/-- Settles O24: B.REPEAT is the body of a REPEAT. -/
theorem brunRepeatPaintsTheRun : Obligations.BrunRepeatPaintsTheRun := fun _ _ _ _ hy hx hs =>
  congrArg Flow.outcome (repeatBody_eq hy hx hs)

/-- Settles O25: B.COPY is the body of a COPY. -/
theorem brunCopyPaintsThePixels : Obligations.BrunCopyPaintsThePixels := fun _ _ _ hy hx hs =>
  congrArg Flow.outcome (copyBody_eq hy hx hs)

/-! ### Payloads cut short -/

/-- With less than a pixel left InPix faults, and X.ip is at the end of IN (20_memory.md R67). -/
theorem inPix_cut {s : State} {tail : List Byte} (ht : tail.length ≤ 1) (hs : s.inp.drop s.dec.ip = tail)
    (k : Pixel → State → Flow) :
    inPix s k = raiseDecode .truncatedStream (s.setIp (s.dec.ip + tail.length)) := by
  rw [inPix_eq_in8Twice]
  match tail, ht with
  | [], _ => exact in8Twice_eq_none (List.drop_eq_nil_iff.mp hs) _
  | [_], _ => exact in8Twice_of_drop_singleton hs _

/-- A REPEAT without its pixel writes nothing (60_exceptions.md R302). -/
theorem repeatBody_cut {n : Nat} {s : State} {tail : List Byte} (hx : s.dec.x.toNat + n ≤ s.cfg.w.toNat)
    (ht : tail.length ≤ 1) (hs : s.inp.drop s.dec.ip = tail) :
    repeatBody n s = raiseDecode .truncatedStream (s.setIp (s.dec.ip + tail.length)) := by
  have ho : ¬ overrunsRow n s = true := by rw [overrunsRow_iff]; omega
  rw [repeatBody, if_neg ho, inPix_cut ht hs]

/-- The whole pixels in front of the cut are read and painted one by one (43_rle_decoder_brun.md R203). -/
theorem placeCopy_cut {n col : Nat} {s : State} {ps : List Pixel} {tail : List Byte}
    (hy : s.dec.y.toNat < s.cfg.h.toNat) (hn : ps.length < n) (ht : tail.length ≤ 1)
    (hs : s.inp.drop s.dec.ip = pixelBytes ps ++ tail) :
    placeCopy n col s = raiseDecode .truncatedStream ((s.setIp (s.dec.ip + 2 * ps.length + tail.length)).setFb
      (writePixels s.fb (fbAddr s.cfg.w.toNat (s.cfg.h.toNat - 1 - s.dec.y.toNat) col) ps)) := by
  obtain ⟨n, rfl⟩ := Nat.exists_eq_add_of_le' (Nat.one_le_of_lt hn)
  induction ps generalizing n col s with
  | nil => exact inPix_cut ht hs _
  | cons p ps ih =>
    obtain ⟨n, rfl⟩ := Nat.exists_eq_add_of_le' (Nat.one_le_of_lt (Nat.lt_of_succ_lt_succ hn))
    have hs' : s.inp.drop s.dec.ip = p.bytes ++ (pixelBytes ps ++ tail) := by
      simpa [pixelBytes] using hs
    rw [placeCopy, inPix_of_drop hs', placePixel_eq (s := s.setIp (s.dec.ip + 2)) hy, Flow.andThen_go, ih]
    · rw [State.fbWrite]
      simp [writePixels, fbAddr_succ, State.setFb, State.setIp, Nat.mul_add, Nat.add_assoc, Nat.add_comm 2]
    · exact hy
    · exact drop_add_of_drop hs'
    · exact Nat.lt_of_succ_lt_succ hn

/-- X.x keeps its value from before a COPY that is cut short. -/
theorem copyBody_cut {n : Nat} {s : State} {ps : List Pixel} {tail : List Byte}
    (hy : s.dec.y.toNat < s.cfg.h.toNat) (hx : s.dec.x.toNat + n ≤ s.cfg.w.toNat) (hn : ps.length < n)
    (ht : tail.length ≤ 1) (hs : s.inp.drop s.dec.ip = pixelBytes ps ++ tail) :
    copyBody n s = raiseDecode .truncatedStream ((s.setIp (s.dec.ip + 2 * ps.length + tail.length)).setFb
      (writePixels s.fb (fbAddr s.cfg.w.toNat (s.cfg.h.toNat - 1 - s.dec.y.toNat) s.dec.x.toNat) ps)) := by
  have ho : ¬ overrunsRow n s = true := by rw [overrunsRow_iff]; omega
  rw [copyBody, if_neg ho, placeCopy_cut hy hn ht hs]
  rfl

/-- A skip that stays in the row does not wrap X.x. -/
theorem addSkip_x {skip : Byte} {s : State} (h : s.dec.x.toNat + skip.toNat ≤ s.cfg.w.toNat) :
    (addSkip skip s).dec.x.toNat = s.dec.x.toNat + skip.toNat :=
  Nat.mod_eq_of_lt (by have := s.cfg.w.isLt; omega)

/-- Settles O30: the two bodies cut short, in the LC dialect after the skip. -/
theorem cutPayloadKeepsWholePixels : Obligations.CutPayloadKeepsWholePixels := by
  intro s n ps tail hy ht hs
  refine ⟨fun hn hx => ?_, fun skip hn hx => ?_, fun hps hx => ?_, fun skip hps hx => ?_⟩
  · exact congrArg Flow.outcome (copyBody_cut hy hx hn ht hs)
  · have hskip := addSkip_x (skip := skip) (s := s) (by omega)
    have hbody := copyBody_cut (s := addSkip skip s) hy (by rw [hskip]; exact hx) hn ht hs
    rw [hskip] at hbody
    exact congrArg Flow.outcome hbody
  · subst hps
    exact congrArg Flow.outcome (repeatBody_cut hx ht hs)
  · subst hps
    have hskip := addSkip_x (skip := skip) (s := s) (by omega)
    exact congrArg Flow.outcome (repeatBody_cut (s := addSkip skip s) (by rw [hskip]; exact hx) ht hs)

end Sys2Proof.Machine
end

section
/-! PROOF. The BRUN decoder on legal bytes, from the packet up to the frame: what each procedure reads and paints when the
stream holds what ENC_KEY's serialiser writes (43_rle_decoder_brun.md R202 to R206). -/

namespace Sys2Proof.Machine

/-! ### Packets -/

theorem serBrun_repeat (n : Nat) (p : Pixel) : serBrun (.repeatOf n p) = BitVec.ofNat 8 n :: p.bytes := rfl

theorem serBrun_copy (ps : List Pixel) : serBrun (.copyOf ps) = BitVec.ofNat 8 (256 - ps.length) :: pixelBytes ps := rfl

/-- The header of a BRUN packet: the count picks the body (R204). -/
theorem brunPacket_of_drop {s : State} {b : Byte} {rest : List Byte} (h : s.inp.drop s.dec.ip = b :: rest) :
    brunPacket s = if 0 ≤ sext8 b then repeatBody (sext8 b).toNat (s.setIp (s.dec.ip + 1))
      else copyBody (-sext8 b).toNat (s.setIp (s.dec.ip + 1)) := by
  rw [brunPacket, in8_of_drop h]
  rfl

/-- A legal packet that fits its row is painted from X.x on (R202, R203). -/
theorem brunPacket_eq {s : State} {pk : Packet} {rest : List Byte} (hlegal : pk.brunLegal = true)
    (hy : s.dec.y.toNat < s.cfg.h.toNat) (hx : s.dec.x.toNat + pk.npix ≤ s.cfg.w.toNat)
    (hs : s.inp.drop s.dec.ip = serBrun pk ++ rest) :
    brunPacket s = .go (s.painted
      (writePixels s.fb (fbAddr s.cfg.w.toNat (s.cfg.h.toNat - 1 - s.dec.y.toNat) s.dec.x.toNat) pk.expand)
      (serBrun pk).length (s.dec.x.toNat + pk.npix)) := by
  cases pk with
  | repeatOf n p =>
    have hn : n ≤ 127 := by simpa [Packet.brunLegal] using hlegal
    rw [serBrun_repeat] at hs
    have hbody := repeatBody_eq (n := n) (p := p) (rest := rest) (s := s.setIp (s.dec.ip + 1)) hy hx
      (drop_succ_of_drop hs)
    rw [brunPacket_of_drop hs, sext8_of_le hn, if_pos (by omega), Int.toNat_natCast, hbody]
    rfl
  | copyOf ps =>
    have hn : 1 ≤ ps.length ∧ ps.length ≤ 128 := by simpa [Packet.brunLegal] using hlegal
    rw [serBrun_copy] at hs
    have hbody := copyBody_eq (ps := ps) (rest := rest) (s := s.setIp (s.dec.ip + 1)) hy hx (drop_succ_of_drop hs)
    have hbytes : (serBrun (.copyOf ps)).length = 1 + 2 * ps.length := by
      rw [serBrun_copy, List.length_cons, pixelBytes_length, Nat.add_comm]
    rw [brunPacket_of_drop hs, sext8_neg hn.1 hn.2, if_neg (by omega), Int.neg_neg, Int.toNat_natCast, hbody, hbytes,
      State.setIp_dec_ip, Nat.add_assoc s.dec.ip]
    rfl

/-- The packets of a row from column X.x on, side by side (R204). -/
theorem brunPackets_eq {pks : List Packet} {s : State} {rest : List Byte} (hlegal : ∀ pk ∈ pks, pk.brunLegal = true)
    (hnpk : s.dec.npk.toNat = pks.length) (hy : s.dec.y.toNat < s.cfg.h.toNat)
    (hx : s.dec.x.toNat + (expandAll pks).length ≤ s.cfg.w.toNat)
    (hs : s.inp.drop s.dec.ip = pks.flatMap serBrun ++ rest) :
    brunPackets pks.length s = .go ((s.painted
      (writePixels s.fb (fbAddr s.cfg.w.toNat (s.cfg.h.toNat - 1 - s.dec.y.toNat) s.dec.x.toNat) (expandAll pks))
      (pks.flatMap serBrun).length (s.dec.x.toNat + (expandAll pks).length)).setNpk 0) := by
  induction pks generalizing s with
  | nil =>
    have h0 : s.dec.npk = BitVec.ofNat 16 0 := BitVec.eq_of_toNat_eq hnpk
    have hself : (s.painted s.fb 0 s.dec.x.toNat).setNpk 0 = s := by
      rw [State.painted_self, State.setNpk, ← h0]
    exact congrArg Flow.go hself.symm
  | cons pk pks ih =>
    have hw := s.cfg.w.isLt
    rw [expandAll_cons, List.length_append, expand_length] at hx
    rw [List.flatMap_cons, List.append_assoc] at hs
    have hx17 : (BitVec.ofNat 17 (s.dec.x.toNat + pk.npix)).toNat = s.dec.x.toNat + pk.npix :=
      Nat.mod_eq_of_lt (by omega)
    have hcol (r : Nat) : fbAddr s.cfg.w.toNat r s.dec.x.toNat + Config.bpp * pk.npix =
        fbAddr s.cfg.w.toNat r (s.dec.x.toNat + pk.npix) := by
      rw [← fbAddr_col, ← fbAddr_col _ _ (_ + _), Nat.mul_add, Nat.add_assoc]
    rw [List.length_cons, brunPackets, brunPacket_eq (hlegal pk (.head _)) hy (by omega) hs, Flow.andThen_go, ih]
    · rw [painted_setNpk_painted]
      simp only [State.setNpk_cfg, State.setNpk_fb, State.setNpk_dec_x, State.setNpk_dec_y, State.painted_fb,
        State.painted_cfg, State.painted_x, State.painted_y, hx17, expandAll_cons, writePixels_append, expand_length, hcol,
        List.flatMap_cons, List.length_append, Nat.add_assoc]
    · exact fun p hp => hlegal p (.tail _ hp)
    · have := s.dec.npk.isLt
      rw [List.length_cons] at hnpk
      simp only [State.setNpk_dec_npk, State.painted_npk, BitVec.toNat_ofNat]
      omega
    · exact hy
    · simp only [State.setNpk_dec_x, State.painted_x, State.setNpk_cfg, State.painted_cfg, hx17]
      omega
    · exact drop_add_of_drop hs

/-! ### Rows -/

/-- Where a row stands after its ROWHDR of `k` packets (R201, R204). -/
def State.rowStarted (s : State) (y k : Nat) : State := (((s.setY y).setIp (s.dec.ip + 1)).setNpk k).setX 0

theorem rowStarted_y {y : Nat} {s : State} (hy : y < s.cfg.h.toNat) (k : Nat) : (s.rowStarted y k).dec.y.toNat = y :=
  Nat.mod_eq_of_lt (by have := s.cfg.h.isLt; omega)

theorem rowStarted_npk (s : State) (y : Nat) {k : Nat} (hk : k ≤ 255) : (s.rowStarted y k).dec.npk.toNat = k :=
  toNat_ofNat_count (by omega)

theorem rowStarted_lineDone (s : State) (m : Memory) (y k n x : Nat) :
    ((s.rowStarted y k).painted m n x).setNpk 0 = s.lineDone m (n + 1) x y := by
  simp [State.rowStarted, State.lineDone, State.painted, State.setNpk, State.setX, State.setIp, State.setFb, State.setY,
    Nat.add_assoc, Nat.add_comm 1]

/-- A row record whose row is in the frame (R204). -/
theorem brunRow_eq {y : Nat} {s : State} {pks : List Packet} {rest : List Byte} (hy : y < s.cfg.h.toNat)
    (hrow : legalRow s.cfg.w.toNat pks) (hs : s.inp.drop s.dec.ip = brunRecord pks ++ rest) :
    brunRow y s = .go (s.lineDone
      (writePixels s.fb (fbAddr s.cfg.w.toNat (s.cfg.h.toNat - 1 - y) 0) (expandAll pks))
      (brunRecord pks).length (expandAll pks).length y) := by
  obtain ⟨hlen, hlegal, hx⟩ := hrow
  rw [brunRecord] at hs ⊢
  have hk : (BitVec.ofNat 8 pks.length).toNat = pks.length := Nat.mod_eq_of_lt (Nat.lt_succ_of_le hlen)
  have hyu := rowStarted_y hy pks.length
  have hnpk := rowStarted_npk s y hlen
  have hstart : brunRow y s = brunPackets pks.length (s.rowStarted y pks.length) := by
    rw [brunRow_in_frame (hyu.trans_lt hy), in8_of_drop (s := s.setY y) hs, rowhdrProc, Flow.andThen_go, hk]
    exact congrArg (brunPackets · (s.rowStarted y pks.length)) hnpk
  have hx0 : (s.rowStarted y pks.length).dec.x.toNat = 0 := rfl
  have hpackets := brunPackets_eq (rest := rest) hlegal hnpk (hyu.trans_lt hy)
    (by rw [hx0, Nat.zero_add]; exact hx) (drop_succ_of_drop hs)
  rw [hstart, hpackets, rowStarted_lineDone, hyu, hx0, Nat.zero_add]
  rfl

/-- Of two lines, one after the other, the second says what FB holds and where X.x and X.y stand. -/
theorem lineDone_lineDone (s : State) (m m' : Memory) (n n' x x' y y' : Nat) :
    (s.lineDone m n x y).lineDone m' n' x' y' = s.lineDone m' (n + n') x' y' := by
  simp [State.lineDone, State.painted, State.setNpk, State.setX, State.setIp, State.setFb, State.setY, Nat.add_assoc]

@[simp] theorem lineDone_cfg (s : State) (m : Memory) (n x y : Nat) : (s.lineDone m n x y).cfg = s.cfg := rfl
@[simp] theorem lineDone_fb (s : State) (m : Memory) (n x y : Nat) : (s.lineDone m n x y).fb = m := rfl

/-- The rows of a frame from file-order row `y` on, of which there is at least one (R206). -/
theorem brunRows_eq {pks : List Packet} {rows : List (List Packet)} {y : Nat} {s : State} {rest : List Byte}
    (hy : y + rows.length < s.cfg.h.toNat) (hlegal : ∀ row ∈ pks :: rows, legalRow s.cfg.w.toNat row)
    (hs : s.inp.drop s.dec.ip = (pks :: rows).flatMap brunRecord ++ rest) :
    brunRows (rows.length + 1) y s = .go (s.lineDone
      (paintRows s.cfg.w.toNat s.cfg.h.toNat s.fb y (pks :: rows)) ((pks :: rows).flatMap brunRecord).length
      (expandAll ((pks :: rows).getLast?.getD [])).length (y + rows.length)) := by
  induction rows generalizing pks y s with
  | nil =>
    rw [List.flatMap_singleton] at hs ⊢
    rw [List.length_nil, brunRows, brunRow_eq (y := y) hy (hlegal pks (.head _)) hs]
    rfl
  | cons next rows ih =>
    rw [List.length_cons] at hy
    rw [List.flatMap_cons, List.append_assoc] at hs
    rw [List.length_cons, brunRows, brunRow_eq (by omega) (hlegal pks (.head _)) hs, Flow.andThen_go,
      ih (pks := next)]
    · rw [lineDone_lineDone, lineDone_cfg, lineDone_fb, List.flatMap_cons (x := pks), List.length_append,
        List.getLast?_cons_cons, Nat.add_right_comm y 1 rows.length]
      rfl
    · exact Nat.add_right_comm y 1 rows.length ▸ hy
    · exact fun row hrow => hlegal row (.tail _ hrow)
    · exact drop_add_of_drop hs

/-! ### The commands -/

/-- Settles O42: the command is one row record in the row CMD.ARG. -/
theorem decBrunRowPaintsEveryLegalRow : Obligations.DecBrunRowPaintsEveryLegalRow := by
  intro s pks rest hfault harg hw hrow hs
  have hh : s.cfg.h ≠ 0 := by
    rintro h0
    simp [h0] at harg
  have hexec : exec .decBrunRow s = (brunRow s.cmd.arg.toNat (startLine false (s.setOp 4))).outcome :=
    congrArg Flow.outcome (startCommand_run hfault hw (fun _ => hh) _)
  rw [hexec, brunRow_eq (s := startLine false (s.setOp 4)) harg hrow hs]
  rfl

/-- Settles O43: the command is the row records of all rows, from file-order row 0 on. -/
theorem decBrunFramePaintsEveryLegalFrame : Obligations.DecBrunFramePaintsEveryLegalFrame := by
  intro s rows rest hfault hw hh hlen hlegal hs
  have hexec : exec .decBrunFrame s = (brunRows s.cfg.h.toNat 0 (startFrame false (s.setOp 5))).outcome :=
    congrArg Flow.outcome (startCommand_run hfault hw (fun _ => hh) _)
  cases rows with
  | nil => exact absurd (BitVec.eq_of_toNat_eq hlen.symm) hh
  | cons pks rows =>
    rw [List.length_cons] at hlen
    have hrows := brunRows_eq (y := 0) (s := startFrame false (s.setOp 5)) (rest := rest)
      (show 0 + rows.length < s.cfg.h.toNat by omega) hlegal hs
    rw [hexec, ← hlen, hrows, hlen, Nat.zero_add, show rows.length = s.cfg.h.toNat - 1 by omega]
    rfl

end Sys2Proof.Machine
end

section
/-! PROOF. The round trips of the BRUN dialect (43_rle_decoder_brun.md R207): what ENC_KEY emits for a line is a legal row
record of exactly that line, so DEC_BRUN_ROW and DEC_BRUN_FRAME give it back. -/

namespace Sys2Proof.Machine

/-! ### The record of a line -/

theorem brunLegal_of_npix {pk : Packet} (h1 : 1 ≤ pk.npix) (h127 : pk.npix ≤ 127) : pk.brunLegal = true := by
  cases pk with
  | repeatOf n p => exact decide_eq_true h127
  | copyOf ps =>
    simp only [Packet.npix] at h1 h127
    simp only [Packet.brunLegal, Bool.and_eq_true, decide_eq_true_eq]
    omega

/-- The packets of a whole line are legal for a row of its width, if their number fits the u8 (40_rle_encoder_key.md
R143). -/
theorem Emitted.legalRow {L : Nat → Pixel} {w : Nat} {pks : List Packet} (h : Emitted L 0 w pks)
    (hlen : pks.length ≤ 255) : legalRow w pks :=
  ⟨hlen, fun pk hpk => brunLegal_of_npix (h.bounds pk hpk).1 (h.bounds pk hpk).2, Nat.le_of_eq h.length⟩

/-- Painted over a row, the packets of a line are the line. -/
theorem Emitted.readPixel {L : Nat → Pixel} {w : Nat} {pks : List Packet} (h : Emitted L 0 w pks) (m : Memory) (r : Nat)
    {x : Nat} (hx : x < w) :
    readPixel (writePixels m (fbAddr w r 0) (expandAll pks)) (fbAddr w r x) = some (L x) := by
  have := readPixel_writePixels_slice m (fbAddr w r 0) L (a := 0) (n := w) (Nat.zero_le x) (by omega)
  rwa [fbAddr_col, fbAddr_col, ← h.pixels] at this

/-- ENC_KEY that raised nothing has appended the row record of its packets, which fit the u8 (R141). -/
theorem encKey_appends_record {s t : State} (hfault : s.status.fault = 0) (hw : s.cfg.w ≠ 0)
    (h : exec .encKey s = .next t) (ht : t.status.fault = 0) :
    (keyRun s).2.length ≤ 255 ∧ t.out = s.out ++ brunRecord (keyRun s).2 := by
  obtain ⟨hfits, hover⟩ := encKeyEncodesTheLine s (keyRun s) hfault hw rfl
  by_cases hlen : (keyRun s).2.length ≤ 255
  · rw [hfits hlen] at h
    cases h
    exact ⟨hlen, rfl⟩
  · rw [hover (Nat.lt_of_not_le hlen)] at h
    cases h
    cases ht

/-- Settles O53: the record is a legal row, its pixels are the line, and painting leaves the bytes outside the row alone. -/
theorem keyRowRoundTrip : Obligations.KeyRowRoundTrip := by
  intro s t d rest hfault hw hexec ht hdfault hdw harg hs
  obtain ⟨hlen, hout⟩ := encKey_appends_record hfault hw hexec ht
  have hwlt := s.cfg.w.isLt
  have hem : Emitted s.drawFree.lcurPixel 0 s.cfg.w.toNat (keyRun s).2 := encodeRun_emitted _ _ _ (by omega)
  rw [hout, List.drop_left] at hs
  have hrow := decBrunRowPaintsEveryLegalRow d (keyRun s).2 rest hdfault harg (hdw ▸ hw) (hdw ▸ hem.legalRow hlen) hs
  refine ⟨_, hrow, hdfault, fun x hx => ?_, fun a ha => ?_, ?_, ?_⟩
  · rw [State.fbPixel, hdw]
    exact hem.readPixel d.fb _ hx
  · rw [hdw]
    refine read_writePixels_ne d.fb _ _ ?_
    rw [hem.length, fbAddr_eq]
    simp only [Config.bpp]
    omega
  · rw [hout, List.length_append]
    dsimp only
    omega
  · rw [hem.length]
    exact Nat.mod_eq_of_lt (by omega)

/-! ### The records of a frame -/

/-- The packets of `n` rows of a frame, bottom row first: the next one is file-order row `y`. -/
def keyRowsFrom (w h : Nat) (F : Nat → Nat → Pixel) (n y : Nat) : List (List Packet) :=
  match n with
  | 0 => []
  | n + 1 => keyPackets (F (h - 1 - y)) w :: keyRowsFrom w h F n (y + 1)

theorem keyPayloadFrom_eq (w h : Nat) (F : Nat → Nat → Pixel) (n y : Nat) :
    keyPayloadFrom w h F n y = (keyRowsFrom w h F n y).flatMap brunRecord := by
  induction n generalizing y with
  | zero => rfl
  | succ n ih => rw [keyPayloadFrom, ih, keyRowsFrom, List.flatMap_cons]

theorem keyRowsFrom_length (w h : Nat) (F : Nat → Nat → Pixel) (n y : Nat) : (keyRowsFrom w h F n y).length = n := by
  induction n generalizing y with
  | zero => rfl
  | succ n ih => rw [keyRowsFrom, List.length_cons, ih]

theorem keyPackets_emitted (L : Nat → Pixel) {w : Nat} (hw : w ≤ 65535) : Emitted L 0 w (keyPackets L w) :=
  encodeRun_emitted L _ _ (by omega)

theorem keyRowsFrom_legal {w h : Nat} {F : Nat → Nat → Pixel} (hw : w ≤ 65535)
    (hF : ∀ r, r < h → (keyPackets (F r) w).length ≤ 255) {n y : Nat} (hn : y + n ≤ h) :
    ∀ row ∈ keyRowsFrom w h F n y, legalRow w row := by
  induction n generalizing y with
  | zero => exact fun _ hrow => nomatch hrow
  | succ n ih =>
    rw [keyRowsFrom, List.forall_mem_cons]
    exact ⟨(keyPackets_emitted _ hw).legalRow (hF _ (by omega)), ih (by omega)⟩

/-- Rows painted bottom-up up to the top row hold the frame; the rows below them are as before. -/
theorem readPixel_paintRows_keyRows {w h : Nat} (hw : w ≤ 65535) (F : Nat → Nat → Pixel) (m : Memory) {n y : Nat}
    (hn : y + n = h) {r x : Nat} (hr : r < h) (hx : x < w) :
    readPixel (paintRows w h m y (keyRowsFrom w h F n y)) (fbAddr w r x) =
      if r + y < h then some (F r x) else readPixel m (fbAddr w r x) := by
  induction n generalizing m y with
  | zero => rw [keyRowsFrom, paintRows, if_neg (by omega)]
  | succ n ih =>
    have hem := keyPackets_emitted (F (h - 1 - y)) hw
    rw [keyRowsFrom, paintRows, ih _ (by omega)]
    by_cases hrow : r = h - 1 - y
    · subst hrow
      rw [if_neg (by omega), if_pos (by omega), hem.readPixel m _ hx]
    · have hother : readPixel (writePixels m (fbAddr w (h - 1 - y) 0) (expandAll (keyPackets (F (h - 1 - y)) w)))
          (fbAddr w r x) = readPixel m (fbAddr w r x) :=
        readPixel_writePixels_ne m _ _
          (fbAddr_disjoint (by rw [hem.length, Nat.zero_add]) hx (.inl hrow))
      rw [hother]
      exact if_congr (by omega) rfl rfl

/-- Settles O55: the payload is one legal record for each row, painted from the bottom row to the top. -/
theorem keyFrameRoundTrip : Obligations.KeyFrameRoundTrip := by
  intro d F rest hfault hw hh hF hs
  have hwlt := d.cfg.w.isLt
  rw [keyPayloadFrom_eq] at hs ⊢
  have hframe := decBrunFramePaintsEveryLegalFrame d _ rest hfault hw hh (keyRowsFrom_length _ _ _ _ _)
    (keyRowsFrom_legal (by omega) hF (Nat.le_of_eq (Nat.zero_add _))) hs
  refine ⟨_, hframe, hfault, fun r x hr hx => ?_, rfl⟩
  have hpixel := readPixel_paintRows_keyRows (by omega) F d.fb (Nat.zero_add d.cfg.h.toNat) hr hx
  rwa [Nat.add_zero, if_pos hr] at hpixel

end Sys2Proof.Machine
end

section
/-! PROOF. The soundness of a decode in progress (43_rle_decoder_brun.md R204, 44_rle_decoder_lc.md R226, R228, R229) and
the legality of the fault code (60_exceptions.md R301), at the start of a decode and over every step. -/

namespace Sys2Proof.Machine

/-! ### What every instruction records, and where it leaves the decoder -/

/-- `t` records the fault of `s` or one of R301, and stands where `s` stood or between commands. -/
def Settled (s t : State) : Prop :=
  (t.status.fault = s.status.fault ∨ ∃ f : FaultName, t.status.fault = f.code) ∧
    (t.dec.pos = s.dec.pos ∨ t.dec.pos = .command)

theorem Settled.refl (s : State) : Settled s s := ⟨.inl rfl, .inl rfl⟩

theorem Settled.raise (s t : State) (decoding : Bool) (f : FaultName) : Settled s (raise decoding f t) :=
  ⟨.inr ⟨f, rfl⟩, .inr rfl⟩

theorem Decodes.settled {s t : State} (h : Decodes s t) : Settled s t := ⟨.inl (congrArg _ h.status), .inl h.pos⟩

theorem Raised.settled {F : FaultName → Prop} {s t : State} (h : Raised F s t) : Settled s t := by
  obtain ⟨u, f, -, -, rfl⟩ := h
  exact .raise s u true f

theorem FaultName.code_legal (f : FaultName) : f.code.toNat ≤ 5 := by
  cases f <;> decide

theorem Settled.faultLegal {s t : State} (h : Settled s t) (hs : s.faultLegal) : t.faultLegal := by
  rcases h.1 with hf | ⟨f, hf⟩
  · rwa [State.faultLegal, hf]
  · rw [State.faultLegal, hf]
    exact f.code_legal

theorem Settled.command {s t : State} (h : Settled s t) (hp : s.dec.pos = .command) : t.dec.pos = .command :=
  h.2.elim (·.trans hp) id

theorem decodes_settled {F : FaultName → Prop} {G : State → Prop} {S : Prop} {s : State} {f : Flow}
    (h : f.Sat G (Raised F s) S) (hG : ∀ t, G t → Decodes s t) : f.Sat (Settled s) (Settled s) True :=
  h.mono (fun t ht => (hG t ht).settled) (fun _ ht => ht.settled) fun _ => trivial

/-- A stream item moves what a decode moves, or ends the command with a fault of a line. -/
theorem itemProc_sat (i : Instr) (s : State) : (itemProc i s).Sat (Decodes s) (Raised LineFault s) True := by
  have packet {n : Nat} {S : Prop} {u : State} {f : Flow} (h : f.Sat (PacketDone n u) (Raised PacketFault u) S)
      (hu : Decodes s u) : f.Sat (Decodes s) (Raised LineFault s) True :=
    h.mono (fun _ ht => hu.trans ht.toDecodes) (fun _ ht => (ht.of_decodes hu).mono fun _ hf => hf.line) fun _ => trivial
  cases i with
  | rowhdr k => exact (Decodes.setNpk s k.toNat).trans (.setX _ 0)
  | lines m => exact (Decodes.setLines s m.toNat).trans (.setY _ 0)
  | lskip rows => exact Decodes.setY s _
  | pkts k =>
    simp only [itemProc, pktsProc]
    split
    · exact ⟨s, _, .refl s, .inr (.inr rfl), rfl⟩
    · exact (Decodes.setX s 0).trans (.setNpk _ k.toNat)
  | bRepeat n => exact packet (repeatBody_sat n s) (.refl s)
  | bCopy n => exact packet (copyBody_sat n s) (.refl s)
  | lCopy skip n => exact packet (copyBody_sat n (addSkip skip s)) (.setX s _)
  | lRepeat skip n => exact packet (repeatBody_sat n (addSkip skip s)) (.setX s _)
  | nop | encKey | diff | encDelta | decBrunRow | decBrunFrame | decLcLine | decLcFrame => exact .refl s

theorem itemProc_settled (i : Instr) (s : State) : (itemProc i s).Sat (Settled s) (Settled s) True :=
  decodes_settled (itemProc_sat i s) fun _ h => h

theorem decodeProc_settled (i : Instr) (s : State) : (decodeProc i s).Sat (Settled s) (Settled s) True := by
  cases i with
  | decBrunRow => exact decodes_settled (s := startLine false s) (brunRow_sat _ _) fun _ h => h
  | decBrunFrame =>
    exact decodes_settled (s := startFrame false s) (brunRows_sat _ 0 (Nat.le_of_eq (Nat.zero_add _))) fun _ h => h
  | decLcLine => exact decodes_settled (s := startLine true s) (pktsLine_sat _) fun _ h => h
  | decLcFrame => exact decodes_settled (s := startFrame true s) (lcFrame_sat _) fun _ h => h
  | nop | encKey | diff | encDelta => exact .refl s
  | rowhdr _ | bRepeat _ | bCopy _ | lines _ | lskip _ | pkts _ | lCopy _ _ | lRepeat _ _ => exact .refl s

theorem encKeyProc_settled (s : State) : (encKeyProc s).Sat (Settled s) (Settled s) True := by
  rw [encKeyProc_eq]
  split
  · exact .raise s _ false .packetCountOverflow
  · exact .refl s

theorem encDeltaProc_settled (s : State) : (encDeltaProc s).Sat (Settled s) (Settled s) True := by
  rw [encDeltaProc_eq rfl rfl]
  split
  · exact .refl s
  · split
    · exact .raise s _ false .packetCountOverflow
    · exact .refl s

theorem startCommand_settled {body : State → Flow} (h : ∀ s, (body s).Sat (Settled s) (Settled s) True)
    (code : BitVec 3) (s : State) : (startCommand code body s).Sat (Settled s) (Settled s) True := by
  rcases startCommand_cases code body s with ⟨-, hs⟩ | ⟨-, -, hs⟩ | ⟨-, -, -, hs⟩
  · rw [hs]
    exact .refl s
  · rw [hs]
    exact .raise s _ _ .badConfig
  · rw [hs]
    exact h (s.setOp code)

theorem execFlow_item {i : Instr} (hi : commandCode i = none) (s : State) : execFlow i s = itemProc i s := by
  cases i with
  | rowhdr _ | bRepeat _ | bCopy _ | lines _ | lskip _ | pkts _ | lCopy _ _ | lRepeat _ _ => rfl
  | nop | encKey | diff | encDelta | decBrunRow | decBrunFrame | decLcLine | decLcFrame => cases hi

theorem execFlow_settled (i : Instr) (s : State) : (execFlow i s).Sat (Settled s) (Settled s) True := by
  cases i with
  | nop => exact .refl s
  | encKey => exact startCommand_settled encKeyProc_settled 1 s
  | diff => exact startCommand_settled (body := fun u => .go (diffLines u.drawFree)) .refl 2 s
  | encDelta => exact startCommand_settled encDeltaProc_settled 3 s
  | decBrunRow => exact startCommand_settled (decodeProc_settled .decBrunRow) 4 s
  | decBrunFrame => exact startCommand_settled (decodeProc_settled .decBrunFrame) 5 s
  | decLcLine => exact startCommand_settled (decodeProc_settled .decLcLine) 6 s
  | decLcFrame => exact startCommand_settled (decodeProc_settled .decLcFrame) 7 s
  | rowhdr _ | bRepeat _ | bCopy _ | lines _ | lskip _ | pkts _ | lCopy _ _ | lRepeat _ _ =>
    rw [execFlow_item rfl]
    exact itemProc_settled _ s

theorem exec_settled {i : Instr} {s t : State} (h : exec i s = .next t) : Settled s t :=
  ((execFlow_settled i s).next (exec_eq_execFlow i s ▸ h)).elim id id

/-- Between commands a host access leaves the block between commands, with a legal fault code (45_host_commands.md R256). -/
theorem hostAccess_settled {a : HostAccess} {s t : State} (h : hostAccess a s = .next t) (hp : s.dec.pos = .command)
    (hs : s.faultLegal) : t.dec.pos = .command ∧ t.faultLegal := by
  by_cases ha : a = .reset
  · subst ha
    cases h
    exact ⟨rfl, Nat.zero_le 5⟩
  · obtain ⟨-, hstatus, -, -, -, -, -, hpos⟩ := hostAccess_frame h ha
    exact ⟨hpos.trans hp, by rwa [State.faultLegal, hstatus]⟩

/-! ### What soundness demands, by position -/

/-- The checks of a decode command have passed, and X.lc is its dialect (45_host_commands.md R251, R253): what soundness
demands at every position. -/
structure ChecksPassed (s : State) : Prop where
  fault : s.status.fault = 0
  op : isDecodeCode s.cmd.op = true
  w : s.cfg.w.toNat ≠ 0
  h : s.cfg.h.toNat ≠ 0
  lc : s.dec.lc = s.cmd.op.getLsbD 1

theorem ChecksPassed.of_decodes {s t : State} (hs : ChecksPassed s) (h : Decodes s t) : ChecksPassed t where
  fault := h.status ▸ hs.fault
  op := h.cmd ▸ hs.op
  w := h.cfg ▸ hs.w
  h := h.cfg ▸ hs.h
  lc := by rw [h.lc, h.cmd, hs.lc]

/-- A BRUN decode in a row of the frame (43_rle_decoder_brun.md R204). -/
structure InRow (s : State) : Prop extends ChecksPassed s where
  brun : s.dec.lc = false
  y : s.dec.y.toNat < s.cfg.h.toNat

/-- An LC decode that has a line before it: the frame command counts it in X.lines (44_rle_decoder_lc.md R229). -/
structure LineLeft (s : State) : Prop extends ChecksPassed s where
  delta : s.dec.lc = true
  lines : isFrameCode s.cmd.op = true → 0 < s.dec.lines.toNat

theorem InRow.of_sameRow {s t : State} (hs : InRow s) (h : SameRow s t) : InRow t :=
  ⟨hs.of_decodes h.toDecodes, h.lc.trans hs.brun, by rw [h.y, h.cfg]; exact hs.y⟩

theorem LineLeft.of_decodes {s t : State} (hs : LineLeft s) (h : Decodes s t) (hl : t.dec.lines = s.dec.lines) :
    LineLeft t :=
  ⟨hs.toChecksPassed.of_decodes h, h.lc.trans hs.delta, fun hop => by rw [hl]; exact hs.lines (h.cmd ▸ hop)⟩

theorem checksPassed_of_sound {s : State} (h : s.decodeSound) (hp : s.dec.pos ≠ .command) : ChecksPassed s := by
  obtain ⟨hfault, hop, hw, hh, hlc, -⟩ := h hp
  exact ⟨hfault, hop, hw, hh, hlc⟩

theorem inRow_of_sound {s : State} (h : s.decodeSound) (hp : s.dec.pos = .rowHead ∨ s.dec.pos = .brunPacket) :
    InRow s := by
  have hp' : s.dec.pos ≠ .command := by rcases hp with hp | hp <;> simp [hp]
  obtain ⟨-, -, -, -, -, hpos⟩ := h hp'
  rcases hp with hp | hp
  · rw [hp] at hpos
    exact ⟨checksPassed_of_sound h hp', hpos.1, hpos.2⟩
  · rw [hp] at hpos
    exact ⟨checksPassed_of_sound h hp', hpos.1, hpos.2.1⟩

theorem lineLeft_of_sound {s : State} (h : s.decodeSound)
    (hp : s.dec.pos = .lineHead ∨ s.dec.pos = .pktsWord ∨ s.dec.pos = .lcPacket) : LineLeft s := by
  have hp' : s.dec.pos ≠ .command := by rcases hp with hp | hp | hp <;> simp [hp]
  obtain ⟨-, -, -, -, -, hpos⟩ := h hp'
  rcases hp with hp | hp | hp
  · rw [hp] at hpos
    obtain ⟨hlc, -, hlines, -⟩ := hpos
    exact ⟨checksPassed_of_sound h hp', hlc, fun _ => hlines⟩
  · rw [hp] at hpos
    exact ⟨checksPassed_of_sound h hp', hpos.1, hpos.2⟩
  · rw [hp] at hpos
    obtain ⟨hlc, -, -, -, hlines⟩ := hpos
    exact ⟨checksPassed_of_sound h hp', hlc, hlines⟩

theorem frameHead_of_sound {s : State} (h : s.decodeSound) (hp : s.dec.pos = .frameHead) :
    ChecksPassed s ∧ s.dec.lc = true ∧ isFrameCode s.cmd.op = true := by
  have hp' : s.dec.pos ≠ .command := by simp [hp]
  obtain ⟨-, -, -, -, -, hpos⟩ := h hp'
  rw [hp] at hpos
  exact ⟨checksPassed_of_sound h hp', hpos⟩

theorem InRow.sound_rowHead {s : State} (h : InRow s) : (s.setPos .rowHead).decodeSound :=
  fun _ => ⟨h.fault, h.op, h.w, h.h, h.lc, h.brun, h.y⟩

theorem InRow.sound_brunPacket {s : State} (h : InRow s) (hx : s.dec.x.toNat ≤ s.cfg.w.toNat)
    (hnpk : s.dec.npk.toNat ≠ 0) : (s.setPos .brunPacket).decodeSound :=
  fun _ => ⟨h.fault, h.op, h.w, h.h, h.lc, h.brun, h.y, hx, Nat.pos_of_ne_zero hnpk⟩

theorem LineLeft.sound_pktsWord {s : State} (h : LineLeft s) : (s.setPos .pktsWord).decodeSound :=
  fun _ => ⟨h.fault, h.op, h.w, h.h, h.lc, h.delta, h.lines⟩

theorem LineLeft.sound_lcPacket {s : State} (h : LineLeft s) (hy : s.dec.y.toNat < s.cfg.h.toNat)
    (hx : s.dec.x.toNat ≤ s.cfg.w.toNat) (hnpk : s.dec.npk.toNat ≠ 0) : (s.setPos .lcPacket).decodeSound :=
  fun _ => ⟨h.fault, h.op, h.w, h.h, h.lc, h.delta, hy, hx, Nat.pos_of_ne_zero hnpk, h.lines⟩

/-! ### The sequencing after an item -/

/-- After a row the frame command goes on only with a row that is in the frame (43_rle_decoder_brun.md R206). -/
theorem rowEnd_sound {s : State} (h : InRow s) : (rowEnd s).decodeSound := by
  unfold rowEnd
  split
  case isTrue hnext =>
    rw [Bool.and_eq_true, decide_eq_true_eq] at hnext
    have hh := s.cfg.h.isLt
    have hy : (s.setY (s.dec.y.toNat + 1)).dec.y.toNat = s.dec.y.toNat + 1 := Nat.mod_eq_of_lt (by omega)
    refine InRow.sound_rowHead ⟨h.toChecksPassed.of_decodes (.setY s _), h.brun, ?_⟩
    rw [hy]
    exact hnext.2
  case isFalse => exact decodeSound_of_command rfl

theorem nextBrunPacket_sound {s : State} (h : InRow s) (hx : s.dec.x.toNat ≤ s.cfg.w.toNat) :
    (nextPacket .brunPacket rowEnd s).decodeSound := by
  unfold nextPacket
  split
  · exact rowEnd_sound h
  · next hnpk => exact h.sound_brunPacket hx hnpk

/-- A line entry is left only while X.lines counts one (44_rle_decoder_lc.md R229). -/
theorem nextEntry_sound {s : State} (h : ChecksPassed s) (hlc : s.dec.lc = true) (hop : isFrameCode s.cmd.op = true)
    (hy : s.dec.y.toNat ≤ s.cfg.h.toNat) : (nextEntry s).decodeSound := by
  unfold nextEntry
  split
  · exact decodeSound_of_command rfl
  · next hlines => exact fun _ => ⟨h.fault, h.op, h.w, h.h, h.lc, hlc, hop, Nat.pos_of_ne_zero hlines, hy⟩

/-- After a line X.y is at most one past the last row (R228). -/
theorem lineEnd_sound {s : State} (h : LineLeft s) (hy : s.dec.y.toNat < s.cfg.h.toNat) : (lineEnd s).decodeSound := by
  rw [lineEnd_eq, nextLine]
  split
  · next hop =>
    have hh := s.cfg.h.isLt
    have hy17 : (s.setY (s.dec.y.toNat + 1)).dec.y.toNat = s.dec.y.toNat + 1 := Nat.mod_eq_of_lt (by omega)
    refine nextEntry_sound (h.toChecksPassed.of_decodes ((Decodes.setY s _).trans (.setLines _ _))) h.delta hop ?_
    exact hy17.trans_le hy
  · exact decodeSound_of_command rfl

theorem nextLcPacket_sound {s : State} (h : LineLeft s) (hy : s.dec.y.toNat < s.cfg.h.toNat)
    (hx : s.dec.x.toNat ≤ s.cfg.w.toNat) : (nextPacket .lcPacket lineEnd s).decodeSound := by
  unfold nextPacket
  split
  · exact lineEnd_sound h hy
  · next hnpk => exact h.sound_lcPacket hy hx hnpk

/-! ### The items -/

/-- A packet that completes leaves X.x inside the row, and the rest of the row is sound. -/
theorem brunPacketDone_sound {n : Nat} {s u : State} (h : InRow s) (hu : PacketDone n s u) :
    (nextPacket .brunPacket rowEnd (packetDone u)).decodeSound := by
  refine nextBrunPacket_sound (h.of_sameRow (hu.toOnLine.sameRow.trans (.setNpk u _))) ?_
  exact (hu.x.trans_le hu.fits).trans_eq (by rw [← hu.cfg]; rfl)

/-- The same for a line, where the skip has moved X.x before. -/
theorem lcPacketDone_sound {n : Nat} {skip : Byte} {s u : State} (h : LineLeft s)
    (hy : s.dec.y.toNat < s.cfg.h.toNat) (hu : PacketDone n (addSkip skip s) u) :
    (nextPacket .lcPacket lineEnd (packetDone u)).decodeSound := by
  have hdec : Decodes s (packetDone u) := (Decodes.setX s _).trans (hu.toDecodes.trans (.setNpk u _))
  refine nextLcPacket_sound (h.of_decodes hdec hu.lines) ?_ ?_
  · have hyu : (packetDone u).dec.y = s.dec.y := hu.y
    rw [hyu, hdec.cfg]
    exact hy
  · exact (hu.x.trans_le hu.fits).trans_eq (by rw [hdec.cfg]; rfl)

/-- An item that goes on from a sound state, at a position that admits it, leads to a sound state. -/
theorem advance_sound {i : Instr} {s u : State} (hp : s.dec.pos ≠ .command) (hadmits : s.dec.pos.admits i = true)
    (hs : s.decodeSound) (hu : itemProc i s = .go u) : (advance i u).decodeSound := by
  cases i with
  | rowhdr k =>
    have hrow := inRow_of_sound hs (.inl (by simpa [Position.admits] using hadmits))
    cases hu
    exact nextBrunPacket_sound (hrow.of_sameRow ((SameRow.setNpk s _).trans (OnLine.setX _ 0).sameRow)) (Nat.zero_le _)
  | bRepeat n =>
    have hrow := inRow_of_sound hs (.inr (by simpa [Position.admits] using hadmits))
    exact brunPacketDone_sound hrow ((repeatBody_sat n s).go hu)
  | bCopy n =>
    have hrow := inRow_of_sound hs (.inr (by simpa [Position.admits] using hadmits))
    exact brunPacketDone_sound hrow ((copyBody_sat n s).go hu)
  | lines m =>
    obtain ⟨hchecks, hlc, hop⟩ := frameHead_of_sound hs (by simpa [Position.admits] using hadmits)
    cases hu
    rw [advance_lines]
    exact nextEntry_sound (hchecks.of_decodes ((Decodes.setLines s _).trans (.setY _ 0))) hlc hop (Nat.zero_le _)
  | lskip rows =>
    have hline := lineLeft_of_sound hs (.inl (by simpa [Position.admits] using hadmits))
    cases hu
    exact (hline.of_decodes (.setY s _) rfl).sound_pktsWord
  | pkts k =>
    have hpos : s.dec.pos = .pktsWord ∨ s.dec.pos = .lineHead := by
      simp only [Position.admits, Bool.or_eq_true, Bool.and_eq_true, decide_eq_true_eq] at hadmits
      exact hadmits.imp_right And.left
    have hline := lineLeft_of_sound hs (hpos.elim (.inr ∘ .inl) .inl)
    simp only [itemProc, pktsProc] at hu
    split at hu
    · cases hu
    · next hin =>
      rw [overrunsFrame_iff, Nat.not_le] at hin
      cases hu
      exact nextLcPacket_sound (hline.of_decodes ((Decodes.setX s 0).trans (.setNpk _ _)) rfl) hin (Nat.zero_le _)
  | lCopy skip n =>
    have hpos : s.dec.pos = .lcPacket := by simpa [Position.admits] using hadmits
    exact lcPacketDone_sound (lineLeft_of_sound hs (.inr (.inr hpos))) (decodeSound_row hs (.inr hpos))
      ((copyBody_sat n (addSkip skip s)).go hu)
  | lRepeat skip n =>
    have hpos : s.dec.pos = .lcPacket := by simpa [Position.admits] using hadmits
    exact lcPacketDone_sound (lineLeft_of_sound hs (.inr (.inr hpos))) (decodeSound_row hs (.inr hpos))
      ((repeatBody_sat n (addSkip skip s)).go hu)
  | nop | encKey | diff | encDelta | decBrunRow | decBrunFrame | decLcLine | decLcFrame =>
    exact absurd (by simpa [Position.admits] using hadmits) hp

/-- The sequencing moves the decoder's registers alone. -/
theorem afterItem_faultLegal (i : Instr) {s : State} (h : s.faultLegal) : (afterItem i s).faultLegal := by
  unfold afterItem
  split
  · exact h
  · obtain ⟨d, hd⟩ := advance_dec i s
    rw [hd]
    exact h

/-- A step that runs an item: it goes on soundly, or a fault has ended the command. -/
theorem afterItem_sound {i : Instr} {s u : State} (hp : s.dec.pos ≠ .command) (hadmits : s.dec.pos.admits i = true)
    (hs : s.decodeSound) (hu : (itemProc i s).outcome = .next u) : (afterItem i u).decodeSound := by
  unfold afterItem
  split
  · next hpos => exact decodeSound_of_command hpos
  · next hpos =>
    cases hf : itemProc i s with
    | go v =>
      rw [hf] at hu
      cases hu
      exact advance_sound hp hadmits hs hf
    | ended v =>
      rw [hf] at hu
      cases hu
      exact absurd (itemProc_ended hf) hpos
    | stuck r =>
      rw [hf] at hu
      cases hu

/-! ### Headers cut short -/

/-- Where `decode` finds no instruction, at most one byte is left, and none where the header is a single byte. -/
theorem decode_error_short {p : Position} {bytes : List Byte} {e : DecodeError} (hp : p ≠ .command)
    (h : decode p bytes = .error e) : bytes.length ≤ 1 ∧ (p = .rowHead ∨ p = .brunPacket → bytes = []) := by
  match p, bytes, h with
  | .command, _, _ => exact absurd rfl hp
  | .rowHead, [], _ | .brunPacket, [], _ => exact ⟨Nat.zero_le 1, fun _ => rfl⟩
  | .frameHead, [], _ | .lineHead, [], _ | .pktsWord, [], _ | .lcPacket, [], _ => exact ⟨Nat.zero_le 1, fun _ => rfl⟩
  | .frameHead, [_], _ | .lineHead, [_], _ | .pktsWord, [_], _ | .lcPacket, [_], _ =>
    exact ⟨Nat.le_refl 1, (nomatch ·)⟩

/-- The reads of a header that the stream cuts short end in TruncatedStream (60_exceptions.md R302). -/
theorem readCutHeader_raises {s : State} {e : DecodeError} (hp : s.dec.pos ≠ .command)
    (h : decode s.dec.pos (s.inp.drop s.dec.ip) = .error e) :
    ∃ u, readCutHeader s = raiseDecode .truncatedStream u := by
  obtain ⟨hlen, hnil⟩ := decode_error_short hp h
  have h8 (hpos : s.dec.pos = .rowHead ∨ s.dec.pos = .brunPacket) :
      (in8 s fun _ u => .go u) = raiseDecode .truncatedStream s := in8_of_drop_nil (hnil hpos) _
  have h16 : (in16 s fun _ u => .go u) = raiseDecode .truncatedStream (s.setIp (max s.dec.ip s.inp.length)) :=
    in16_cut (by rw [List.length_drop] at hlen; omega) _
  have hlc : ∃ u, (in8 s fun skip u => in8 (addSkip skip u) fun _ u => .go u) = raiseDecode .truncatedStream u := by
    match hd : s.inp.drop s.dec.ip, hlen with
    | [], _ => exact ⟨_, in8_of_drop_nil hd _⟩
    | [skip], _ =>
      rw [in8_of_drop hd]
      exact ⟨_, in8_of_drop_nil (s := addSkip skip (s.setIp (s.dec.ip + 1))) (drop_succ_of_drop hd) _⟩
  unfold readCutHeader
  split
  · next hpos => exact absurd hpos hp
  · next hpos => exact ⟨_, h8 (.inl hpos)⟩
  · next hpos => exact ⟨_, h8 (.inr hpos)⟩
  · exact ⟨_, h16⟩
  · exact ⟨_, h16⟩
  · exact ⟨_, h16⟩
  · exact hlc

/-! ### Every step -/

theorem step_keeps_sound {s t : State} (hs : s.decodeSound) (hf : s.faultLegal) (h : step s = .next t) :
    t.decodeSound ∧ t.faultLegal := by
  by_cases hp : s.dec.pos = .command
  · match hh : s.host with
    | [] =>
      rw [step, fetch_idle hp hh] at h
      cases h
      exact ⟨hs, hf⟩
    | .writeOp code :: rest =>
      rw [step, fetch_command hp hh] at h
      have hset := exec_settled h
      exact ⟨decodeSound_of_command (hset.command hp), hset.faultLegal hf⟩
    | .access a :: rest =>
      rw [step, fetch_access hp hh] at h
      obtain ⟨hpos, hlegal⟩ := hostAccess_settled h hp hf
      exact ⟨decodeSound_of_command hpos, hlegal⟩
  · cases hd : decode s.dec.pos (s.inp.drop s.dec.ip) with
    | error e =>
      obtain ⟨u, hu⟩ := readCutHeader_raises hp hd
      rw [step_of_cut hp hd, hu] at h
      cases h
      have hset := Settled.raise s u true .truncatedStream
      exact ⟨decodeSound_of_command rfl, hset.faultLegal hf⟩
    | ok item =>
      obtain ⟨i, rest⟩ := item
      rw [step_of_decode hp hd] at h
      obtain ⟨u, hu, rfl⟩ := mapNext_eq_next h
      refine ⟨?_, afterItem_faultLegal i ((exec_settled hu).faultLegal hf)⟩
      rw [exec_eq_itemProc (decode_item hp hd).1] at hu
      exact afterItem_sound (s := s.setIp (s.dec.ip + (encode i).length)) hp (decode_admits hp hd) hs hu

/-! ### Where a decode begins -/

/-- Once its checks have passed, a decode command begins in a sound state, or its row check ends it (R251, R253). -/
theorem decodeStart_sound {i : Instr} {c : BitVec 3} (hi : commandCode i = some c) (hc : isDecodeCode c = true)
    {s : State} (hop : s.cmd.op = c) (hfault : s.status.fault = 0) (hw : s.cfg.w ≠ 0) (hh : s.cfg.h ≠ 0) :
    (decodeStart i s).Sat (fun b => b.decodeSound ∧ b.faultLegal) (fun b => b.decodeSound ∧ b.faultLegal) False := by
  have hw' : s.cfg.w.toNat ≠ 0 := fun h0 => hw (BitVec.eq_of_toNat_eq h0)
  have hh' : s.cfg.h.toNat ≠ 0 := fun h0 => hh (BitVec.eq_of_toNat_eq h0)
  have hlegal : s.faultLegal := by
    rw [State.faultLegal, hfault]
    exact Nat.zero_le 5
  have hchecks {d : Dec} (hlc : d.lc = s.cmd.op.getLsbD 1) : ChecksPassed { s with dec := d } :=
    ⟨hfault, hop ▸ hc, hw', hh', hlc⟩
  revert hop
  refine decode_command_cases (P := fun i c => s.cmd.op = c → (decodeStart i s).Sat
    (fun b => b.decodeSound ∧ b.faultLegal) (fun b => b.decodeSound ∧ b.faultLegal) False)
    (fun hop => ?_) (fun hop => ?_) (fun hop => ?_) (fun hop => ?_) hi hc
  · rw [decodeStart]
    split
    · exact ⟨decodeSound_of_command rfl, FaultName.code_legal .lineOverrun⟩
    · next hin =>
      rw [overrunsFrame_iff, Nat.not_le] at hin
      exact ⟨InRow.sound_rowHead ⟨hchecks (by rw [hop]; rfl), rfl, hin⟩, hlegal⟩
  · exact ⟨InRow.sound_rowHead ⟨hchecks (by rw [hop]; rfl), rfl, Nat.pos_of_ne_zero hh'⟩, hlegal⟩
  · refine ⟨LineLeft.sound_pktsWord ⟨hchecks (by rw [hop]; rfl), rfl, fun hframe => ?_⟩, hlegal⟩
    have hop' : (startLine true s).cmd.op = 6 := hop
    rw [hop'] at hframe
    cases hframe
  · have h := hchecks (d := (startFrame true s).dec) (by rw [hop]; rfl)
    exact ⟨fun _ => ⟨h.fault, h.op, h.w, h.h, h.lc, rfl, hop ▸ rfl⟩, hlegal⟩

/-- Settles O58: every step keeps the invariant, and a decode command that is neither refused nor ended by BadConfig begins
with it. -/
theorem stepsKeepDecodeSound : Obligations.StepsKeepDecodeSound := by
  refine ⟨fun s t hs hf h => step_keeps_sound hs hf h, fun i c s b hi hc hp hb => ?_⟩
  rw [beginDecode_eq hi hc] at hb
  rcases startCommand_cases c (decodeStart i) s with ⟨-, hs⟩ | ⟨-, -, hs⟩ | ⟨hfault, hw, hh, hs⟩
  · rw [hs] at hb
    cases hb
    exact ⟨decodeSound_of_command hp, id⟩
  · rw [hs] at hb
    cases hb
    exact ⟨decodeSound_of_command rfl, fun _ => FaultName.code_legal .badConfig⟩
  · rw [hs] at hb
    have hstart := decodeStart_sound hi hc (s := s.setOp c) rfl hfault hw (hh hc)
    obtain ⟨hsound, hlegal⟩ := (hstart.next hb).elim id id
    exact ⟨hsound, fun _ => hlegal⟩

end Sys2Proof.Machine
end

section
/-! PROOF. The items of the LC dialect one by one: LINES, LSKIP, PKTS, L.COPY and L.REPEAT
(44_rle_decoder_lc.md R221 to R227). -/

namespace Sys2Proof.Machine

/-! ### LINES and LSKIP -/

theorem linesProc_eq (m : BitVec 16) (s : State) :
    linesProc m s = .go { s with dec := { s.dec with lines := m, y := 0 } } := by
  simp [linesProc, State.setLines, State.setY]

/-- A LINES of count 0 ends the frame at once (R221). -/
theorem step_lines_zero {s : State} {rest : List Byte} (hp : s.dec.pos = .frameHead)
    (hs : s.inp.drop s.dec.ip = 0 :: 0 :: rest) :
    step s = .next ((((s.setIp (s.dec.ip + 2)).setLines 0).setY 0).setPos .command) := by
  have hitem : decode .frameHead (s.inp.drop s.dec.ip) = .ok (.lines 0, rest) := by
    rw [hs]
    rfl
  have hstep := step_item Position.noConfusion hitem
  rwa [State.setPos_self hp] at hstep

/-- A LINES that the stream cuts short ends in TruncatedStream (60_exceptions.md R302). -/
theorem step_lines_cut {s : State} (hp : s.dec.pos = .frameHead) (hend : s.inp.length ≤ s.dec.ip + 1) :
    step s = .next (raise true .truncatedStream (s.setIp (max s.dec.ip s.inp.length))) := by
  have hlen : (s.inp.drop s.dec.ip).length ≤ 1 := by
    rw [List.length_drop]
    omega
  have hcut : decode s.dec.pos (s.inp.drop s.dec.ip) = .error .headerCut := by
    rw [hp]
    match s.inp.drop s.dec.ip, hlen with
    | [], _ | [_], _ => rfl
  have hread : readCutHeader s = in16 s fun _ u => .go u := by
    unfold readCutHeader
    rw [hp]
  rw [step_of_cut (by simp [hp]) hcut, hread, in16_cut hend]
  rfl

/-- Settles O21: LINES loads two registers; the other clauses are the two ways the frame can end at its head. -/
theorem linesLoadsLineCount : Obligations.LinesLoadsLineCount :=
  ⟨fun s m => congrArg Flow.outcome (linesProc_eq m s), fun _ _ hp hs => ⟨_, step_lines_zero hp hs, rfl, rfl, rfl⟩,
    fun _ hp hend => ⟨_, step_lines_cut hp hend, rfl, rfl⟩⟩

/-- Settles O22: X.y is 17 bits wide, so a 16-bit row and the rows skipped add up without a wrap. -/
theorem lskipMovesTheRow : Obligations.LskipMovesTheRow := by
  intro s rows _ hrows hy
  refine ⟨s.setY (s.dec.y.toNat + rows), rfl, Nat.mod_eq_of_lt (by omega), rfl, fun hp => ⟨?_, fun _ _ _ => rfl⟩⟩
  have hgoes : ¬ (s.setY (s.dec.y.toNat + rows)).dec.pos = .command := by simp [hp]
  rw [afterItem, if_neg hgoes]
  rfl

/-! ### PKTS -/

/-- Settles O23: the two clauses are the two outcomes of the row check. -/
theorem pktsStartsTheLine : Obligations.PktsStartsTheLine := by
  refine fun s k => ⟨fun hbelow => ?_, fun hin => ?_⟩
  · have hpkts : pktsProc k s = raiseDecode .lineOverrun s := if_pos ((overrunsFrame_iff s).mpr hbelow)
    exact congrArg Flow.outcome hpkts
  · have hpkts : pktsProc k s = .go ((s.setX 0).setNpk k.toNat) :=
      if_neg (by rw [overrunsFrame_iff]; omega)
    refine (congrArg Flow.outcome hpkts).trans ?_
    simp [State.setX, State.setNpk]

/-! ### The packets -/

/-- Settles O26: L.COPY is the body of a COPY after the skip. -/
theorem lcCopySkipsThenPaints : Obligations.LcCopySkipsThenPaints := by
  intro s skip ps rest hy hx hs
  have hskip := addSkip_x (skip := skip) (s := s) (by omega)
  have hbody := copyBody_eq (s := addSkip skip s) hy (by rw [hskip]; exact hx) hs
  rw [hskip] at hbody
  exact congrArg Flow.outcome hbody

/-- Settles O27: L.REPEAT is the body of a REPEAT after the skip. -/
theorem lcRepeatSkipsThenPaints : Obligations.LcRepeatSkipsThenPaints := by
  intro s skip n p rest hy hx hs
  have hskip := addSkip_x (skip := skip) (s := s) (by omega)
  have hbody := repeatBody_eq (s := addSkip skip s) (p := p) hy (by rw [hskip]; exact hx) hs
  rw [hskip] at hbody
  exact congrArg Flow.outcome hbody

end Sys2Proof.Machine
end

section
/-! PROOF. DEC_LC_LINE on legal records, and the round trips of the LC dialect (44_rle_decoder_lc.md R230, R233): the
packets of a delta line are a legal line record, and replayed they turn the previous line into the current one, so
DEC_LC_LINE and DEC_LC_FRAME do. -/

namespace Sys2Proof.Machine

/-! ### DEC_LC_LINE -/

/-- Settles O44: the command is one line record in the row CMD.ARG. -/
theorem decLcLinePaintsEveryLegalLine : Obligations.DecLcLinePaintsEveryLegalLine := by
  intro s lps rest hfault harg hw hline hs
  obtain ⟨hlen, hlegal, hx⟩ := hline
  have hh : s.cfg.h ≠ 0 := by
    rintro h0
    simp [h0] at harg
  have hexec : exec .decLcLine s = (in16 (startLine true (s.setOp 6)) fun k u => lcLine k u).outcome :=
    congrArg Flow.outcome (startCommand_run hfault hw (fun _ => hh) _)
  have hy : (startLine true (s.setOp 6)).dec.y.toNat = s.cmd.arg.toNat :=
    Nat.mod_eq_of_lt (by have := s.cmd.arg.isLt; omega)
  have hpkts := pktsLine_eq (s := startLine true (s.setOp 6)) hlen hlegal (hy.trans_lt harg) hx hs
  rw [hy] at hpkts
  rw [hexec, hpkts]
  rfl

/-! ### The record of a line -/

theorem Bounded.lcLegal {lp : LcPacket} (h : Bounded lp) : lp.lcLegal = true := by
  rcases h with ⟨h1, h127⟩ | rfl
  · obtain ⟨skip, pk⟩ := lp
    cases pk with
    | copyOf ps => exact decide_eq_true h127
    | repeatOf n p =>
      simp only [Packet.npix] at h1 h127
      simp only [LcPacket.lcLegal, Bool.and_eq_true, decide_eq_true_eq]
      omega
  · rfl

/-- The packets of a delta line are legal for a line of its width, if the record can state their number
(42_rle_encoder_delta.md R188). -/
theorem deltaPackets_legalLine (C P : Nat → Pixel) {w limit : Nat} (hw : w ≤ 65535)
    (hlen : (deltaPackets C P w).length ≤ limit) : legalLine limit w (deltaPackets C P w) := by
  have h := deltaLine_differ_encodes C P C State.reset.enc hw
  exact ⟨hlen, fun lp hlp => (h.bounded lp hlp).lcLegal, Nat.zero_add (lcExtent _) ▸ h.extent⟩

/-- Two lines have no sub-chunk exactly when they are equal (41_line_differ.md R168). -/
theorem differ_eq_nil_iff (C P : Nat → Pixel) {w : Nat} (hw : w ≤ 65535) :
    (differ C P w).2 = [] ↔ ∀ x, x < w → C x = P x := by
  rw [(differ_chunks C P hw).eq_nil_iff]
  exact ⟨fun h x hx => h x (Nat.zero_le x) hx, fun h x _ hx => h x hx⟩

/-- Replayed on row `r` of FB, which holds the previous line, the packets of a delta line leave the current line there and
every other pixel as it was. -/
theorem readPixel_paintLine_deltaPackets {C P : Nat → Pixel} {w r : Nat} {m : Memory} (hw : w ≤ 65535)
    (hm : ∀ x, x < w → readPixel m (fbAddr w r x) = some (P x)) {r' x : Nat} (hx : x < w) :
    readPixel (paintLine m (fbAddr w r 0) 0 (deltaPackets C P w)) (fbAddr w r' x) =
      if r' = r then some (C x) else readPixel m (fbAddr w r' x) := by
  split
  case isTrue hrow =>
    subst hrow
    rw [← fbAddr_col w r' x]
    obtain ⟨hcur, -⟩ := deltaPacketsReplayToTheCurrentLine C P State.reset.enc w (fbAddr w r' 0) m hw
      fun i hi => (congrArg (readPixel m) (fbAddr_col w r' i)).trans (hm i hi)
    exact hcur x hx
  case isFalse hrow =>
    obtain ⟨-, -, hextent⟩ := deltaPackets_legalLine C P hw (Nat.le_refl _)
    exact readPixel_paintLine_ne m _ _ _
      (fbAddr_disjoint (x := 0) (by omega) hx (.inl hrow))

/-- ENC_DELTA that raised nothing on a changed line has appended the line record of its packets, whose number leaves bit 15
of PKTS clear (42_rle_encoder_delta.md R187). -/
theorem encDelta_appends_record {s t : State} {C P : Nat → Pixel} (hC : s.drawFree.lcurPixel = C)
    (hP : s.drawFree.lprevPixel = P) (hfault : s.status.fault = 0) (hw : s.cfg.w ≠ 0)
    (hchanged : ∃ x, x < s.cfg.w.toNat ∧ C x ≠ P x) (h : exec .encDelta s = .next t) (ht : t.status.fault = 0) :
    (deltaPackets C P s.cfg.w.toNat).length ≤ 32767 ∧
      t.out = s.out ++ lcRecord (deltaPackets C P s.cfg.w.toNat) := by
  subst hC hP
  obtain ⟨x, hx, hne⟩ := hchanged
  have hsome : (lineDiff s).2 ≠ [] := fun hnil =>
    hne ((differ_eq_nil_iff _ _ (Nat.le_of_lt_succ s.cfg.w.isLt)).mp hnil x hx)
  have hpackets : (deltaRun s).2 = deltaPackets s.drawFree.lcurPixel s.drawFree.lprevPixel s.cfg.w.toNat :=
    deltaLine_regs _ _ _ _
  obtain ⟨u, hu, -, hfits, hover⟩ := encDeltaEncodesTheChanges s (lineDiff s) (deltaRun s) hfault hw rfl rfl
  rw [← hpackets]
  by_cases hlen : (deltaRun s).2.length ≤ 32767
  · rw [hfits hsome hlen] at h
    cases h
    exact ⟨hlen, rfl⟩
  · rw [hover (Nat.lt_of_not_le hlen)] at h
    cases h
    cases ht

/-- Settles O54: the record is a legal line, its replay gives the current line, and it writes no byte outside the row. -/
theorem deltaLineRoundTrip : Obligations.DeltaLineRoundTrip := by
  intro s t d rest hfault hw hexec ht hchanged hdfault hdw harg hprev hs
  obtain ⟨hlen, hout⟩ := encDelta_appends_record rfl rfl hfault hw hchanged hexec ht
  have hwle : s.cfg.w.toNat ≤ 65535 := Nat.le_of_lt_succ s.cfg.w.isLt
  rw [hout, List.drop_left] at hs
  have hlegal := deltaPackets_legalLine (limit := 65535) s.drawFree.lcurPixel s.drawFree.lprevPixel hwle (by omega)
  have hline := decLcLinePaintsEveryLegalLine d _ rest hdfault harg (hdw ▸ hw) (hdw ▸ hlegal) hs
  obtain ⟨-, -, hextent⟩ := hlegal
  simp only [State.fbPixel, hdw] at hprev
  refine ⟨_, hline, hdfault, fun x hx => ?_, fun a ha => ?_, ?_⟩
  · rw [State.fbPixel, hdw]
    exact (readPixel_paintLine_deltaPackets hwle hprev hx).trans (if_pos rfl)
  · rw [hdw]
    refine read_paintLine_ne d.fb _ 0 _ ?_
    rw [fbAddr_eq]
    simp only [Config.bpp]
    omega
  · rw [hout, List.length_append]
    dsimp only
    omega

/-! ### The line entries of a frame -/

/-- 32767 packets can be stated with an LSKIP in front of the line and without (30_encoding.md R99). -/
theorem LineEntry.le_limit (e : LineEntry) : 32767 ≤ e.limit := by
  unfold LineEntry.limit
  split
  · exact Nat.le_refl 32767
  · decide

/-- The entries of a delta frame are legal, counted from file-order row `y`, `k` unchanged rows before the next one
(46_context_frame_container.md R274); in a frame of at most 32769 rows an LSKIP can state every skip. -/
theorem deltaEntriesFrom_legal {w h : Nat} {Fprev Fcur : Nat → Nat → Pixel} (hw : w ≤ 65535) (hh : h ≤ 32769)
    (hF : ∀ r, r < h → (deltaPackets (Fcur r) (Fprev r) w).length ≤ 32767) {n y k : Nat} (hn : y + k + n = h) :
    legalEntries w h y (deltaEntriesFrom w h Fprev Fcur n (y + k) k) := by
  induction n generalizing y k with
  | zero => trivial
  | succ n ih =>
    rw [deltaEntriesFrom]
    split
    · exact ih (k := k + 1) (by omega)
    · exact ⟨show k ≤ 32768 by omega, show y + k < h by omega,
        deltaPackets_legalLine _ _ hw (Nat.le_trans (hF _ (by omega)) (LineEntry.le_limit _)),
        ih (y := y + k + 1) (k := 0) (by omega)⟩

/-- The entries of a delta frame lead from the first frame to the second: where the rows below file-order row `y + k` hold
the second frame already and the others still the first, all rows do so after the entries. -/
theorem readPixel_paintEntries_deltaEntries {w h : Nat} {Fprev Fcur : Nat → Nat → Pixel} (hw : w ≤ 65535) {m : Memory}
    {n y k : Nat} (hn : y + k + n = h)
    (hm : ∀ r x, r < h → x < w →
      readPixel m (fbAddr w r x) = some (if r + (y + k) < h then Fprev r x else Fcur r x))
    {r x : Nat} (hr : r < h) (hx : x < w) :
    readPixel (paintEntries w h m y (deltaEntriesFrom w h Fprev Fcur n (y + k) k)) (fbAddr w r x) =
      some (Fcur r x) := by
  induction n generalizing m y k with
  | zero => exact (hm r x hr hx).trans (by rw [if_neg (by omega)])
  | succ n ih =>
    rw [deltaEntriesFrom]
    split
    case isTrue hsame =>
      rw [differ_eq_nil_iff _ _ hw] at hsame
      refine ih (k := k + 1) (by omega) fun r' x' hr' hx' => (hm r' x' hr' hx').trans (congrArg some ?_)
      by_cases hrow : r' = h - 1 - (y + k)
      · subst hrow
        rw [hsame x' hx', ite_self, ite_self]
      · exact if_congr (by omega) rfl rfl
    case isFalse =>
      refine ih (y := y + k + 1) (k := 0) (by omega) fun r' x' hr' hx' => ?_
      have hprev : ∀ i, i < w → readPixel m (fbAddr w (h - 1 - (y + k)) i) = some (Fprev (h - 1 - (y + k)) i) :=
        fun i hi => (hm _ i (by omega) hi).trans (by rw [if_pos (by omega)])
      rw [readPixel_paintLine_deltaPackets hw hprev hx']
      by_cases hrow : r' = h - 1 - (y + k)
      · subst hrow
        rw [if_pos rfl, if_neg (by omega)]
      · rw [if_neg hrow, hm r' x' hr' hx']
        exact congrArg some (if_congr (by omega) rfl rfl)

/-- Two equal frames have no line entry. -/
theorem deltaEntriesFrom_of_eq {w h : Nat} {Fprev Fcur : Nat → Nat → Pixel} (hw : w ≤ 65535)
    (hsame : ∀ r x, r < h → x < w → Fcur r x = Fprev r x) {n y k : Nat} (hn : y + n ≤ h) :
    deltaEntriesFrom w h Fprev Fcur n y k = [] := by
  induction n generalizing y k with
  | zero => rfl
  | succ n ih =>
    have hrow := (differ_eq_nil_iff (Fcur (h - 1 - y)) (Fprev (h - 1 - y)) hw).mpr fun x hx =>
      hsame _ x (by omega) hx
    rw [deltaEntriesFrom, if_pos hrow, ih (by omega)]

/-- Settles O56: the payload is legal, it paints the rows that differ, and two equal frames have none. -/
theorem deltaFrameRoundTrip : Obligations.DeltaFrameRoundTrip := by
  intro d Fprev Fcur es rest hfault hw hh hrows hF hes hprev hs
  have hwle : d.cfg.w.toNat ≤ 65535 := Nat.le_of_lt_succ d.cfg.w.isLt
  have hall : 0 + 0 + d.cfg.h.toNat = d.cfg.h.toNat := by omega
  subst hes
  have hframe := decLcFramePaintsEveryLegalFrame d _ rest hfault hw hh (deltaEntriesFrom_legal hwle hrows hF hall) hs
  refine ⟨⟨_, hframe, hfault, fun r x hr hx => ?_, rfl⟩, fun hsame => ?_⟩
  · exact readPixel_paintEntries_deltaEntries (y := 0) (k := 0) hwle hall
      (fun r' x' hr' hx' => (hprev r' x' hr' hx').trans (by rw [if_pos (by omega)])) hr hx
  · rw [deltaEntriesFrom_of_eq hwle hsame (by omega)]
    rfl

end Sys2Proof.Machine
end

section
/-! PROOF. The host's side of the block (45_host_commands.md R250 to R258): what its accesses and its command writes do,
and what each unit's commands leave alone. -/

namespace Sys2Proof.Machine

/-! ### The commands -/

/-- The procedure of each command after the start that all but NOP share (45_host_commands.md R253). -/
def commandProc (i : Instr) (s : State) : Flow :=
  match i with
  | .encKey => encKeyProc s
  | .diff => .go (diffLines s.drawFree)
  | .encDelta => encDeltaProc s
  | _ => decodeProc i s

theorem exec_command {i : Instr} {c : BitVec 3} (hi : commandCode i = some c) (hnop : i ≠ .nop) (s : State) :
    exec i s = (startCommand c (commandProc i) s).outcome := by
  cases i with
  | nop => exact absurd rfl hnop
  | encKey | diff | encDelta | decBrunRow | decBrunFrame | decLcLine | decLcFrame => cases hi; rfl
  | rowhdr _ | bRepeat _ | bCopy _ | lines _ | lskip _ | pkts _ | lCopy _ _ | lRepeat _ _ => cases hi

/-- A command writes CMD.OP and no more (NOP, or a refusal), or records BadConfig, or leaves what its procedure leaves. -/
theorem exec_command_cases {i : Instr} {c : BitVec 3} (hi : commandCode i = some c) {s t : State}
    (h : exec i s = .next t) :
    t = s.setOp c ∨ t = raise (isDecodeCode c) .badConfig (s.setOp c) ∨
      (commandProc i (s.setOp c)).outcome = .next t := by
  by_cases hnop : i = .nop
  · subst hnop
    cases hi
    cases h
    exact .inl rfl
  · rw [exec_command hi hnop] at h
    rcases startCommand_cases c (commandProc i) s with ⟨-, hs⟩ | ⟨-, -, hs⟩ | ⟨-, -, -, hs⟩
    · rw [hs] at h
      cases h
      exact .inl rfl
    · rw [hs] at h
      cases h
      exact .inr (.inl rfl)
    · rw [hs] at h
      exact .inr (.inr h)

/-- What the start of a command and its procedure ensure, the command ensures. -/
theorem exec_command_ensures {P : State → Prop} {i : Instr} {c : BitVec 3} {s t : State} (h : exec i s = .next t)
    (hi : commandCode i = some c) (hop : P (s.setOp c)) (hbad : P (raise (isDecodeCode c) .badConfig (s.setOp c)))
    (hproc : (commandProc i (s.setOp c)).Sat P P True) : P t := by
  rcases exec_command_cases hi h with rfl | rfl | hrun
  · exact hop
  · exact hbad
  · exact (hproc.next hrun).elim id id

/-- While a fault is recorded a command writes CMD.OP and nothing else: it is refused, or it is NOP (60_exceptions.md
R312). -/
theorem exec_command_of_fault {i : Instr} {c : BitVec 3} (hi : commandCode i = some c) {s : State}
    (hf : s.status.fault ≠ 0) : exec i s = .next (s.setOp c) := by
  by_cases hnop : i = .nop
  · subst hnop
    cases hi
    rfl
  · rw [exec_command hi hnop]
    exact congrArg Flow.outcome (if_pos hf)

/-- `commandCode` and `commandOf` are inverse to each other (45_host_commands.md R251). -/
theorem eq_commandOf {i : Instr} {c : BitVec 3} (hi : commandCode i = some c) : i = commandOf c := by
  cases i with
  | nop | encKey | diff | encDelta | decBrunRow | decBrunFrame | decLcLine | decLcFrame => cases hi; rfl
  | rowhdr _ | bRepeat _ | bCopy _ | lines _ | lskip _ | pkts _ | lCopy _ _ | lRepeat _ _ => cases hi

/-- Settles O31: only a packet stops the machine, nothing is refused by `exec`, and a command is no packet. -/
theorem everyCommandEndsInANextState : Obligations.EveryCommandEndsInANextState := by
  intro i c s hi
  cases hexec : exec i s with
  | next t => exact ⟨t, rfl⟩
  | fault r => exact absurd (eq_commandOf hi ▸ (exec_fault hexec).1) (command_not_isPacket c)
  | refused r => exact absurd hexec (exec_ne_refused i s r)

/-! ### What each unit's commands leave alone -/

/-- No procedure of a command writes these (45_host_commands.md R258, 20_memory.md R69). -/
structure HostFrame (s t : State) : Prop where
  cfg : t.cfg = s.cfg
  cmd : t.cmd = s.cmd
  lcur : t.lcur = s.lcur
  lprev : t.lprev = s.lprev
  inp : t.inp = s.inp
  host : t.host = s.host

/-- What a decode command leaves alone: the encoder, the differ, their results and OUT. -/
structure DecodeFrame (s t : State) : Prop extends HostFrame s t where
  enc : t.enc = s.enc
  dif : t.dif = s.dif
  res : t.res = s.res
  npk : t.status.npk = s.status.npk
  nsc : t.status.nsc = s.status.nsc
  changed : t.status.changed = s.status.changed
  out : t.out = s.out
  freeCtr : t.freeCtr = s.freeCtr

/-- What an encode or diff command leaves alone: the decoder and FB. -/
structure EncodeFrame (s t : State) : Prop extends HostFrame s t where
  dec : t.dec = s.dec
  fb : t.fb = s.fb

/-- What DIFF leaves alone besides: the encoder and its results. -/
structure DiffFrame (s t : State) : Prop extends EncodeFrame s t where
  enc : t.enc = s.enc
  pk : t.res.pk = s.res.pk
  npk : t.status.npk = s.status.npk
  out : t.out = s.out

/-- What ENC_KEY leaves alone besides: the differ and its results. -/
structure KeyFrame (s t : State) : Prop extends EncodeFrame s t where
  dif : t.dif = s.dif
  sc : t.res.sc = s.res.sc
  nsc : t.status.nsc = s.status.nsc
  changed : t.status.changed = s.status.changed

theorem HostFrame.refl (s : State) : HostFrame s s := ⟨rfl, rfl, rfl, rfl, rfl, rfl⟩

theorem DecodeFrame.refl (s : State) : DecodeFrame s s := ⟨.refl s, rfl, rfl, rfl, rfl, rfl, rfl, rfl, rfl⟩

/-- A change of the encoder, the differ and what they report alone. -/
theorem EncodeFrame.of_results (s : State) (status : Status) (enc : Enc) (dif : Dif) (res : Res) (out : List Byte)
    (freeCtr : Nat) :
    EncodeFrame s { s with status := status, enc := enc, dif := dif, res := res, out := out, freeCtr := freeCtr } :=
  ⟨⟨rfl, rfl, rfl, rfl, rfl, rfl⟩, rfl, rfl⟩

theorem EncodeFrame.refl (s : State) : EncodeFrame s s := ⟨.refl s, rfl, rfl⟩

theorem DiffFrame.refl (s : State) : DiffFrame s s := ⟨.refl s, rfl, rfl, rfl, rfl⟩

theorem KeyFrame.refl (s : State) : KeyFrame s s := ⟨.refl s, rfl, rfl, rfl, rfl⟩

theorem HostFrame.raise {s t : State} (h : HostFrame s t) (decoding : Bool) (f : FaultName) :
    HostFrame s (raise decoding f t) := ⟨h.cfg, h.cmd, h.lcur, h.lprev, h.inp, h.host⟩

theorem DecodeFrame.raise {s t : State} (h : DecodeFrame s t) (decoding : Bool) (f : FaultName) :
    DecodeFrame s (raise decoding f t) :=
  ⟨h.toHostFrame.raise decoding f, h.enc, h.dif, h.res, h.npk, h.nsc, h.changed, h.out, h.freeCtr⟩

/-- Between commands the record of a fault leaves the grammar position where it is. -/
theorem raise_dec {s : State} (hp : s.dec.pos = .command) (decoding : Bool) (f : FaultName) :
    (raise decoding f s).dec = s.dec :=
  congrArg (fun p => { s.dec with pos := p }) hp.symm

theorem EncodeFrame.raise {s t : State} (h : EncodeFrame s t) (hp : s.dec.pos = .command) (decoding : Bool)
    (f : FaultName) : EncodeFrame s (raise decoding f t) :=
  ⟨h.toHostFrame.raise decoding f, (raise_dec (h.dec ▸ hp) decoding f).trans h.dec, h.fb⟩

theorem DiffFrame.raise {s t : State} (h : DiffFrame s t) (hp : s.dec.pos = .command) (decoding : Bool)
    (f : FaultName) : DiffFrame s (raise decoding f t) :=
  ⟨h.toEncodeFrame.raise hp decoding f, h.enc, h.pk, h.npk, h.out⟩

theorem KeyFrame.raise {s t : State} (h : KeyFrame s t) (hp : s.dec.pos = .command) (decoding : Bool)
    (f : FaultName) : KeyFrame s (raise decoding f t) :=
  ⟨h.toEncodeFrame.raise hp decoding f, h.dif, h.sc, h.nsc, h.changed⟩

/-! ### The decode commands -/

/-- A decode command loads X.lc, then moves only what a decode moves, or ends with a fault of a line. -/
theorem decodeProc_sat (i : Instr) (s : State) :
    ∃ lc, (decodeProc i s).Sat (Decodes (s.setLc lc)) (Raised LineFault (s.setLc lc)) False := by
  have hline (lc : Bool) : Decodes (s.setLc lc) (startLine lc s) := (Decodes.setY _ _).trans (.setX _ 0)
  have hframe (lc : Bool) : Decodes (s.setLc lc) (startFrame lc s) := Decodes.setY _ 0
  have start {F : FaultName → Prop} {u v : State} {f : Flow} (h : f.Sat (Decodes v) (Raised F v) False)
      (huv : Decodes u v) (hF : ∀ f, F f → LineFault f) : f.Sat (Decodes u) (Raised LineFault u) False :=
    h.mono (fun _ ht => huv.trans ht) (fun _ ht => (ht.of_decodes huv).mono hF) id
  cases i with
  | decBrunRow =>
    exact ⟨false, start (brunRow_sat _ _) (hline false) fun _ hf => hf.elim PacketFault.line fun h => .inr (.inr h.1)⟩
  | decBrunFrame =>
    have hrows := brunRows_sat _ 0 (s := startFrame false s) (Nat.le_of_eq (Nat.zero_add _))
    exact ⟨false, start hrows (hframe false) fun _ hf => hf.line⟩
  | decLcLine => exact ⟨true, start (pktsLine_sat _) (hline true) fun _ hf => hf⟩
  | decLcFrame => exact ⟨true, start (lcFrame_sat _) (hframe true) fun _ hf => hf⟩
  | nop | encKey | diff | encDelta => exact ⟨s.dec.lc, .refl s⟩
  | rowhdr _ | bRepeat _ | bCopy _ | lines _ | lskip _ | pkts _ | lCopy _ _ | lRepeat _ _ =>
    exact ⟨s.dec.lc, .refl s⟩

theorem Decodes.decodeFrame {s t : State} {lc : Bool} (h : Decodes (s.setLc lc) t) : DecodeFrame s t where
  cfg := h.cfg
  cmd := h.cmd
  lcur := h.lcur
  lprev := h.lprev
  inp := h.inp
  host := h.host
  enc := h.enc
  dif := h.dif
  res := h.res
  npk := congrArg Status.npk h.status
  nsc := congrArg Status.nsc h.status
  changed := congrArg Status.changed h.status
  out := h.out
  freeCtr := h.freeCtr

theorem decodeProc_frame (i : Instr) (s : State) : (decodeProc i s).Sat (DecodeFrame s) (DecodeFrame s) True := by
  obtain ⟨lc, h⟩ := decodeProc_sat i s
  refine h.mono (fun _ ht => ht.decodeFrame) (fun _ ht => ?_) fun _ => trivial
  obtain ⟨u, f, hu, -, rfl⟩ := ht
  exact hu.decodeFrame.raise true f

theorem commandProc_decode {i : Instr} {c : BitVec 3} (hi : commandCode i = some c) (hc : isDecodeCode c = true) :
    commandProc i = decodeProc i :=
  decode_command_cases (P := fun i _ => commandProc i = decodeProc i) rfl rfl rfl rfl hi hc

theorem exec_decodeFrame {i : Instr} {c : BitVec 3} {s t : State} (h : exec i s = .next t)
    (hi : commandCode i = some c) (hc : isDecodeCode c = true) : DecodeFrame (s.setOp c) t :=
  exec_command_ensures h hi (.refl _) ((DecodeFrame.refl _).raise _ _)
    (commandProc_decode hi hc ▸ decodeProc_frame i (s.setOp c))

/-! ### The encode and diff commands -/

theorem encKeyProc_frame {s : State} (hp : s.dec.pos = .command) :
    (encKeyProc s).Sat (KeyFrame s) (KeyFrame s) True := by
  have hcounted : KeyFrame s (keyCounted s (keyRun s)) := ⟨.of_results s _ _ _ _ _ _, rfl, rfl, rfl, rfl⟩
  rw [encKeyProc_eq]
  split
  · exact hcounted.raise hp false .packetCountOverflow
  · exact ⟨.of_results s _ _ _ _ _ _, rfl, rfl, rfl, rfl⟩

theorem diffLines_frame (s : State) : DiffFrame s (diffLines s.drawFree) :=
  ⟨.of_results s _ _ _ _ _ _, rfl, rfl, rfl, rfl⟩

theorem encDeltaProc_frame {s : State} (hp : s.dec.pos = .command) :
    (encDeltaProc s).Sat (EncodeFrame s) (EncodeFrame s) True := by
  have hcounted : EncodeFrame s (deltaCounted s (lineDiff s) (deltaRun s)) := .of_results s _ _ _ _ _ _
  rw [encDeltaProc_eq rfl rfl]
  split
  · exact hcounted
  · split
    · exact hcounted.raise hp false .packetCountOverflow
    · exact EncodeFrame.of_results s _ _ _ _ _ _

theorem commandProc_encodeFrame {i : Instr} {c : BitVec 3} (hi : commandCode i = some c) (hc : isDecodeCode c = false)
    {s : State} (hp : s.dec.pos = .command) : (commandProc i s).Sat (EncodeFrame s) (EncodeFrame s) True := by
  cases i with
  | nop => exact EncodeFrame.refl s
  | encKey => exact (encKeyProc_frame hp).mono (fun _ h => h.toEncodeFrame) (fun _ h => h.toEncodeFrame) id
  | diff => exact (diffLines_frame s).toEncodeFrame
  | encDelta => exact encDeltaProc_frame hp
  | decBrunRow | decBrunFrame | decLcLine | decLcFrame => cases hi; cases hc
  | rowhdr _ | bRepeat _ | bCopy _ | lines _ | lskip _ | pkts _ | lCopy _ _ | lRepeat _ _ => cases hi

theorem exec_encodeFrame {i : Instr} {c : BitVec 3} {s t : State} (h : exec i s = .next t)
    (hi : commandCode i = some c) (hc : isDecodeCode c = false) (hp : s.dec.pos = .command) :
    EncodeFrame (s.setOp c) t :=
  exec_command_ensures h hi (.refl _) ((EncodeFrame.refl (s.setOp c)).raise hp _ _) (commandProc_encodeFrame hi hc hp)

theorem exec_diff_frame {s t : State} (h : exec .diff s = .next t) (hp : s.dec.pos = .command) :
    DiffFrame (s.setOp 2) t :=
  exec_command_ensures h rfl (.refl _) ((DiffFrame.refl (s.setOp 2)).raise hp _ _) (diffLines_frame (s.setOp 2))

theorem exec_encKey_frame {s t : State} (h : exec .encKey s = .next t) (hp : s.dec.pos = .command) :
    KeyFrame (s.setOp 1) t :=
  exec_command_ensures h rfl (.refl _) ((KeyFrame.refl (s.setOp 1)).raise hp _ _) (encKeyProc_frame (s := s.setOp 1) hp)

theorem exec_hostFrame {i : Instr} {c : BitVec 3} {s t : State} (h : exec i s = .next t)
    (hi : commandCode i = some c) (hp : s.dec.pos = .command) : HostFrame (s.setOp c) t := by
  cases hc : isDecodeCode c with
  | false => exact (exec_encodeFrame h hi hc hp).toHostFrame
  | true => exact (exec_decodeFrame h hi hc).toHostFrame

/-- Settles O32: the frames of the five clauses, each a property of the start of a command and of its procedure. -/
theorem unitsShareNoWorkingRegister : Obligations.UnitsShareNoWorkingRegister := by
  intro i c s t hi hp h
  refine ⟨?_, fun hc => ?_, fun hc => ?_, fun hdiff => ?_, fun hkey => ?_⟩
  · have k := exec_hostFrame h hi hp
    have hcmd : t.cmd = { s.cmd with op := c } := k.cmd
    exact ⟨k.cfg, hcmd ▸ rfl, hcmd ▸ rfl, k.lcur, k.lprev, k.inp, k.host⟩
  · have k := exec_encodeFrame h hi hc hp
    exact ⟨k.dec, k.fb⟩
  · have k := exec_decodeFrame h hi hc
    exact ⟨k.enc, k.dif, k.res, k.npk, k.nsc, k.changed, k.out, k.freeCtr⟩
  · subst hdiff
    have k := exec_diff_frame h hp
    exact ⟨k.pk, k.npk, k.out, k.enc⟩
  · subst hkey
    have k := exec_encKey_frame h hp
    exact ⟨k.sc, k.nsc, k.changed, k.dif⟩

/-! ### NOP, the host's accesses, and the step between commands -/

/-- Settles O4: NOP is `setOp 0`, and while a fault is recorded no other command does more than write CMD.OP. -/
theorem nopChangesOnlyCmdOp : Obligations.NopChangesOnlyCmdOp :=
  ⟨fun s => ⟨s.setOp 0, rfl, rfl, rfl⟩, fun _ _ _ hf hi _ => exec_command_of_fault hi hf, rfl, rfl⟩

/-- Settles O6: each of these accesses is one update of the state. -/
theorem hostAccessesWriteTheirOwnPlace : Obligations.HostAccessesWriteTheirOwnPlace := fun _ =>
  ⟨fun _ => rfl, fun _ => rfl, fun _ => ⟨rfl, rfl⟩, fun _ => rfl, fun _ => rfl, fun _ => rfl, fun _ => rfl, fun _ => rfl,
    rfl⟩

/-- Settles O18: the fetch between commands has one case for each head of the host's list. -/
theorem stepTakesTheHostsNextAction : Obligations.StepTakesTheHostsNextAction := by
  intro s hp
  refine ⟨fun code rest hh => ⟨commandOf code, commandCode_commandOf code, ?_⟩, fun a rest hh => ?_, fun hh => ?_⟩
  · rw [step, fetch_command hp hh]
  · rw [step, fetch_access hp hh]
  · rw [step, fetch_idle hp hh]

end Sys2Proof.Machine
end

section
/-! PROOF. The faults of 60_exceptions.md: what a command that faults records (R308, R310, R311), what it answers while one
is recorded (R312), and the exact records of BadConfig (R306), RowOverrun (R303) and a header cut short (R302). -/

namespace Sys2Proof.Machine

/-! ### The fault a command takes -/

/-- `t` is what a command with code `c` leaves when it takes a fault of its own row of R308: the record of R310, in a state
whose OUT is that of `s`. -/
def FaultTaken (i : Instr) (c : BitVec 3) (s t : State) : Prop :=
  ∃ u f, mayRaise i f = true ∧ u.out = s.out ∧ t = raise (isDecodeCode c) f u

/-- A decode procedure that started at `v`, with the OUT of `s`, ends the command by such a fault. -/
theorem Raised.faultTaken {F : FaultName → Prop} {i : Instr} {c : BitVec 3} {s v t : State} (h : Raised F v t)
    (hc : isDecodeCode c = true) (hout : v.out = s.out) (hF : ∀ f, F f → mayRaise i f = true) : FaultTaken i c s t := by
  obtain ⟨u, f, hu, hf, rfl⟩ := h
  exact ⟨u, f, hF f hf, hu.out.trans hout, hc ▸ rfl⟩

/-- The faults of the decode commands by the rows of R308: DEC_BRUN_FRAME never leaves the frame, so it alone raises no
LineOverrun. -/
theorem decodeProc_faults {i : Instr} {c : BitVec 3} (hi : commandCode i = some c) (hc : isDecodeCode c = true)
    (s : State) : (decodeProc i s).Sat (fun t => t.status = s.status) (FaultTaken i c s) True := by
  have line {f : FaultName} {i : Instr} (h : LineFault f) (htrunc : mayRaise i .truncatedStream = true)
      (hrow : mayRaise i .rowOverrun = true) (hline : mayRaise i .lineOverrun = true) : mayRaise i f = true := by
    rcases h with rfl | rfl | rfl
    · exact htrunc
    · exact hrow
    · exact hline
  refine decode_command_cases
    (P := fun i c => (decodeProc i s).Sat (fun t => t.status = s.status) (FaultTaken i c s) True) ?_ ?_ ?_ ?_ hi hc
  · refine (brunRow_sat _ (startLine false s)).mono (fun _ h => h.status) (fun _ h => ?_) fun _ => trivial
    exact h.faultTaken rfl rfl fun f hf => line (hf.elim PacketFault.line fun h => .inr (.inr h.1)) rfl rfl rfl
  · have hrows := brunRows_sat _ 0 (s := startFrame false s) (Nat.le_of_eq (Nat.zero_add _))
    refine hrows.mono (fun _ h => h.status) (fun _ h => ?_) fun _ => trivial
    refine h.faultTaken rfl rfl fun f hf => ?_
    rcases hf with rfl | rfl
    · rfl
    · rfl
  · refine (pktsLine_sat (startLine true s)).mono (fun _ h => h.status) (fun _ h => ?_) fun _ => trivial
    exact h.faultTaken rfl rfl fun f hf => line hf rfl rfl rfl
  · refine (lcFrame_sat (startFrame true s)).mono (fun _ h => h.status) (fun _ h => ?_) fun _ => trivial
    exact h.faultTaken rfl rfl fun f hf => line hf rfl rfl rfl

/-- The encode commands raise PacketCountOverflow alone, before they append to OUT (R305, R311). -/
theorem encKeyProc_faults (s : State) :
    (encKeyProc s).Sat (fun t => t.status.fault = s.status.fault) (FaultTaken .encKey 1 s) True := by
  rw [encKeyProc_eq]
  split
  · exact ⟨keyCounted s (keyRun s), .packetCountOverflow, rfl, rfl, rfl⟩
  · exact rfl

theorem encDeltaProc_faults (s : State) :
    (encDeltaProc s).Sat (fun t => t.status.fault = s.status.fault) (FaultTaken .encDelta 3 s) True := by
  rw [encDeltaProc_eq rfl rfl]
  split
  · exact rfl
  · split
    · exact ⟨deltaCounted s (lineDiff s) (deltaRun s), .packetCountOverflow, rfl, rfl, rfl⟩
    · exact rfl

/-- The procedure of a command keeps the fault code, or takes a fault of the command's row. -/
theorem commandProc_faults {i : Instr} {c : BitVec 3} (hi : commandCode i = some c) (s : State) :
    (commandProc i s).Sat (fun t => t.status.fault = s.status.fault) (FaultTaken i c s) True := by
  by_cases hc : isDecodeCode c = true
  · rw [commandProc_decode hi hc]
    exact (decodeProc_faults hi hc s).mono (fun _ h => congrArg Status.fault h) (fun _ h => h) id
  · cases i with
    | nop => exact rfl
    | encKey => cases hi; exact encKeyProc_faults s
    | diff => exact rfl
    | encDelta => cases hi; exact encDeltaProc_faults s
    | decBrunRow | decBrunFrame | decLcLine | decLcFrame => cases hi; exact absurd rfl hc
    | rowhdr _ | bRepeat _ | bCopy _ | lines _ | lskip _ | pkts _ | lCopy _ _ | lRepeat _ _ => cases hi

/-- BadConfig stands in the row of every command but NOP (R306, R308). -/
theorem mayRaise_badConfig {i : Instr} {c : BitVec 3} (hi : commandCode i = some c) (hnop : i ≠ .nop) :
    mayRaise i .badConfig = true := by
  cases i with
  | nop => exact absurd rfl hnop
  | encKey | diff | encDelta | decBrunRow | decBrunFrame | decLcLine | decLcFrame => rfl
  | rowhdr _ | bRepeat _ | bCopy _ | lines _ | lskip _ | pkts _ | lCopy _ _ | lRepeat _ _ => cases hi

/-- A command that starts with no fault recorded ends with none, or takes one of its row. -/
theorem exec_command_faults {i : Instr} {c : BitVec 3} (hi : commandCode i = some c) {s t : State}
    (hfault : s.status.fault = 0) (h : exec i s = .next t) : t.status.fault = 0 ∨ FaultTaken i c s t := by
  by_cases hnop : i = .nop
  · subst hnop
    cases h
    exact .inl hfault
  · rcases exec_command_cases hi h with rfl | rfl | hrun
    · exact .inl hfault
    · exact .inr ⟨s.setOp c, .badConfig, mayRaise_badConfig hi hnop, rfl, rfl⟩
    · exact ((commandProc_faults hi (s.setOp c)).next hrun).imp (fun h => Eq.trans h hfault) id

/-- Settles O37: the fault taken stands in the command's row, and STATUS.FAULT is its code. -/
theorem commandsRaiseOnlyTheirFaults : Obligations.CommandsRaiseOnlyTheirFaults := by
  intro i c s t hi hfault h
  refine (exec_command_faults hi hfault h).imp id fun htaken => ?_
  obtain ⟨u, f, hf, -, rfl⟩ := htaken
  exact ⟨f, hf, rfl⟩

/-- Settles O36: a non-zero STATUS.FAULT at the end is a fault taken, and `raise` records by the kind of command. -/
theorem faultRecordsWhereItStopped : Obligations.FaultRecordsWhereItStopped := by
  intro i c s t hi hfault h hne
  obtain ⟨u, f, -, hout, rfl⟩ := (exec_command_faults hi hfault h).resolve_left hne
  refine ⟨hout, fun hc => ?_, fun hc => ?_⟩
  · rw [hc]
    exact ⟨rfl, rfl, rfl⟩
  · rw [hc]
    exact ⟨rfl, rfl, rfl⟩

/-! ### While a fault is recorded (R312) -/

/-- The pixel that a host access writes exists, if it writes one (20_memory.md R60). -/
def HostAccess.pixelExists (a : HostAccess) (cfg : Cfg) : Prop :=
  match a with
  | .writeLcur i _ | .writeLprev i _ => i < Config.wMax
  | .writeFb r x _ => r < cfg.h.toNat ∧ x < cfg.w.toNat
  | _ => True

/-- Whether a host access goes on depends on CFG alone. -/
theorem hostAccess_proceeds_iff (a : HostAccess) (s : State) : Proceeds (hostAccess a s) ↔ a.pixelExists s.cfg := by
  have guarded {c : Prop} [Decidable c] (t : State) :
      Proceeds (if c then .next t else .fault .noSuchPixel) ↔ c := by
    by_cases hc : c
    · rw [if_pos hc]
      exact iff_of_true ⟨t, rfl⟩ hc
    · rw [if_neg hc]
      exact iff_of_false (nomatch ·) hc
  cases a with
  | writeLcur i p | writeLprev i p | writeFb r x p => exact guarded _
  | writeW _ | writeH _ | writeBpp _ | writeArg _ | writeIp _ => exact iff_of_true ⟨_, rfl⟩ trivial
  | replaceIn _ | extendIn _ | truncateIn _ | clearOut | reset => exact iff_of_true ⟨_, rfl⟩ trivial

/-- Settles O3: a refused command is `setOp` alone, and no host access looks at STATUS. -/
theorem faultRefusesEveryCommandButNop : Obligations.FaultRefusesEveryCommandButNop :=
  fun s hfault => ⟨fun _ _ hi _ => exec_command_of_fault hi hfault, fun a =>
    (hostAccess_proceeds_iff a s).trans
      (hostAccess_proceeds_iff a { s with status := { s.status with fault := 0 } }).symm⟩

/-! ### BadConfig (R306) -/

theorem startCommand_badConfig {code : BitVec 3} {s : State} (hfault : s.status.fault = 0)
    (hgeom : s.cfg.w = 0 ∨ (isDecodeCode code = true ∧ s.cfg.h = 0)) (body : State → Flow) :
    startCommand code body s = .ended (raise (isDecodeCode code) .badConfig (s.setOp code)) :=
  (if_neg (not_not_intro hfault)).trans (if_pos hgeom)

/-- Between commands `raise` writes STATUS alone (R310). -/
theorem raise_between {s : State} (hp : s.dec.pos = .command) (decoding : Bool) (f : FaultName) :
    raise decoding f s = { s with status := (raise decoding f s).status } :=
  congrArg (fun d => { s with status := (raise decoding f s).status, dec := d }) (raise_dec hp decoding f)

/-- Settles O5: the check comes before the procedure, in a state that differs in CMD.OP only. -/
theorem zeroGeometryRaisesBadConfig : Obligations.ZeroGeometryRaisesBadConfig := by
  intro s i c hi hnop hp hfault hgeom
  rw [exec_command hi hnop, startCommand_badConfig hfault hgeom, raise_between (s := s.setOp c) hp]
  rfl

/-! ### RowOverrun (R303) -/

theorem repeatBody_overrun {n : Nat} {s : State} (h : s.cfg.w.toNat < s.dec.x.toNat + n) :
    repeatBody n s = raiseDecode .rowOverrun s := if_pos ((overrunsRow_iff n s).mpr h)

theorem copyBody_overrun {n : Nat} {s : State} (h : s.cfg.w.toNat < s.dec.x.toNat + n) :
    copyBody n s = raiseDecode .rowOverrun s := if_pos ((overrunsRow_iff n s).mpr h)

/-- From a column of the row a skip byte never carries X.x beyond its 17 bits, also where it leaves the row. -/
theorem addSkip_x_of_column {s : State} (h : s.dec.x.toNat ≤ s.cfg.w.toNat) (skip : Byte) :
    (addSkip skip s).dec.x.toNat = s.dec.x.toNat + skip.toNat := by
  have := s.cfg.w.isLt
  have := skip.isLt
  exact Nat.mod_eq_of_lt (by omega)

/-- Settles O29: the bound check is the first thing the body of a packet does, after the skip of an LC packet. -/
theorem overrunningPacketRaisesRowOverrun : Obligations.OverrunningPacketRaisesRowOverrun := by
  refine fun s n hx => ⟨fun h => ?_, fun skip h => ?_⟩
  · exact ⟨congrArg Flow.outcome (repeatBody_overrun h), congrArg Flow.outcome (copyBody_overrun h)⟩
  · rw [← addSkip_x_of_column hx skip] at h
    exact ⟨congrArg Flow.outcome (copyBody_overrun (s := addSkip skip s) h),
      congrArg Flow.outcome (repeatBody_overrun (s := addSkip skip s) h)⟩

/-! ### A header cut short (R302) -/

/-- What the header that is cut short at X.ip has added to X.x: the skip byte of an LC packet, if that was there
(44_rle_decoder_lc.md R224). -/
def cutSkip (s : State) : Nat :=
  match s.dec.pos, s.inp.drop s.dec.ip with
  | .lcPacket, skip :: _ => skip.toNat
  | _, _ => 0

/-- Where the reads of a header that is cut short stop: X.ip at the end of IN, or where it stood beyond it. -/
def State.headerCut (s : State) : State := (s.setX (s.dec.x.toNat + cutSkip s)).setIp (max s.dec.ip s.inp.length)

theorem headerCut_of_no_skip {s : State} (h : cutSkip s = 0) : s.headerCut = s.setIp (max s.dec.ip s.inp.length) := by
  simp [State.headerCut, h, State.setX, State.setIp]

theorem headerCut_of_drop_nil {s : State} (h : s.inp.drop s.dec.ip = []) : s.headerCut = s := by
  have hskip : cutSkip s = 0 := by
    unfold cutSkip
    split
    · next hbyte => rw [h] at hbyte; cases hbyte
    · rfl
  rw [headerCut_of_no_skip hskip, Nat.max_eq_left (List.drop_eq_nil_iff.mp h)]
  rfl

theorem cutSkip_of_ne_lcPacket {s : State} (h : s.dec.pos ≠ .lcPacket) : cutSkip s = 0 := by
  unfold cutSkip
  split
  · next hpos _ => exact absurd hpos h
  · rfl

/-- The header reads of an LC packet: the skip byte moves X.x before the count byte is missed. -/
theorem readCutHeader_lcPacket {s : State} (hp : s.dec.pos = .lcPacket) (hlen : (s.inp.drop s.dec.ip).length ≤ 1) :
    readCutHeader s = raiseDecode .truncatedStream s.headerCut := by
  rw [readCutHeader, hp]
  match hd : s.inp.drop s.dec.ip, hlen with
  | [], _ => rw [headerCut_of_drop_nil hd]; exact in8_of_drop_nil hd _
  | [skip], _ =>
    have hskip : cutSkip s = skip.toNat := by rw [cutSkip, hp, hd]
    have hend : s.inp.length = s.dec.ip + 1 := by
      have := congrArg List.length hd
      simp at this
      omega
    have hcut : s.headerCut = addSkip skip (s.setIp (s.dec.ip + 1)) := by
      rw [State.headerCut, hskip, hend, Nat.max_eq_right (Nat.le_succ _)]
      rfl
    rw [hcut]
    simp only [in8_of_drop hd]
    exact in8_of_drop_nil (s := addSkip skip (s.setIp (s.dec.ip + 1))) (drop_succ_of_drop hd) _

/-- The header reads at every position of a decode end in TruncatedStream, where `headerCut` says. -/
theorem readCutHeader_eq {s : State} {e : DecodeError} (hp : s.dec.pos ≠ .command)
    (h : decode s.dec.pos (s.inp.drop s.dec.ip) = .error e) :
    readCutHeader s = raiseDecode .truncatedStream s.headerCut := by
  obtain ⟨hlen, hnil⟩ := decode_error_short hp h
  have h8 (hpos : s.dec.pos = .rowHead ∨ s.dec.pos = .brunPacket) :
      (in8 s fun _ u => .go u) = raiseDecode .truncatedStream s.headerCut := by
    rw [headerCut_of_drop_nil (hnil hpos)]
    exact in8_of_drop_nil (hnil hpos) _
  have h16 (hpos : s.dec.pos ≠ .lcPacket) :
      (in16 s fun _ u => .go u) = raiseDecode .truncatedStream s.headerCut := by
    rw [headerCut_of_no_skip (cutSkip_of_ne_lcPacket hpos)]
    exact in16_cut (by rw [List.length_drop] at hlen; omega) _
  by_cases hlc : s.dec.pos = .lcPacket
  · exact readCutHeader_lcPacket hlc hlen
  · unfold readCutHeader
    split
    · next hpos => exact absurd hpos hp
    · next hpos => exact h8 (.inl hpos)
    · next hpos => exact h8 (.inr hpos)
    · exact h16 hlc
    · exact h16 hlc
    · exact h16 hlc
    · next hpos => exact absurd hpos hlc

/-- In a line X.x has room for a skip byte; at no other position is there one. -/
theorem headerCut_x {s : State} (hx : s.dec.pos = .lcPacket → s.dec.x.toNat ≤ s.cfg.w.toNat) :
    s.headerCut.dec.x.toNat = s.dec.x.toNat + cutSkip s := by
  have hroom : s.dec.x.toNat + cutSkip s < 2 ^ 17 := by
    have := s.dec.x.isLt
    unfold cutSkip
    split
    · next skip _ hpos _ =>
      have := hx hpos
      have := s.cfg.w.isLt
      have := skip.isLt
      omega
    · omega
  exact Nat.mod_eq_of_lt hroom

/-- Settles O19: the step raises TruncatedStream where the header reads stop. -/
theorem cutHeaderRaisesTruncatedStream : Obligations.CutHeaderRaisesTruncatedStream := by
  intro s e hp h hx
  refine ⟨raise true .truncatedStream s.headerCut, ?_, rfl, rfl, rfl, rfl, rfl, headerCut_x hx, rfl, rfl, rfl, rfl, rfl,
    rfl⟩
  rw [step_of_cut hp h, readCutHeader_eq hp h]
  rfl

end Sys2Proof.Machine
end

section
/-! PROOF. How many packets a line can have (60_exceptions.md R305): two packets of a run take `E.la + 2` pixels, so
PacketCountOverflow needs a row of 512 pixels in ENC_KEY and a line of 49152 in ENC_DELTA; the lines of groups of one pixel
and a REPEAT reach both bounds. -/

namespace Sys2Proof.Machine

/-! ### What packets take -/

/-- How many pixels a run has at least when its first `k` packets are complete, with look-ahead `la`: the cheapest are a
COPY of one pixel and a REPEAT of `la + 1` in turn. -/
def packetPixels (la k : Nat) : Nat := (la + 2) * (k / 2) + k % 2

/-- How many it has at least where a COPY follows those packets, so that the last of them is a REPEAT or a full COPY. -/
def pixelsBeforeCopy (la k : Nat) : Nat := (la + 2) * (k / 2) + (la + 1) * (k % 2)

theorem packetPixels_succ (la k : Nat) : packetPixels la (k + 1) = pixelsBeforeCopy la k + 1 := by
  unfold packetPixels pixelsBeforeCopy
  rcases Nat.mod_two_eq_zero_or_one k with h | h
  · rw [h, show (k + 1) / 2 = k / 2 by omega, show (k + 1) % 2 = 1 by omega, Nat.mul_zero]
  · rw [h, show (k + 1) / 2 = k / 2 + 1 by omega, show (k + 1) % 2 = 0 by omega]
    ring

theorem pixelsBeforeCopy_succ (la k : Nat) : pixelsBeforeCopy la (k + 1) = packetPixels la k + (la + 1) := by
  unfold packetPixels pixelsBeforeCopy
  rcases Nat.mod_two_eq_zero_or_one k with h | h
  · rw [h, show (k + 1) / 2 = k / 2 by omega, show (k + 1) % 2 = 1 by omega, Nat.mul_one]
    rfl
  · rw [h, show (k + 1) / 2 = k / 2 + 1 by omega, show (k + 1) % 2 = 0 by omega]
    ring

/-- Where a COPY follows, the packets before it take at most the look-ahead more. -/
theorem pixelsBeforeCopy_bounds (la k : Nat) :
    packetPixels la k ≤ pixelsBeforeCopy la k ∧ pixelsBeforeCopy la k ≤ packetPixels la k + la := by
  unfold packetPixels pixelsBeforeCopy
  rcases Nat.mod_two_eq_zero_or_one k with h | h
  · rw [h]
    omega
  · rw [h]
    omega

/-- The run encoder has emitted `k` packets from `read` pixels: these were enough for the packets and for the one pending,
where a REPEAT in the making counts as `E.la + 1` pixels at least (a shorter one stands behind a full REPEAT). -/
structure PaidFor (k read : Nat) (e : Enc) : Prop where
  copy : e.mode = .copy → pixelsBeforeCopy e.la.toNat k + e.count.toNat ≤ read
  repeated : e.mode = .repeated →
    packetPixels e.la.toNat k + e.count.toNat ≤ read ∧ packetPixels e.la.toNat k + (e.la.toNat + 1) ≤ read

/-- The switch emits a COPY where something is pending before the tail (40_rle_encoder_key.md R132). -/
theorem stepSwitch_length (L : Nat → Pixel) (e : Enc) :
    (stepSwitch L e).2.length = if e.la.toNat < e.count.toNat then 1 else 0 := by
  have hhead : 1 ≤ e.count.toNat - e.la.toNat ↔ e.la.toNat < e.count.toNat := Nat.sub_pos_iff_lt
  simp only [stepSwitch, hhead]
  split <;> rfl

/-- The flush emits what is pending as one packet (R137). -/
theorem flushRun_length (L : Nat → Pixel) (e : Enc) : (flushRun L e).length = if 1 ≤ e.count.toNat then 1 else 0 := by
  unfold flushRun
  split
  · cases e.mode <;> rfl
  · rfl

/-- Every step pays for what it emits with the pixel it reads. -/
theorem PaidFor.after_encStep {k read : Nat} {e : Enc} (h : PaidFor k read e) (L : Nat → Pixel) :
    PaidFor (k + (encStep L e).2.length) (read + 1) (encStep L e).1 := by
  have hla := e.la.isLt
  have hpackets := packetPixels_succ e.la.toNat k
  have hcopy := pixelsBeforeCopy_succ e.la.toNat k
  have hbounds := pixelsBeforeCopy_bounds e.la.toNat k
  rcases encStep_cases L e with ⟨hm, ht, he⟩ | ⟨hm, -, hc, he⟩ | ⟨hm, -, hc, he⟩ | ⟨hm, -, hc, he⟩ | ⟨hm, -, hc, he⟩ |
      ⟨hm, -, he⟩
  all_goals rw [he]
  · have hpaid := h.copy hm
    have htail := ((tailMatches_iff L e).mp ht).1
    refine ⟨(nomatch ·), fun _ => ?_⟩
    rw [stepSwitch_count, stepSwitch_length, show (stepSwitch L e).1.la = e.la from rfl]
    split
    · omega
    · rw [Nat.add_zero]
      omega
  · have hpaid := h.copy hm
    refine ⟨fun _ => ?_, (nomatch ·)⟩
    change pixelsBeforeCopy e.la.toNat (k + 1) + 1 ≤ read + 1
    omega
  · have hpaid := h.copy hm
    refine ⟨fun _ => ?_, fun hr => absurd (hm.symm.trans hr) (by decide)⟩
    rw [extendPacket_count hc]
    exact Nat.succ_le_succ hpaid
  · have hpaid := (h.repeated hm).1
    refine ⟨(nomatch ·), fun _ => ?_⟩
    change packetPixels e.la.toNat (k + 1) + 1 ≤ read + 1 ∧ packetPixels e.la.toNat (k + 1) + (e.la.toNat + 1) ≤ read + 1
    omega
  · obtain ⟨hpaid, hleast⟩ := h.repeated hm
    refine ⟨fun hr => absurd (hm.symm.trans hr) (by decide), fun _ => ?_⟩
    rw [extendPacket_count hc]
    exact ⟨Nat.succ_le_succ hpaid, Nat.le_succ_of_le hleast⟩
  · have hleast := (h.repeated hm).2
    refine ⟨fun _ => ?_, (nomatch ·)⟩
    change pixelsBeforeCopy e.la.toNat (k + 1) + 1 ≤ read + 1
    omega

theorem PaidFor.flushRun {k read : Nat} {e : Enc} (h : PaidFor k read e) (L : Nat → Pixel) :
    packetPixels e.la.toNat (k + (flushRun L e).length) ≤ read := by
  have hpackets := packetPixels_succ e.la.toNat k
  have hbounds := pixelsBeforeCopy_bounds e.la.toNat k
  rw [flushRun_length]
  cases hm : e.mode with
  | copy =>
    have hpaid := h.copy hm
    split
    · omega
    · rw [Nat.add_zero]
      omega
  | repeated =>
    have hleast := (h.repeated hm).2
    split
    · omega
    · rw [Nat.add_zero]
      omega

theorem PaidFor.runSteps {k read n : Nat} {e : Enc} (h : PaidFor k read e) (L : Nat → Pixel) :
    packetPixels e.la.toNat (k + (runSteps L n e).2.length) ≤ read + n := by
  induction n generalizing k read e with
  | zero => exact h.flushRun L
  | succ n ih =>
    have hlater := ih (h.after_encStep L)
    rw [(encStep_frame L e).2.1] at hlater
    rwa [Machine.runSteps, List.length_append, ← Nat.add_assoc, ← Nat.add_assoc, Nat.add_right_comm read n 1]

/-- The packets of a run of `n` pixels take at most `n`. -/
theorem encodeRun_packetPixels (L : Nat → Pixel) (e : Enc) (s0 n : Nat) (la : BitVec 2) :
    packetPixels la.toNat (encodeRun L e s0 n la).2.length ≤ n := by
  have hstart : PaidFor 0 0 (startRun e s0 n la) := ⟨fun _ => Nat.le_refl 0, (nomatch ·)⟩
  have hrun := hstart.runSteps (n := n) L
  rw [Nat.zero_add, Nat.zero_add] at hrun
  exact hrun

/-! ### The bounds of the two commands -/

/-- A row of at most 511 pixels has at most 255 packets. -/
theorem keyRun_length_le_255 {s : State} (hw : s.cfg.w.toNat ≤ 511) : (keyRun s).2.length ≤ 255 := by
  have h : packetPixels 2 (keyRun s).2.length ≤ s.cfg.w.toNat := encodeRun_packetPixels _ _ _ _ 2
  unfold packetPixels at h
  omega

/-- A sub-chunk of `n` pixels behind a gap has at most two packets for every three pixels; without a gap the odd packet of
its run may be one more. -/
theorem encodeSubChunk_length_le (L : Nat → Pixel) (e : Enc) (sc : SubChunk) :
    3 * (encodeSubChunk L e sc).2.length ≤ 2 * (sc.skip.toNat + sc.length.toNat) + (1 - sc.skip.toNat) := by
  have hrun : packetPixels 1 (chunkRun L e sc).2.length ≤ sc.length.toNat := encodeRun_packetPixels _ _ _ _ Config.laDelta
  have hskips : 255 * skipSplits sc.skip.toNat ≤ sc.skip.toNat - 1 := Nat.mul_div_le _ _
  unfold packetPixels at hrun
  rw [encodeSubChunk_eq, List.length_append, List.length_replicate, attachSkips_length]
  omega

/-- The packets of the sub-chunks from `a` on: only at the start of the line can a sub-chunk stand without a gap. -/
theorem deltaLine_length_le_two_thirds {C P : Nat → Pixel} {w a : Nat} {scs : List SubChunk} (h : ChunksFrom C P w a scs)
    (ha : a ≤ w) (L : Nat → Pixel) (e : Enc) : 2 * a + 3 * (deltaLine L e scs).2.length ≤ 2 * w + (1 - a) := by
  induction scs generalizing a e with
  | nil =>
    rw [deltaLine, List.length_nil]
    omega
  | cons sc rest ih =>
    obtain ⟨hsc, hrest⟩ := h
    have hlater := ih hrest hsc.inside (encodeSubChunk L e sc).1
    have hnow := encodeSubChunk_length_le L e sc
    have hstart := hsc.start
    have hgap := hsc.gap
    have hnonempty := hsc.nonempty
    rw [deltaLine, List.length_append]
    omega

/-- A line of at most 49151 pixels has at most 32767 packets. -/
theorem deltaLine_length_le_32767 (C P L : Nat → Pixel) (e : Enc) {w : Nat} (hw : w ≤ 49151) :
    (deltaLine L e (differ C P w).2).2.length ≤ 32767 := by
  have := deltaLine_length_le_two_thirds (differ_chunks C P (show w ≤ 65535 by omega)) (Nat.zero_le w) L e
  omega

/-! ### The narrowest row that overflows -/

/-- The run encoder of ENC_KEY with the `n` pixels from `i` on pending as a packet of mode `m`. -/
def pendingFrom (e : Enc) (m : Mode) (i n : Nat) : Enc :=
  { e with mode := m, count := BitVec.ofNat 7 n, start := BitVec.ofNat 16 i, idx := BitVec.ofNat 16 (i + n), la := 2 }

theorem pendingFrom_idx (e : Enc) (m : Mode) {i n : Nat} (h : i + n < 65536) :
    (pendingFrom e m i n).idx.toNat = i + n := Nat.mod_eq_of_lt h

theorem pendingFrom_start (e : Enc) (m : Mode) {i : Nat} (n : Nat) (h : i < 65536) :
    (pendingFrom e m i n).start.toNat = i := Nat.mod_eq_of_lt h

theorem extendPacket_pendingFrom (e : Enc) (m : Mode) {i n : Nat} (hn : n < 128) (h : i + n < 65536) :
    extendPacket (pendingFrom e m i n) = pendingFrom e m i (n + 1) := by
  simp [extendPacket, pendingFrom, Nat.mod_eq_of_lt hn, Nat.mod_eq_of_lt h, Nat.add_assoc]

/-- A COPY that takes the new pixel, which differs from one of the two before it or has not two before it. -/
theorem encStep_copying {L : Nat → Pixel} {e : Enc} {i n : Nat} (hn : n < 127) (h : i + n < 65536)
    (ht : n < 2 ∨ L (i + n - 2) ≠ L (i + n)) :
    encStep L (pendingFrom e .copy i n) = (pendingFrom e .copy i (n + 1), []) := by
  have hcount : (pendingFrom e .copy i n).count.toNat = n := Nat.mod_eq_of_lt (by omega)
  rw [encStep_copy_extend rfl (by omega) (fun hla => ?_), extendPacket_pendingFrom e _ (by omega) h]
  rw [hcount] at hla
  rw [pendingFrom_idx e _ h]
  exact ⟨1, Nat.one_lt_two, ht.resolve_left (Nat.not_lt.mpr hla)⟩

/-- The third of three equal pixels behind one pending: that one is emitted, and the three become a REPEAT. -/
theorem encStep_switching {L : Nat → Pixel} {e : Enc} {i : Nat} (h : i + 3 < 65536) (h1 : L (i + 1) = L (i + 3))
    (h2 : L (i + 2) = L (i + 3)) :
    encStep L (pendingFrom e .copy i 3) = (pendingFrom e .repeated (i + 1) 3, [.copyOf (slice L i 1)]) := by
  have hidx := pendingFrom_idx e .copy h
  have ht : tailMatches L (pendingFrom e .copy i 3) = true := by
    refine (tailMatches_iff_back L _).mpr ⟨Nat.le_succ 2, fun k hk hk2 => ?_⟩
    have hk2 : k ≤ 2 := hk2
    rw [hidx]
    interval_cases k
    · exact h2
    · exact h1
  rw [encStep_copy_tail rfl ht]
  simp [stepSwitch, pendingFrom, Nat.mod_eq_of_lt h, Nat.mod_eq_of_lt (show i < 65536 by omega)]

/-- A REPEAT of three pixels that ends at another pixel. -/
theorem encStep_ending {L : Nat → Pixel} {e : Enc} {i : Nat} (h : i + 3 < 65536) (hne : L (i + 3) ≠ L i) :
    encStep L (pendingFrom e .repeated i 3) = (pendingFrom e .copy (i + 3) 1, [.repeatOf 3 (L i)]) := by
  have hidx := pendingFrom_idx e .repeated h
  have hstart := pendingFrom_start e .repeated 3 (show i < 65536 by omega)
  rw [encStep_repeated_other rfl (by rw [hidx, hstart]; exact hne), hstart, freshPacket, hidx]
  rfl

/-- A group of four pixels of which the first is pending: after the other three its COPY has been emitted and a REPEAT is
pending. -/
theorem runSteps_group_key {L : Nat → Pixel} {N i : Nat} (hL : ∀ k, k < N → L k = groupPixel 4 k) (h4 : i % 4 = 0)
    (hN : i + 4 ≤ N) (hb : N < 65536) (e : Enc) (n : Nat) :
    (runSteps L (n + 3) (pendingFrom e .copy i 1)).2.length =
      1 + (runSteps L n (pendingFrom e .repeated (i + 1) 3)).2.length := by
  have g0 : L i = ⟨0, 0⟩ := by rw [hL i (by omega), groupPixel, if_pos h4]
  have g1 : L (i + 1) = ⟨1, 0⟩ := by rw [hL _ (by omega), groupPixel, if_neg (by omega)]
  have g2 : L (i + 2) = ⟨1, 0⟩ := by rw [hL _ (by omega), groupPixel, if_neg (by omega)]
  have g3 : L (i + 3) = ⟨1, 0⟩ := by rw [hL _ (by omega), groupPixel, if_neg (by omega)]
  have s1 : encStep L (pendingFrom e .copy i 1) = (pendingFrom e .copy i 2, []) :=
    encStep_copying (by decide) (by omega) (.inl (by decide))
  have s2 : encStep L (pendingFrom e .copy i 2) = (pendingFrom e .copy i 3, []) :=
    encStep_copying (by decide) (by omega) (.inr (by rw [Nat.add_sub_cancel, g0, g2]; decide))
  have s3 := encStep_switching (e := e) (show i + 3 < 65536 by omega) (g1.trans g3.symm) (g2.trans g3.symm)
  simp only [runSteps, s1, s2, s3, List.length_append, List.length_nil, List.length_singleton, Nat.zero_add]

theorem runSteps_groups_key {L : Nat → Pixel} {N i m : Nat} (hL : ∀ k, k < N → L k = groupPixel 4 k) (h4 : i % 4 = 0)
    (hN : i + 4 * (m + 1) ≤ N) (hb : N < 65536) (e : Enc) :
    (runSteps L (4 * m + 3) (pendingFrom e .copy i 1)).2.length = 2 * (m + 1) := by
  induction m generalizing i with
  | zero =>
    rw [runSteps_group_key hL h4 (by omega) hb, runSteps, flushRun_length]
    rfl
  | succ m ih =>
    have hne : L (i + 1 + 3) ≠ L (i + 1) := by
      rw [hL _ (by omega), hL _ (by omega), groupPixel, groupPixel, if_pos (by omega), if_neg (by omega)]
      decide
    rw [runSteps_group_key hL h4 (by omega) hb, show 4 * (m + 1) = 4 * m + 3 + 1 by omega, runSteps,
      encStep_ending (by omega) hne, List.length_append, List.length_singleton, ih (i := i + 1 + 3) (by omega) (by omega)]
    omega

/-- A run of `4 * (m + 1)` pixels in groups of four gives `2 * (m + 1)` packets with look-ahead 2. -/
theorem encodeRun_groups_key {L : Nat → Pixel} {m : Nat} (hL : ∀ k, k < 4 * (m + 1) → L k = groupPixel 4 k)
    (hb : 4 * (m + 1) < 65536) (e : Enc) : (encodeRun L e 0 (4 * (m + 1)) 2).2.length = 2 * (m + 1) := by
  have hstart : startRun e 0 (4 * (m + 1)) 2 = pendingFrom { e with stop := BitVec.ofNat 16 (0 + 4 * (m + 1)) } .copy 0 0 :=
    rfl
  rw [encodeRun, hstart, show 4 * (m + 1) = 4 * m + 3 + 1 by omega, runSteps,
    encStep_copying (by decide) (by decide) (.inl (by decide))]
  exact runSteps_groups_key hL rfl (by omega) hb _

/-! ### The two commands -/

/-- A row of 512 pixels in groups of four. -/
def overflowingRow : State := { State.reset with cfg := { w := 512, h := 0 }, lcur := lineCells (groupPixel 4) 0 512 }

/-- A line of 49152 pixels in groups of three, each pixel changed. -/
def overflowingLine : State := { State.reset with
  cfg := { w := 49152, h := 0 }
  lcur := lineCells (groupPixel 3) 0 49152
  lprev := lineCells (fun _ => ⟨2, 0⟩) 0 49152 }

theorem overflowingRow_packets : (keyRun overflowingRow).2.length = 256 :=
  encodeRun_groups_key (m := 127) (fun k hk => linePixel_lineCells _ _ _ 0 512 k (Nat.zero_le k) hk) (by decide) _

theorem overflowingLine_packets : (deltaRun overflowingLine).2.length = 32768 := by
  have hC (k : Nat) (hk : k < 49152) :
      linePixel (overflowingLine.freeCtr + 1) .current overflowingLine.lcur k = groupPixel 3 k :=
    linePixel_lineCells _ _ _ 0 49152 k (Nat.zero_le k) (by omega)
  have hP (k : Nat) (hk : k < 49152) :
      linePixel (overflowingLine.freeCtr + 1) .previous overflowingLine.lprev k = ⟨2, 0⟩ :=
    linePixel_lineCells _ _ _ 0 49152 k (Nat.zero_le k) (by omega)
  refine deltaLine_groups (m := 16383) hC (fun k hk => ?_) (by decide) _
  rw [hC k hk, hP k hk, groupPixel]
  split <;> decide

/-- Settles O38: the bounds are those on the packets of a run and of a line; the lines of groups reach them. -/
theorem packetCountOverflowNeedsAWideLine : Obligations.PacketCountOverflowNeedsAWideLine := by
  refine ⟨fun s hfault hw hwide => ?_, fun s hfault hw hwide => ?_, ?_, ?_⟩
  · have hlen := keyRun_length_le_255 hwide
    exact ⟨_, (encKeyEncodesTheLine s (keyRun s) hfault hw rfl).1 hlen, hfault⟩
  · have hlen : (deltaRun s).2.length ≤ 32767 := deltaLine_length_le_32767 _ _ _ _ hwide
    obtain ⟨u, rfl, hsame, hchanged, -⟩ := encDeltaEncodesTheChanges s (lineDiff s) (deltaRun s) hfault hw rfl rfl
    by_cases hnil : (lineDiff s).2 = []
    · exact ⟨_, (hsame hnil).1, hfault⟩
    · exact ⟨_, hchanged hnil hlen, hfault⟩
  · have hexec := (encKeyEncodesTheLine overflowingRow (keyRun overflowingRow) rfl (by decide) rfl).2
    rw [overflowingRow_packets] at hexec
    exact ⟨overflowingRow, _, rfl, rfl, hexec (by decide), rfl, rfl, rfl⟩
  · obtain ⟨u, rfl, -, -, hexec⟩ :=
      encDeltaEncodesTheChanges overflowingLine (lineDiff overflowingLine) (deltaRun overflowingLine) rfl (by decide) rfl rfl
    rw [overflowingLine_packets] at hexec
    exact ⟨overflowingLine, _, rfl, rfl, hexec (by decide), rfl, rfl, rfl⟩

end Sys2Proof.Machine
end

section
/-! PROOF. RESET (70_reset_and_hazards.md R340, R341): the step it takes, the reset values it leaves, and that no other step
clears STATUS.FAULT. -/

namespace Sys2Proof.Machine

/-! ### The step that takes the RESET event -/

/-- The host's RESET between commands is one step (R340, 45_host_commands.md R256). -/
theorem step_reset {s : State} {rest : List HostAction} (hp : s.dec.pos = .command)
    (hh : s.host = .access .reset :: rest) : step s = .next (resetEvent { s with host := rest }) := by
  rw [step, fetch_access hp hh]
  rfl

/-- RESET keeps nothing of the block (R341): all that is left are the model's own fields (log 2, log 5). -/
theorem resetEvent_erases (s : State) : { resetEvent s with host := [], freeCtr := 0 } = State.reset := rfl

/-- After RESET no byte of LCUR, LPREV or FB has a value (10_state.md R55). -/
theorem resetEvent_holds_no_byte (s : State) (a : Nat) : (resetEvent s).lcur.read a = none ∧
    (resetEvent s).lprev.read a = none ∧ (resetEvent s).fb.read a = none := ⟨rfl, rfl, rfl⟩

/-- Settles O1: the RESET step ends in `resetEvent`, whose registers are each at their reset value by computation, and
`State.reset` has no host action to take. -/
theorem resetPutsEveryRegisterBack : Obligations.ResetPutsEveryRegisterBack := by
  refine ⟨fun s rest hp hh => ⟨_, step_reset hp hh, ?_⟩, ?_⟩
  · repeat refine ⟨rfl, ?_⟩
    exact resetEvent_holds_no_byte _
  · rw [step, fetch_idle rfl rfl]

/-! ### No other step clears a fault -/

/-- The codes of R301 are all non-zero. -/
theorem FaultName.code_ne_zero (f : FaultName) : f.code ≠ 0 := by
  cases f <;> decide

/-- What an instruction leaves in STATUS.FAULT is no 0 where a fault stood. -/
theorem Settled.fault_ne_zero {s t : State} (h : Settled s t) (hs : s.status.fault ≠ 0) : t.status.fault ≠ 0 := by
  rcases h.1 with hsame | ⟨f, hf⟩
  · rwa [hsame]
  · rw [hf]
    exact f.code_ne_zero

/-- The sequencing after an item does not touch STATUS. -/
theorem afterItem_status (i : Instr) (s : State) : (afterItem i s).status = s.status := by
  unfold afterItem
  split
  · rfl
  · obtain ⟨d, hd⟩ := advance_dec i s
    rw [hd]

/-- What a step from a state with a fault recorded can do: it keeps a fault recorded, or it is the host's RESET. -/
theorem step_faulted_or_reset {s t : State} (h : step s = .next t) (hs : s.status.fault ≠ 0) :
    t.status.fault ≠ 0 ∨
      s.dec.pos = .command ∧ ∃ rest, s.host = .access .reset :: rest ∧ t = resetEvent { s with host := rest } := by
  by_cases hp : s.dec.pos = .command
  · match hh : s.host with
    | [] =>
      rw [step, fetch_idle hp hh] at h
      cases h
      exact .inl hs
    | .writeOp code :: rest =>
      rw [step, fetch_command hp hh] at h
      exact .inl ((exec_settled h).fault_ne_zero hs)
    | .access a :: rest =>
      by_cases ha : a = .reset
      · subst ha
        rw [step_reset hp hh] at h
        exact .inr ⟨hp, rest, rfl, (Host.Outcome.next.inj h).symm⟩
      · rw [step, fetch_access hp hh] at h
        obtain ⟨-, hstatus, -⟩ := hostAccess_frame h ha
        exact .inl (by rwa [hstatus])
  · cases hd : decode s.dec.pos (s.inp.drop s.dec.ip) with
    | error e =>
      obtain ⟨u, hu⟩ := readCutHeader_raises hp hd
      rw [step_of_cut hp hd, hu] at h
      cases h
      exact .inl (FaultName.code_ne_zero .truncatedStream)
    | ok item =>
      obtain ⟨i, rest⟩ := item
      rw [step_of_decode hp hd] at h
      obtain ⟨u, hu, rfl⟩ := mapNext_eq_next h
      rw [afterItem_status]
      exact .inl ((exec_settled hu).fault_ne_zero hs)

/-- Settles O2: a step that leaves no fault recorded is the RESET step, and `resetEvent` erases the block. -/
theorem onlyResetClearsFault : Obligations.OnlyResetClearsFault := by
  intro s t h hs ht
  obtain ⟨hp, rest, hh, rfl⟩ := (step_faulted_or_reset h hs).resolve_left (not_not_intro ht)
  exact ⟨hp, ⟨rest, hh⟩, resetEvent_erases _⟩

end Sys2Proof.Machine
end
